-- ==== Sys2Proof/Word.lean ====
section
/-! DEFINITION. The words of the block and its fixed parameters (00_scope.md R7 to R10). -/

namespace Sys2Proof

/-- A bus word, a count, a weight or a counter: 32 bits (R7: BUS_W, COUNT_W; R9). -/
abbrev Word := BitVec 32

/-- A decoded symbol on `m_sym`: 8 bits (R41). -/
abbrev Byte := BitVec 8

/-- A symbol wherever the block carries one: 9 bits (R8). The values 257 to 511 are no symbols. -/
abbrev Sym := BitVec 9

/-- A node index: 10 bits (R7: IDX_W). -/
abbrev NodeIdx := BitVec 10

/-- A code, first bit first (R10). -/
abbrev Code := List Bool

/-- The number of symbol values, 0 to 256 (R7). -/
abbrev NSYM : Nat := 257

/-- The pseudo-EOF symbol value (R7, R8). -/
abbrev EOF : Nat := 256

/-- The largest total weight BUILD accepts (R7). -/
abbrev WMAX : Nat := 0xFFFFFFFF

/-- The number of arena slots, 2·NSYM − 1 (R7). -/
abbrev NODE_MAX : Nat := 513

end Sys2Proof
end

