-- ==== Sys2Proof/Syntax.lean ====
section
/-! DEFINITION. The commands of the opcode table, the registers of the host window, bus requests, the turns of the
agents, and the statements of host programs. -/

namespace Sys2Proof

/-- The commands a host can write to CMD (30_encoding.md R67): one constructor per row of the opcode table. No command
has an operand (R66). -/
inductive Instr where
  /-- FREQ_CLEAR, word 0x00000001 (R83). -/
  | freqClear
  /-- BUILD, word 0x00000002 (R85). -/
  | build
  /-- ENC_START, word 0x00000003 (R97). -/
  | encStart
  /-- DEC_START, word 0x00000004 (R104). -/
  | decStart
  /-- ABORT, word 0x00000005 (R77). -/
  | abort
  deriving DecidableEq, Repr

/-- The registers of the host window (10_state.md R16). -/
inductive Reg where
  | id | config | cmd | status | err | irqStatus | irqEnable
  | nleaf | root | total
  | encSymcnt | encBitcnt | decSymcnt | decBitcnt
  | decNode | codeSel | codeLen
  | codeBits (j : Fin 8)
  /-- FREQ[s] for a byte value s. -/
  | freq (s : Fin 256)
  /-- FREQ[256], the hardwired entry of the pseudo-EOF symbol (R33). -/
  | freqEof
  | nodeInfo (i : Fin NODE_MAX)
  | nodeWeight (i : Fin NODE_MAX)
  /-- An offset the map marks reserved (20_memory.md R51). -/
  | reserved
  deriving DecidableEq, Repr

/-- A request on the host bus (20_memory.md R49): offset, size in bytes, direction, write data. -/
structure BusReq where
  off   : BitVec 14
  size  : Nat
  write : Bool
  wdata : Word
  deriving DecidableEq, Repr

/-- The answer to a bus request (20_memory.md R49). -/
structure BusResp where
  rdata : Word
  err   : Bool
  deriving DecidableEq, Repr

/-- One turn: the agent of 00_scope.md R6 that gets the next chance to step and, for an agent outside the block, what it
does with it; or the host program, whose next statement names its agent (30_encoding.md R73). -/
inductive Turn where
  /-- HOST issues a bus request (R49). -/
  | host (r : BusReq)
  /-- BUILDER (R86). -/
  | builder
  /-- ENCODER: whichever of its steps is enabled (R99, R100, R101). -/
  | encoder
  /-- DECODER: whichever of its steps is enabled (R107 to R110). -/
  | decoder
  /-- SYM_SRC offers a 9-bit value on `s_sym` (R98). -/
  | symSrc (d : Sym)
  /-- BIT_SNK is ready on `m_bit` (R102). -/
  | bitSnk
  /-- BIT_SRC offers a bit on `s_bit` (R105). -/
  | bitSrc (b : Bool)
  /-- BIT_SRC drives the level `s_bit_end` (R106). -/
  | bitEnd (level : Bool)
  /-- The level `s_bit_end` is latched into IN_END (R106). -/
  | latchEnd
  /-- SYM_SNK is ready on `m_sym` (R111). -/
  | symSnk
  /-- RESET (70_reset_and_hazards.md R127). -/
  | reset
  /-- The next statement of the host program (30_encoding.md R73). -/
  | prog
  deriving DecidableEq, Repr

/-- The primitive statements of a host program (30_encoding.md R73), and `WAIT` (R74), which is a loop of reads and so
is no abbreviation of finitely many of them. -/
inductive Stmt where
  /-- `WR off, v`. -/
  | wr (off : BitVec 14) (v : Word)
  /-- `RD off`. -/
  | rd (off : BitVec 14)
  /-- `RD off == v`: the read, and the value the program expects. -/
  | rdExpect (off : BitVec 14) (v : Word)
  /-- `SYM s`. -/
  | sym (s : Sym)
  /-- `BIT b`. -/
  | bit (b : Bool)
  /-- `END`. -/
  | endOfBits
  /-- `TAKEBIT`. -/
  | takeBit
  /-- `TAKESYM`. -/
  | takeSym
  /-- `RESET`. -/
  | reset
  /-- `WAIT off, mask, v`: repeat `RD off` until `(value AND mask) = v`. -/
  | wait (off : BitVec 14) (mask v : Word)
  deriving DecidableEq, Repr

end Sys2Proof
end

