-- ==== Sys2Proof/WellFormed.lean ====
section
/-! DEFINITION. The checks on what the outside hands the block. A command has no operand, so every command is well
formed; a bus request is well formed when the bus serves it; a 9-bit value is a symbol up to 256. -/

namespace Sys2Proof

/-- A command has no operand that could be out of range (30_encoding.md R66). -/
def Instr.wf : Instr → Bool
  | .freqClear => true
  | .build => true
  | .encStart => true
  | .decStart => true
  | .abort => true

/-- The bus serves a request of 4 bytes at an offset that is a multiple of 4, and no other (20_memory.md R49, R58). -/
def BusReq.wf (r : BusReq) : Bool :=
  decide (r.size = 4) && decide (r.off.toNat % 4 = 0)

/-- The 9-bit values 0 to 256 are symbols, 257 to 511 are not (00_scope.md R8). -/
def isSymbol (d : Sym) : Bool := decide (d.toNat < NSYM)

end Sys2Proof
end

