-- ==== Sys2Proof/Decode.lean ====
section
/-! DEFINITION. Decoding of command words and of register offsets, and the encoders beside them (30_encoding.md R66 to
R69, 10_state.md R16). -/

namespace Sys2Proof

/-- Why a word is no command (30_encoding.md R68). -/
inductive DecodeError where
  /-- Bits [31:8] are not all 0. -/
  | reservedBits
  /-- OP is 0x00 or one of 0x06 to 0xFF. -/
  | illegalOpcode
  deriving DecidableEq, Repr

/-- The field OP, bits [7:0] (R66). -/
def opField (w : Word) : BitVec 8 := w.extractLsb' 0 8

/-- The field RSV, bits [31:8] (R66). -/
def rsvField (w : Word) : BitVec 24 := w.extractLsb' 8 24

/-- The command a word stands for (R67, R68). It does not depend on the mode (R69). -/
def decode (w : Word) : Except DecodeError Instr :=
  if rsvField w ≠ 0 then .error .reservedBits
  else if opField w = 0x01 then .ok .freqClear
  else if opField w = 0x02 then .ok .build
  else if opField w = 0x03 then .ok .encStart
  else if opField w = 0x04 then .ok .decStart
  else if opField w = 0x05 then .ok .abort
  else .error .illegalOpcode

/-- The opcode of a command (R67). -/
def opcode : Instr → BitVec 8
  | .freqClear => 0x01
  | .build => 0x02
  | .encStart => 0x03
  | .decStart => 0x04
  | .abort => 0x05

/-- The word of a command: OP in bits [7:0], 0 in bits [31:8] (R66). -/
def encode (i : Instr) : Word := (0 : BitVec 24) ++ opcode i

/-- The instruction the decoder reads from an instruction whose bits are w, of which nbits are given by the table and
the rest are 0. A command is exactly one word (R69), so anything longer is none. -/
def decodeTableWord (nbits w : Nat) : Option Instr :=
  if w % 2 ^ nbits < 2 ^ 32 then
    match decode (BitVec.ofNat 32 (w % 2 ^ nbits)) with
    | .ok i => some i
    | .error _ => none
  else none

/-- The register at an offset of the window (10_state.md R16, 20_memory.md R51). Offsets that are no multiple of 4
never get here (R50). -/
def regAt (off : BitVec 14) : Reg :=
  let a := off.toNat
  if a = 0x000 then .id
  else if a = 0x004 then .config
  else if a = 0x008 then .cmd
  else if a = 0x00C then .status
  else if a = 0x010 then .err
  else if a = 0x014 then .irqStatus
  else if a = 0x018 then .irqEnable
  else if a = 0x01C then .nleaf
  else if a = 0x020 then .root
  else if a = 0x024 then .total
  else if a = 0x028 then .encSymcnt
  else if a = 0x02C then .encBitcnt
  else if a = 0x030 then .decSymcnt
  else if a = 0x034 then .decBitcnt
  else if a = 0x038 then .decNode
  else if a = 0x03C then .codeSel
  else if a = 0x040 then .codeLen
  else if h : 0x044 ≤ a ∧ a < 0x064 then .codeBits ⟨(a - 0x044) / 4, by omega⟩
  else if h : 0x800 ≤ a ∧ a < 0xC00 then .freq ⟨(a - 0x800) / 4, by omega⟩
  else if a = 0xC00 then .freqEof
  else if h : 0x1000 ≤ a ∧ a < 0x1804 then .nodeInfo ⟨(a - 0x1000) / 4, by simp only [NODE_MAX]; omega⟩
  else if h : 0x2000 ≤ a ∧ a < 0x2804 then .nodeWeight ⟨(a - 0x2000) / 4, by simp only [NODE_MAX]; omega⟩
  else .reserved

/-- The offset of a register (10_state.md R16); for the reserved offsets, one of them. -/
def Reg.offset : Reg → BitVec 14
  | .id => 0x000
  | .config => 0x004
  | .cmd => 0x008
  | .status => 0x00C
  | .err => 0x010
  | .irqStatus => 0x014
  | .irqEnable => 0x018
  | .nleaf => 0x01C
  | .root => 0x020
  | .total => 0x024
  | .encSymcnt => 0x028
  | .encBitcnt => 0x02C
  | .decSymcnt => 0x030
  | .decBitcnt => 0x034
  | .decNode => 0x038
  | .codeSel => 0x03C
  | .codeLen => 0x040
  | .codeBits j => BitVec.ofNat 14 (0x044 + 4 * j.val)
  | .freq s => BitVec.ofNat 14 (0x800 + 4 * s.val)
  | .freqEof => 0xC00
  | .nodeInfo i => BitVec.ofNat 14 (0x1000 + 4 * i.val)
  | .nodeWeight i => BitVec.ofNat 14 (0x2000 + 4 * i.val)
  | .reserved => 0x064

end Sys2Proof
end

