-- ==== Sys2Proof/Config.lean ====
section
/-! DEFINITION. What a build of the block fixes and the spec leaves open: the four queue depths (00_scope.md R7,
92_eei_decisions.md D9), constants without a body. -/

namespace Sys2Proof

/-- A queue depth: any number from 1 to 255 (R7), held as the number below it, so that no other value can be written. -/
structure Depth where
  below : Fin 255
  deriving DecidableEq, Repr, Inhabited

/-- The capacity a depth stands for, 1 to 255. -/
def Depth.cap (d : Depth) : Nat := d.below.val + 1

/-- The capacities of the four queues of 10_state.md R41, shown in CONFIG (R18). -/
structure Depths where
  symIn  : Depth
  bitOut : Depth
  bitIn  : Depth
  symOut : Depth
  deriving DecidableEq, Repr, Inhabited

/-- The depths of the build at hand: open (R7), so nothing is known of them. Log entry 8. -/
opaque Config.depths : Depths

end Sys2Proof
end

