-- ==== Sys2Proof/Machine/State.lean ====
section
/-! DEFINITION. The state of the block (10_state.md), the state of what stands around it, and the state after reset. -/

namespace Sys2Proof.Machine

/-- The top-level state STATUS.MODE (10_state.md R21). -/
inductive Mode where
  | idle | building | ready | encoding | decoding | encDone | decDone | error
  deriving DecidableEq, Repr

/-- The error codes of ERR.CODE that are ever held (60_exceptions.md R114); the codes 6 to 15 are never raised. -/
inductive ErrCode where
  | none | illegalCmd | badState | weightOvf | badSymbol | truncated
  deriving DecidableEq, Repr

/-- The four interrupt sources (60_exceptions.md R120). -/
inductive IrqSource where
  | buildDone | encDone | decDone | error
  deriving DecidableEq, Repr

/-- A slot of the node arena (10_state.md R34): a leaf has a symbol and a weight, an internal node two children and a
weight. DEDUCED (log 5, safe): SYM of an internal node and ZERO and ONE of a leaf are read by no rule, so they are not
held. -/
inductive Node where
  | leaf (sym : Sym) (w : Word)
  | internal (zero one : NodeIdx) (w : Word)
  deriving DecidableEq, Repr

/-- The tree, its summary and the code table (10_state.md R34, R37, R38). -/
structure Tree where
  /-- TREE_VALID. -/
  valid : Bool
  /-- NLEAF_R. -/
  nleaf : BitVec 10
  /-- ROOT_R. -/
  root  : NodeIdx
  /-- NODE[0..512]. -/
  node  : Vector Node NODE_MAX
  /-- CODE[s] for s = 0 to 256; none where the block holds no entry (42_tree_build.md R93). -/
  code  : Vector (Option Code) NSYM
  deriving DecidableEq, Repr

/-- The error record ERR (10_state.md R22). -/
structure ErrRec where
  code : ErrCode
  info : BitVec 16
  deriving DecidableEq, Repr

/-- Encoder state (10_state.md R39). -/
structure EncState where
  /-- ENC_SR: the bits of the current code not yet emitted. -/
  sr    : Code
  /-- ENC_FINAL: the code loaded last is EOF's. -/
  final : Bool
  /-- ENC_EOF_IN: `s_sym` has accepted the symbol 256 in this session. -/
  eofIn : Bool
  deriving DecidableEq, Repr

/-- Decoder state (10_state.md R40). -/
structure DecState where
  /-- DEC_NODE. -/
  node  : NodeIdx
  /-- IN_END. -/
  inEnd : Bool
  deriving DecidableEq, Repr

/-- The four session counters (10_state.md R28). -/
structure Counters where
  encSym : Word
  encBit : Word
  decSym : Word
  decBit : Word
  deriving DecidableEq, Repr

/-- The four queues, head first (10_state.md R41). -/
structure Queues where
  symIn  : List Sym
  bitOut : List Bool
  bitIn  : List Bool
  symOut : List Byte
  deriving DecidableEq, Repr

/-- All the state the spec gives the block (10_state.md R14). -/
structure Block where
  /-- The constants behind CONFIG (R18). -/
  depths    : Depths
  /-- MODE (R21). -/
  mode      : Mode
  /-- FREQ[0..255] (R33); FREQ[256] has no storage. -/
  freq      : Vector Word 256
  tree      : Tree
  err       : ErrRec
  /-- IRQ_STATUS[3:0] (R23). -/
  irqStatus : BitVec 4
  /-- IRQ_ENABLE[3:0] (R24). -/
  irqEnable : BitVec 4
  /-- CODE_SEL.SEL (R30). -/
  codeSel   : Sym
  enc       : EncState
  dec       : DecState
  cnt       : Counters
  q         : Queues
  deriving DecidableEq, Repr

/-- What stands around the block: the model's own, not the spec's (log 1, 2, 9, 15). -/
structure Env where
  /-- The turns to come, the next one first. -/
  turns     : List Turn
  /-- What is left of a host program (30_encoding.md R73). -/
  prog      : List Stmt
  /-- The bus answers given so far, the oldest first. -/
  answers   : List BusResp
  /-- The level BIT_SRC drives on `s_bit_end`. -/
  bitEnd    : Bool
  /-- The values transferred on `s_sym` so far. -/
  symTaken  : List Sym
  /-- The bits delivered on `m_bit` so far. -/
  bitsOut   : List Bool
  /-- The bits transferred on `s_bit` so far. -/
  bitsTaken : List Bool
  /-- The symbols delivered on `m_sym` so far. -/
  symsOut   : List Byte
  deriving DecidableEq, Repr

/-- The state of the machine: the block, and what stands around it. -/
structure State where
  blk : Block
  env : Env
  deriving DecidableEq, Repr

/-- No step of the block stops it: its errors are next states (60_exceptions.md R115) and a bus error is an answer
(20_memory.md R50). So there is no fault. Log entry 10. -/
inductive Fault
  deriving DecidableEq, Repr

/-- Why the model would not give an instruction a meaning. -/
inductive Refusal where
  /-- Raised by an arm of exec whose instruction has no meaning yet (none is left). Safe: the run stops. -/
  | notModelled (mnemonic : String)
  deriving DecidableEq, Repr

/-- What a step answers. -/
abbrev Result := Host.Outcome State Fault Refusal

/-- The state of the block after the reset step (10_state.md R46). DESIGN CHOICE (log 4, unsafe): NLEAF_R, ROOT_R,
NODE and CODE are unspecified and unobservable there; the model holds zeros, leaves of symbol 0, and no codes. -/
def Block.reset (d : Depths) : Block where
  depths := d
  mode := .idle
  freq := Vector.replicate 256 0
  tree :=
    { valid := false, nleaf := 0, root := 0
      node := Vector.replicate NODE_MAX (.leaf 0 0)
      code := Vector.replicate NSYM none }
  err := ⟨.none, 0⟩
  irqStatus := 0
  irqEnable := 0
  codeSel := 0
  enc := ⟨[], false, false⟩
  dec := ⟨0, false⟩
  cnt := ⟨0, 0, 0, 0⟩
  q := ⟨[], [], [], []⟩

/-- Nothing to come and nothing yet transferred; `s_bit_end` low. DESIGN CHOICE (log 9, unsafe). -/
def Env.empty : Env where
  turns := []
  prog := []
  answers := []
  bitEnd := false
  symTaken := []
  bitsOut := []
  bitsTaken := []
  symsOut := []

/-- The machine right after reset (10_state.md R46), with the build's own queue depths. -/
def State.reset : State where
  blk := Block.reset Config.depths
  env := Env.empty

end Sys2Proof.Machine
end

