-- ==== Sys2Proof/Machine/Ops.lean ====
section
/-! DEFINITION. The operations the rules share: the frequency table, the arena and the code table, the queues, raising
an error and leaving it, and the check a command goes through. -/

namespace Sys2Proof.Machine

/-! ### State around the block -/

/-- The state with another block. -/
def State.withBlk (s : State) (b : Block) : State := { s with blk := b }

/-- The state with the turns still to come replaced. -/
def State.withTurns (s : State) (ts : List Turn) : State := { s with env := { s.env with turns := ts } }

/-- The state with the rest of the host program replaced. -/
def State.withProg (s : State) (p : List Stmt) : State := { s with env := { s.env with prog := p } }

/-- A bus answer is given (20_memory.md R49). -/
def State.answer (s : State) (rdata : Word) (err : Bool) : State :=
  { s with env := { s.env with answers := s.env.answers ++ [⟨rdata, err⟩] } }

/-! ### The frequency table -/

/-- FREQ[s] for s = 0 to 256: FREQ[256] is hardwired to 1 (10_state.md R33, 41_freq_table.md R82). -/
def freqAt (f : Vector Word 256) (s : Nat) : Word :=
  if s = EOF then 1 else f[s]?.getD 0

/-- FREQ[0] + … + FREQ[255] + 1 as an exact natural number (42_tree_build.md R87). -/
def freqTotal (f : Vector Word 256) : Nat :=
  ((List.range 256).map fun s => (freqAt f s).toNat).sum + 1

/-! ### The arena and the code table -/

/-- NODE[i]; none for the indices 513 to 1023, where there is no slot (10_state.md R34). DEDUCED (log 6, safe): no
reachable state reads such an index. -/
def Tree.nodeAt (t : Tree) (i : NodeIdx) : Option Node := t.node[i.toNat]?

/-- The weight of a node, leaf or internal (10_state.md R34). -/
def Node.weight : Node → Word
  | .leaf _ w => w
  | .internal _ _ w => w

/-- The symbol of a leaf. -/
def Node.symOf : Node → Option Sym
  | .leaf s _ => some s
  | .internal _ _ _ => none

/-- INTREE(s): a valid tree has a leaf of symbol s at an index below NLEAF_R (10_state.md R37). -/
def Tree.inTree (t : Tree) (s : Sym) : Bool :=
  t.valid && (List.range t.nleaf.toNat).any fun i => decide ((t.node[i]? >>= Node.symOf) = some s)

/-- CODE[s] (10_state.md R38). DEDUCED (log 7, safe): where the block holds no entry, which no rule reads, ε. -/
def Tree.codeOf (t : Tree) (s : Sym) : Code := (t.code[s.toNat]?.getD none).getD []

/-- The arena index i is one of the tree's, 0 to 2·NLEAF_R − 2 (10_state.md R34, R35). -/
def Tree.inArena (t : Tree) (i : Nat) : Bool := decide (i + 2 ≤ 2 * t.nleaf.toNat)

/-! ### The queues (00_scope.md R11, 10_state.md R41) -/

/-- `Q.full`. -/
def qFull {α : Type} (d : Depth) (q : List α) : Bool := decide (d.cap ≤ q.length)

/-- `Q.push(v)`: append at the tail. -/
def qPush {α : Type} (q : List α) (v : α) : List α := q ++ [v]

/-! ### The interrupt flags -/

/-- The IRQ_STATUS bit of a source (60_exceptions.md R120). -/
def IrqSource.mask : IrqSource → BitVec 4
  | .buildDone => 0b0001
  | .encDone => 0b0010
  | .decDone => 0b0100
  | .error => 0b1000

/-- IRQ_STATUS with the bit of a source set; the other bits stay (10_state.md R23). -/
def setIrq (v : BitVec 4) (src : IrqSource) : BitVec 4 := v ||| src.mask

/-! ### Errors -/

/-- `raise Error(code, info)` (60_exceptions.md R115): ERR, MODE and IRQ_STATUS.ERROR are written, nothing else. -/
def Block.raise (b : Block) (code : ErrCode) (info : BitVec 16) : Block :=
  { b with
    err := ⟨code, info⟩
    mode := .error
    irqStatus := setIrq b.irqStatus .error }

/-- The way back from an error short of reset (60_exceptions.md R118), and the effect of ABORT in every mode
(40_command.md R77). -/
def Block.abort (b : Block) : Block :=
  { b with
    mode := .idle
    tree := { b.tree with valid := false }
    err := ⟨.none, 0⟩
    enc := ⟨[], false, false⟩
    dec := ⟨0, false⟩
    q := ⟨[], [], [], []⟩ }

/-- An illegal word is written to CMD (40_command.md R75, R76): ILLEGAL_CMD with the word's bits [15:0], but nothing
in ERROR. -/
def Block.illegalCmd (b : Block) (w : Word) : Block :=
  if b.mode = .error then b else b.raise .illegalCmd (w.extractLsb' 0 16)

/-- The checks of a legal command other than ABORT (40_command.md R75): ignored in ERROR, BAD_STATE with the opcode in
a mode that does not permit it, else its effect. -/
def Block.command (b : Block) (op : BitVec 8) (permitted : List Mode) (effect : Block → Block) : Block :=
  if b.mode = .error then b
  else if b.mode ∈ permitted then effect b
  else b.raise .badState (op.setWidth 16)

/-- TREE_VALID ← 0 and MODE ← IDLE: what a change of the frequency table does (41_freq_table.md R81, R83). -/
def Block.dropTree (b : Block) : Block :=
  { b with tree := { b.tree with valid := false }, mode := .idle }

/-- The modes that permit FREQ_CLEAR and BUILD (30_encoding.md R67). -/
def restingModes : List Mode := [.idle, .ready, .encDone, .decDone]

/-- The mode that permits ENC_START and DEC_START (30_encoding.md R67). -/
def startModes : List Mode := [.ready]

end Sys2Proof.Machine
end

