-- ==== Sys2Proof/Machine/Operands.lean ====
section
/-! DEFINITION. The fields of the words a host writes and the information words of errors (30_encoding.md R70,
60_exceptions.md R114). -/

namespace Sys2Proof.Machine

/-- The clear mask of an IRQ_STATUS write and the enable mask of an IRQ_ENABLE write, `wdata[3:0]` (R70). -/
def irqMask (w : Word) : BitVec 4 := w.extractLsb' 0 4

/-- The selector of a CODE_SEL write, `wdata[8:0]` (R70). -/
def selector (w : Word) : Sym := w.extractLsb' 0 9

/-- ERR.INFO of a rejected FREQ[s] write, `0x8000 OR s` (R114). -/
def freqInfo (s : Fin 256) : BitVec 16 := 0x8000 ||| BitVec.ofNat 16 s.val

/-- ERR.INFO of BAD_SYMBOL: the 9-bit value, zero-extended (R114). -/
def symInfo (s : Sym) : BitVec 16 := s.setWidth 16

/-- ERR.INFO of TRUNCATED: DEC_NODE, zero-extended (R114, 44_decoder.md R110). -/
def nodeInfo16 (i : NodeIdx) : BitVec 16 := i.setWidth 16

/-- The byte of a leaf's symbol, `SYM[7:0]` (44_decoder.md R108). -/
def symByte (s : Sym) : Byte := s.extractLsb' 0 8

end Sys2Proof.Machine
end

