-- ==== Sys2Proof/Machine/Flags.lean ====
section
/-! DEFINITION. The words of the readable registers, the `irq` output and the block's side of the ports
(10_state.md R17 to R36, R43, R44). -/

namespace Sys2Proof.Machine

/-- The value of MODE (10_state.md R21). -/
def Mode.bits : Mode → BitVec 3
  | .idle => 0
  | .building => 1
  | .ready => 2
  | .encoding => 3
  | .decoding => 4
  | .encDone => 5
  | .decDone => 6
  | .error => 7

/-- The value of ERR.CODE (60_exceptions.md R114). -/
def ErrCode.bits : ErrCode → BitVec 4
  | .none => 0
  | .illegalCmd => 1
  | .badState => 2
  | .weightOvf => 3
  | .badSymbol => 4
  | .truncated => 5

/-- A truth value as one bit. -/
def bit1 (b : Bool) : BitVec 1 := BitVec.ofBool b

/-- CONFIG (R18). -/
def Block.configWord (b : Block) : Word :=
  BitVec.ofNat 8 b.depths.symOut.cap ++ BitVec.ofNat 8 b.depths.bitIn.cap ++
    BitVec.ofNat 8 b.depths.bitOut.cap ++ BitVec.ofNat 8 b.depths.symIn.cap

/-- STATUS (R20), from bit 31 down. -/
def Block.statusWord (b : Block) : Word :=
  (0 : BitVec 21) ++ bit1 b.enc.sr.isEmpty ++
    bit1 b.q.symOut.isEmpty ++ bit1 b.q.bitIn.isEmpty ++ bit1 b.q.bitOut.isEmpty ++ bit1 b.q.symIn.isEmpty ++
    bit1 b.dec.inEnd ++ bit1 b.enc.eofIn ++ bit1 b.tree.valid ++ b.mode.bits

/-- ERR (R22). -/
def Block.errWord (b : Block) : Word := b.err.info ++ (0 : BitVec 12) ++ b.err.code.bits

/-- NLEAF, gated by TREE_VALID (R25). -/
def Block.nleafWord (b : Block) : Word := if b.tree.valid then b.tree.nleaf.setWidth 32 else 0

/-- ROOT, gated by TREE_VALID (R26). -/
def Block.rootWord (b : Block) : Word := if b.tree.valid then b.tree.root.setWidth 32 else 0

/-- TOTAL, the root's weight, gated by TREE_VALID (R27). -/
def Block.totalWord (b : Block) : Word :=
  if b.tree.valid then ((b.tree.nodeAt b.tree.root).map Node.weight).getD 0 else 0

/-- CODE_LEN of the selected symbol (R31). -/
def Block.codeLenWord (b : Block) : Word :=
  if b.tree.inTree b.codeSel then
    (1 : BitVec 1) ++ (0 : BitVec 22) ++ BitVec.ofNat 9 (b.tree.codeOf b.codeSel).length
  else 0

/-- 32 bits of a code from bit `32·j` on, the first of them in bit 31, 0 beyond the code's end (R32). -/
def codeWord (p : Code) (j : Nat) : Word :=
  (List.range 32).foldl (fun acc t => (acc <<< 1) ||| (bit1 (p[32 * j + t]?.getD false)).setWidth 32) 0

/-- CODE_BITS[j] of the selected symbol (R32). -/
def Block.codeBitsWord (b : Block) (j : Fin 8) : Word :=
  if b.tree.inTree b.codeSel then codeWord (b.tree.codeOf b.codeSel) j.val else 0

/-- The NODE_INFO word of a node (30_encoding.md R72). -/
def Node.infoWord : Node → Word
  | .leaf s _ => (1 : BitVec 1) ++ (0 : BitVec 22) ++ s
  | .internal zero one _ => (0 : BitVec 6) ++ one ++ (0 : BitVec 6) ++ zero

/-- A readback of slot i, 0 unless the tree is valid and i is one of its indices (R35, R36). -/
def Block.slotWord (b : Block) (i : Fin NODE_MAX) (view : Node → Word) : Word :=
  if b.tree.valid && b.tree.inArena i.val then view b.tree.node[i] else 0

/-- What a read of a register returns (20_memory.md R49, R51, R53). -/
def Block.readReg (b : Block) : Reg → Word
  | .id => 0x48425343
  | .config => b.configWord
  | .cmd => 0
  | .status => b.statusWord
  | .err => b.errWord
  | .irqStatus => b.irqStatus.setWidth 32
  | .irqEnable => b.irqEnable.setWidth 32
  | .nleaf => b.nleafWord
  | .root => b.rootWord
  | .total => b.totalWord
  | .encSymcnt => b.cnt.encSym
  | .encBitcnt => b.cnt.encBit
  | .decSymcnt => b.cnt.decSym
  | .decBitcnt => b.cnt.decBit
  | .decNode => b.dec.node.setWidth 32
  | .codeSel => b.codeSel.setWidth 32
  | .codeLen => b.codeLenWord
  | .codeBits j => b.codeBitsWord j
  | .freq s => freqAt b.freq s.val
  | .freqEof => freqAt b.freq EOF
  | .nodeInfo i => b.slotWord i Node.infoWord
  | .nodeWeight i => b.slotWord i Node.weight
  | .reserved => 0

/-- The level output `irq` (R44). -/
def Block.irq (b : Block) : Bool := decide (b.irqStatus &&& b.irqEnable ≠ 0)

/-- `s_sym.ready` (43_encoder.md R98). -/
def Block.symReady (b : Block) : Bool :=
  decide (b.mode = .encoding) && !b.enc.eofIn && !qFull b.depths.symIn b.q.symIn

/-- `m_bit.valid` (43_encoder.md R102). -/
def Block.bitValid (b : Block) : Bool := !b.q.bitOut.isEmpty

/-- `s_bit.ready` (44_decoder.md R105). -/
def Block.bitReady (b : Block) : Bool :=
  decide (b.mode = .decoding) && !b.dec.inEnd && !qFull b.depths.bitIn b.q.bitIn

/-- `m_sym.valid` (44_decoder.md R111). -/
def Block.symValid (b : Block) : Bool := !b.q.symOut.isEmpty

end Sys2Proof.Machine
end

