-- ==== Sys2Proof/Machine/Build.lean ====
section
/-! DEFINITION. BUILD and the BUILDER step: the Huffman tree and the code table as a function of the frequency table
(42_tree_build.md). -/

namespace Sys2Proof.Machine

/-! ### The tree as a function of the frequency table (R88 to R93) -/

/-- The present symbols in ascending order, EOF last (R88). -/
def leafSyms (f : Vector Word 256) : List Nat :=
  (List.range NSYM).filter fun s => decide (freqAt f s ≠ 0)

/-- The leaves NODE[0 .. n−1] (R88). -/
def leafNodes (f : Vector Word 256) : List Node :=
  (leafSyms f).map fun s => .leaf (BitVec.ofNat 9 s) (freqAt f s)

/-- The weight of the node at an index of the arena under construction. -/
def weightAt (ns : List Node) (j : Nat) : Nat := ((ns[j]?.map Node.weight).getD 0).toNat

/-- The key (NODE[i].W, i) is lexicographically smaller than (NODE[j].W, j) (R89). -/
def keyLt (ns : List Node) (i j : Nat) : Bool :=
  decide (weightAt ns i < weightAt ns j ∨ (weightAt ns i = weightAt ns j ∧ i < j))

/-- The index in `j :: q` with the smallest key (R89). -/
def argmin (ns : List Node) (j : Nat) : List Nat → Nat
  | [] => j
  | i :: q => argmin ns (if keyLt ns i j then i else j) q

/-- The node extracted first from a queue, and the queue without it (R89). -/
def extract (ns : List Node) : List Nat → Option (Nat × List Nat)
  | [] => none
  | j :: q => some (argmin ns j q, (j :: q).erase (argmin ns j q))

/-- The internal node made from the two extracted indices: the first is the zero-branch, the second the one-branch, the
weight is the sum (R90). -/
def mergeNode (ns : List Node) (x y : Nat) : Node :=
  .internal (BitVec.ofNat 10 x) (BitVec.ofNat 10 y) (BitVec.ofNat 32 (weightAt ns x + weightAt ns y))

/-- The merging loop (R90): the arena so far, whose length is the next free index, and the queue. Each round takes two
nodes out of the queue and puts one in, so a queue of n nodes needs n − 1 rounds (log 13). -/
def mergeLoop : Nat → List Node → List Nat → List Node × List Nat
  | 0, ns, q => (ns, q)
  | fuel + 1, ns, q =>
    match extract ns q with
    | none => (ns, q)
    | some (x, q₁) =>
      match extract ns q₁ with
      | none => (ns, q)
      | some (y, q₂) => mergeLoop fuel (ns ++ [mergeNode ns x y]) (q₂ ++ [ns.length])

/-- The walk of R93: the leaves below node i with the codes accumulated from the root. The fuel bounds the depth, which
is below the number of nodes (log 13). -/
def walk (ns : List Node) : Nat → Nat → Code → List (Sym × Code)
  | 0, _, _ => []
  | fuel + 1, i, p =>
    match ns[i]? with
    | none => []
    | some (.leaf s _) => [(s, p)]
    | some (.internal zero one _) =>
      walk ns fuel zero.toNat (p ++ [false]) ++ walk ns fuel one.toNat (p ++ [true])

/-- What a build makes of a frequency table. -/
structure Built where
  /-- n, the number of leaves. -/
  n     : Nat
  /-- NODE[0 .. 2n−2]. -/
  nodes : List Node
  /-- The root's index. -/
  root  : Nat
  /-- The symbols with their codes. -/
  codes : List (Sym × Code)
  deriving DecidableEq, Repr

/-- The tree and the codes of a frequency table (R88, R90, R91, R93). -/
def buildTree (f : Vector Word 256) : Built :=
  let leaves := leafNodes f
  let m := mergeLoop leaves.length leaves (List.range leaves.length)
  let root := m.2.headD 0
  { n := leaves.length, nodes := m.1, root := root, codes := walk m.1 m.1.length root [] }

/-! ### Writing it into the block -/

/-- Write a list of nodes into the arena from slot k on; the slots above keep what they hold.
DESIGN CHOICE (log 17): 10_state.md R34 gives those no defined value. -/
def writeArena (k : Nat) : List Node → Vector Node NODE_MAX → Vector Node NODE_MAX
  | [], a => a
  | x :: xs, a => writeArena (k + 1) xs (a.setIfInBounds k x)

/-- Record the codes the walk gives (R93). -/
def writeCodes : List (Sym × Code) → Vector (Option Code) NSYM → Vector (Option Code) NSYM
  | [], c => c
  | (s, p) :: xs, c => writeCodes xs (c.setIfInBounds s.toNat (some p))

/-- The block's tree state after a successful build (R86). Symbols that are not in the tree get no entry (R93). -/
def Built.toTree (r : Built) (old : Vector Node NODE_MAX) : Tree where
  valid := true
  nleaf := BitVec.ofNat 10 r.n
  root := BitVec.ofNat 10 r.root
  node := writeArena 0 r.nodes old
  code := writeCodes r.codes (Vector.replicate NSYM none)

/-- The BUILDER step (R86, R87); none when it is not enabled. -/
def Block.builderStep (b : Block) : Option Block :=
  if b.mode = .building then
    if WMAX < freqTotal b.freq then some (b.raise .weightOvf 0)
    else some { b with
      tree := (buildTree b.freq).toTree b.tree.node
      mode := .ready
      irqStatus := setIrq b.irqStatus .buildDone }
  else none

/-- TREE_VALID ← 0 and MODE ← BUILDING (R85). -/
def Block.startBuild (b : Block) : Block :=
  { b with tree := { b.tree with valid := false }, mode := .building }

/-- BUILD (R85), after the checks of 40_command.md R75. -/
def execBuild (s : State) : Result :=
  .next (s.withBlk (s.blk.command (opcode .build) restingModes Block.startBuild))

end Sys2Proof.Machine
end

