-- ==== Sys2Proof/Machine/Control.lean ====
section
/-! DEFINITION. ABORT and the three control-register writes (40_command.md R77 to R80). -/

namespace Sys2Proof.Machine

/-- ABORT (R77): permitted in every mode, ERROR included (R75). -/
def execAbort (s : State) : Result := .next (s.withBlk s.blk.abort)

/-- A write of IRQ_STATUS (R78): a 1 clears its bit. -/
def Block.writeIrqStatus (b : Block) (w : Word) : Block :=
  { b with irqStatus := b.irqStatus &&& ~~~ irqMask w }

/-- A write of IRQ_ENABLE (R79). -/
def Block.writeIrqEnable (b : Block) (w : Word) : Block := { b with irqEnable := irqMask w }

/-- A write of CODE_SEL (R80). -/
def Block.writeCodeSel (b : Block) (w : Word) : Block := { b with codeSel := selector w }

end Sys2Proof.Machine
end

