-- ==== Sys2Proof/Machine/Decoder.lean ====
section
/-! DEFINITION. DEC_START, the decoder's steps, the ports `s_bit` and `m_sym` and the end signal (44_decoder.md). A
step answers none when it is not enabled. -/

namespace Sys2Proof.Machine

/-- The effect of DEC_START (R104). SYMQ_OUT is not cleared. -/
def Block.startDecode (b : Block) : Block :=
  { b with
    q := { b.q with bitIn := [] }
    dec := ⟨b.tree.root, false⟩
    cnt := { b.cnt with decSym := 0, decBit := 0 }
    mode := .decoding }

/-- DEC_START (R104), after the checks of 40_command.md R75. -/
def execDecStart (s : State) : Result :=
  .next (s.withBlk (s.blk.command (opcode .decStart) startModes Block.startDecode))

/-- A transfer of x on `s_bit` (R105). -/
def Block.takeBitIn (b : Block) (x : Bool) : Option Block :=
  if b.bitReady then some { b with q := { b.q with bitIn := qPush b.q.bitIn x } } else none

/-- The end signal is latched (R106), given the level on `s_bit_end`. -/
def Block.latchEnd (b : Block) (level : Bool) : Option Block :=
  if level = true ∧ b.mode = .decoding ∧ b.dec.inEnd = false then
    some { b with dec := { b.dec with inEnd := true } }
  else none

/-- The node the decoder stands at, while it runs. -/
def Block.decAt (b : Block) : Option Node :=
  if b.mode = .decoding then b.tree.nodeAt b.dec.node else none

/-- The descend step (R107). -/
def Block.decDescend (b : Block) : Option Block :=
  match b.decAt, b.q.bitIn with
  | some (.internal zero one _), x :: rest =>
    some { b with
      q := { b.q with bitIn := rest }
      dec := { b.dec with node := if x then one else zero }
      cnt := { b.cnt with decBit := b.cnt.decBit + 1 } }
  | _, _ => none

/-- The emit step (R108). -/
def Block.decEmit (b : Block) : Option Block :=
  match b.decAt with
  | some (.leaf s _) =>
    if s.toNat ≠ EOF ∧ qFull b.depths.symOut b.q.symOut = false then
      some { b with
        q := { b.q with symOut := qPush b.q.symOut (symByte s) }
        dec := { b.dec with node := b.tree.root }
        cnt := { b.cnt with decSym := b.cnt.decSym + 1 } }
    else none
  | _ => none

/-- The finish step (R109). -/
def Block.decFinish (b : Block) : Option Block :=
  match b.decAt with
  | some (.leaf s _) =>
    if s.toNat = EOF then
      some { b with mode := .decDone, irqStatus := setIrq b.irqStatus .decDone }
    else none
  | _ => none

/-- The truncation step (R110). -/
def Block.decTruncate (b : Block) : Option Block :=
  match b.decAt with
  | some (.internal _ _ _) =>
    if b.q.bitIn = [] ∧ b.dec.inEnd = true then some (b.raise .truncated (nodeInfo16 b.dec.node)) else none
  | _ => none

/-- The decoder's step: the one of the four that is enabled. -/
def Block.decoderStep (b : Block) : Option Block :=
  b.decDescend <|> b.decEmit <|> b.decFinish <|> b.decTruncate

/-- A transfer on `m_sym` (R111): the byte delivered and the block after it. -/
def Block.giveSymOut (b : Block) : Option (Byte × Block) :=
  match b.q.symOut with
  | [] => none
  | v :: rest => some (v, { b with q := { b.q with symOut := rest } })

end Sys2Proof.Machine
end

