-- ==== Sys2Proof/Machine/Encoder.lean ====
section
/-! DEFINITION. ENC_START, the encoder's steps, and the ports `s_sym` and `m_bit` (43_encoder.md). A step answers none
when it is not enabled. -/

namespace Sys2Proof.Machine

/-- The effect of ENC_START (R97). BITQ_OUT is not cleared. -/
def Block.startEncode (b : Block) : Block :=
  { b with
    q := { b.q with symIn := [] }
    enc := ⟨[], false, false⟩
    cnt := { b.cnt with encSym := 0, encBit := 0 }
    mode := .encoding }

/-- ENC_START (R97), after the checks of 40_command.md R75. -/
def execEncStart (s : State) : Result :=
  .next (s.withBlk (s.blk.command (opcode .encStart) startModes Block.startEncode))

/-- A transfer of d on `s_sym` (R98). -/
def Block.takeSymIn (b : Block) (d : Sym) : Option Block :=
  if b.symReady then
    some { b with
      q := { b.q with symIn := qPush b.q.symIn d }
      enc := { b.enc with eofIn := b.enc.eofIn || decide (d.toNat = EOF) } }
  else none

/-- The load step (R99). -/
def Block.encLoad (b : Block) : Option Block :=
  if b.mode = .encoding ∧ b.enc.sr = [] ∧ b.enc.final = false then
    match b.q.symIn with
    | [] => none
    | s :: rest =>
      let b := { b with q := { b.q with symIn := rest } }
      if b.tree.inTree s then
        if s.toNat = EOF then
          some { b with enc := { b.enc with sr := b.tree.codeOf s, final := true } }
        else
          some { b with
            enc := { b.enc with sr := b.tree.codeOf s }
            cnt := { b.cnt with encSym := b.cnt.encSym + 1 } }
      else some (b.raise .badSymbol (symInfo s))
  else none

/-- The emit step (R100). -/
def Block.encEmit (b : Block) : Option Block :=
  match b.enc.sr with
  | [] => none
  | x :: rest =>
    if b.mode = .encoding ∧ qFull b.depths.bitOut b.q.bitOut = false then
      some { b with
        q := { b.q with bitOut := qPush b.q.bitOut x }
        enc := { b.enc with sr := rest }
        cnt := { b.cnt with encBit := b.cnt.encBit + 1 } }
    else none

/-- The finish step (R101). -/
def Block.encFinish (b : Block) : Option Block :=
  if b.mode = .encoding ∧ b.enc.sr = [] ∧ b.enc.final = true then
    some { b with mode := .encDone, irqStatus := setIrq b.irqStatus .encDone }
  else none

/-- The encoder's step: the one of the three that is enabled. -/
def Block.encoderStep (b : Block) : Option Block := b.encLoad <|> b.encEmit <|> b.encFinish

/-- A transfer on `m_bit` (R102): the bit delivered and the block after it. -/
def Block.giveBitOut (b : Block) : Option (Bool × Block) :=
  match b.q.bitOut with
  | [] => none
  | x :: rest => some (x, { b with q := { b.q with bitOut := rest } })

end Sys2Proof.Machine
end

