-- ==== Sys2Proof/Machine/FreqTable.lean ====
section
/-! DEFINITION. Loading the frequency table: the write of FREQ[s] and FREQ_CLEAR (41_freq_table.md). -/

namespace Sys2Proof.Machine

/-- A write of FREQ[s], s = 0 to 255 (R81): ignored in ERROR, BAD_STATE while an engine runs, else the count is stored
and the tree is dropped. -/
def Block.writeFreq (b : Block) (s : Fin 256) (w : Word) : Block :=
  if b.mode = .error then b
  else if b.mode ∈ [Mode.building, .encoding, .decoding] then b.raise .badState (freqInfo s)
  else { b with freq := b.freq.set s.val w s.isLt }.dropTree

/-- Every count becomes 0 and the tree is dropped (R83). -/
def Block.clearFreq (b : Block) : Block := { b with freq := Vector.replicate 256 0 }.dropTree

/-- FREQ_CLEAR (R83), after the checks of 40_command.md R75. -/
def execFreqClear (s : State) : Result :=
  .next (s.withBlk (s.blk.command (opcode .freqClear) restingModes Block.clearFreq))

end Sys2Proof.Machine
end

