-- ==== Sys2Proof/Machine/Bus.lean ====
section
/-! DEFINITION. The host bus: a HOST step (20_memory.md R49 to R55). -/

namespace Sys2Proof.Machine

/-- A write of CMD (40_command.md R75): a legal word is performed, any other is illegal. -/
def cmdWrite (w : Word) (s : State) : Result :=
  match decode w with
  | .ok i => exec i s
  | .error _ => .next (s.withBlk (s.blk.illegalCmd w))

/-- An aligned 4-byte write (20_memory.md R55). Read-only registers and reserved offsets ignore it (R51, R52). -/
def regWrite (r : Reg) (w : Word) (s : State) : Result :=
  match r with
  | .cmd => cmdWrite w s
  | .irqStatus => .next (s.withBlk (s.blk.writeIrqStatus w))
  | .irqEnable => .next (s.withBlk (s.blk.writeIrqEnable w))
  | .codeSel => .next (s.withBlk (s.blk.writeCodeSel w))
  | .freq j => .next (s.withBlk (s.blk.writeFreq j w))
  | .id => .next s
  | .config => .next s
  | .status => .next s
  | .err => .next s
  | .nleaf => .next s
  | .root => .next s
  | .total => .next s
  | .encSymcnt => .next s
  | .encBitcnt => .next s
  | .decSymcnt => .next s
  | .decBitcnt => .next s
  | .decNode => .next s
  | .codeLen => .next s
  | .codeBits _ => .next s
  | .freqEof => .next s
  | .nodeInfo _ => .next s
  | .nodeWeight _ => .next s
  | .reserved => .next s

/-- The answer to a bus request (20_memory.md R49, R50): an error to a request the bus refuses, the register's word to
a read, 0 to a write. -/
def Block.busAnswer (b : Block) (r : BusReq) : BusResp :=
  if r.wf then ⟨if r.write then 0 else b.readReg (regAt r.off), false⟩ else ⟨0, true⟩

/-- One bus request (20_memory.md R49, R50, R54): it is answered, and a write that is not refused has its effect. -/
def hostStep (r : BusReq) (s : State) : Result :=
  let a := s.blk.busAnswer r
  if r.wf && r.write then regWrite (regAt r.off) r.wdata (s.answer a.rdata a.err)
  else .next (s.answer a.rdata a.err)

end Sys2Proof.Machine
end

