-- ==== Sys2Proof/Machine/Agents.lean ====
section
/-! DEFINITION. One turn of each agent (00_scope.md R6), and the step that goes on when no turn is left. -/

namespace Sys2Proof.Machine

/-- The reset step (70_reset_and_hazards.md R127): only the constants of the build survive. -/
def State.resetBlk (s : State) : State := s.withBlk (Block.reset s.blk.depths)

/-- A turn of SYM_SRC: the value is transferred, or refused (R98). -/
def symSrcTurn (d : Sym) (s : State) : Option State :=
  (s.blk.takeSymIn d).map fun b => { s with blk := b, env := { s.env with symTaken := s.env.symTaken ++ [d] } }

/-- A turn of BIT_SNK (R102). -/
def bitSnkTurn (s : State) : Option State :=
  s.blk.giveBitOut.map fun p => { s with blk := p.2, env := { s.env with bitsOut := s.env.bitsOut ++ [p.1] } }

/-- A turn of BIT_SRC that offers a bit (R105). -/
def bitSrcTurn (x : Bool) (s : State) : Option State :=
  (s.blk.takeBitIn x).map fun b => { s with blk := b, env := { s.env with bitsTaken := s.env.bitsTaken ++ [x] } }

/-- The level on `s_bit_end` is latched (R106). -/
def latchTurn (s : State) : Option State := (s.blk.latchEnd s.env.bitEnd).map s.withBlk

/-- A turn of SYM_SNK (R111). -/
def symSnkTurn (s : State) : Option State :=
  s.blk.giveSymOut.map fun p => { s with blk := p.2, env := { s.env with symsOut := s.env.symsOut ++ [p.1] } }

/-- What an agent's turn does; none when the agent has no enabled step (R5). The program is no agent: its turn is that of
the agent its next statement names (30_encoding.md R73), and comes below, in Program.lean. -/
def agentTurn (t : Turn) (s : State) : Option Result :=
  match t with
  | .host r => some (hostStep r s)
  | .builder => (s.blk.builderStep.map s.withBlk).map .next
  | .encoder => (s.blk.encoderStep.map s.withBlk).map .next
  | .decoder => (s.blk.decoderStep.map s.withBlk).map .next
  | .symSrc d => (symSrcTurn d s).map .next
  | .bitSnk => (bitSnkTurn s).map .next
  | .bitSrc x => (bitSrcTurn x s).map .next
  | .bitEnd level => some (.next { s with env := { s.env with bitEnd := level } })
  | .latchEnd => (latchTurn s).map .next
  | .symSnk => (symSnkTurn s).map .next
  | .reset => some (.next s.resetBlk)
  | .prog => none

/-- An enabled step of one of the block's engines, or else the latch of the end signal: what goes on by itself when no
turn is given. DESIGN CHOICE (log 2, unsafe). -/
def engineTurn (s : State) : Option State :=
  (s.blk.builderStep <|> s.blk.encoderStep <|> s.blk.decoderStep <|> s.blk.latchEnd s.env.bitEnd).map s.withBlk

end Sys2Proof.Machine
end

