-- ==== Sys2Proof/Machine/Program.lean ====
section
/-! DEFINITION. Host programs (30_encoding.md R73, R74), and the turns of agents and program together. -/

namespace Sys2Proof.Machine

/-- The request of a read of a register: `RD off` is `(off, 4, 0, 0)` (R74). -/
def readReq (off : BitVec 14) : BusReq := ⟨off, 4, false, 0⟩

/-- The request of a write of a register: `WR off, v` is `(off, 4, 1, v)` (R74). -/
def writeReq (off : BitVec 14) (v : Word) : BusReq := ⟨off, 4, true, v⟩

/-- The turn a statement is (R73). -/
def stmtTurn : Stmt → Turn
  | .wr off v => .host (writeReq off v)
  | .rd off => .host (readReq off)
  | .rdExpect off _ => .host (readReq off)
  | .sym d => .symSrc d
  | .bit x => .bitSrc x
  | .endOfBits => .bitEnd true
  | .takeBit => .bitSnk
  | .takeSym => .symSnk
  | .reset => .reset
  | .wait off _ _ => .host (readReq off)

/-- The statement is over once its turn is taken; a `WAIT` only when the value its read returns, 0 where the bus refuses the
read, answers it (R74, 20_memory.md R50). -/
def stmtOver (b : Block) : Stmt → Bool
  | .wait off mask v => decide ((b.busAnswer (readReq off)).rdata &&& mask = v)
  | .wr _ _ => true
  | .rd _ => true
  | .rdExpect _ _ => true
  | .sym _ => true
  | .bit _ => true
  | .endOfBits => true
  | .takeBit => true
  | .takeSym => true
  | .reset => true

/-- The turn of the next statement of the program; none when its transfer is not enabled, or no statement is left (R73). -/
def progTurn (s : State) : Option Result :=
  match s.env.prog with
  | [] => none
  | st :: rest => agentTurn (stmtTurn st) (s.withProg (if stmtOver s.blk st then rest else st :: rest))

/-- What a turn does; none when it has no enabled step. -/
def turn (t : Turn) (s : State) : Option Result :=
  match t with
  | .prog => progTurn s
  | _ => agentTurn t s

/-- A turn with no enabled step passes and nothing changes: the agent is held, the program waits (00_scope.md R5,
30_encoding.md R73). -/
def takeTurn (t : Turn) (s : State) : Result := (turn t s).getD (.next s)

end Sys2Proof.Machine

namespace Sys2Proof

/-! ### The pseudo-statements (R74) -/

/-- `CMD <mnemonic>`. -/
def Stmt.cmd (i : Instr) : Stmt := .wr 0x008 (encode i)

/-- `FREQ s, c`. -/
def Stmt.freq (s : Fin 256) (c : Word) : Stmt := .wr (Reg.freq s).offset c

/-- `WAITMODE m`. -/
def Stmt.waitMode (m : Machine.Mode) : Stmt := .wait 0x00C 0x7 (m.bits.setWidth 32)

/-- `BITS "b0 b1 ..."`. -/
def Stmt.bits (bs : List Bool) : List Stmt := bs.map .bit

/-- `SYMS s0, s1, ...`. -/
def Stmt.syms (ss : List Sym) : List Stmt := ss.map .sym

/-- `TAKEBITS n`. -/
def Stmt.takeBits (n : Nat) : List Stmt := List.replicate n .takeBit

/-- `TAKESYMS n`. -/
def Stmt.takeSyms (n : Nat) : List Stmt := List.replicate n .takeSym

end Sys2Proof
end

