-- ==== Sys2Proof/Machine/Step.lean ====
section
/-! DEFINITION. One step of the machine. -/

namespace Sys2Proof.Machine

/-- The next turn is taken, be it an agent's or the program's (00_scope.md R5, 30_encoding.md R73, log 1). With no turn
left, an engine steps if one is enabled, else the end signal is latched if that is enabled, else the program goes on
(log 2). -/
def step (s : State) : Host.Outcome State Fault Refusal :=
  match s.env.turns with
  | t :: ts => takeTurn t (s.withTurns ts)
  | [] =>
    match engineTurn s with
    | some s' => .next s'
    | none => takeTurn .prog s

/-- The host writes the word to CMD in the very next step (10_state.md R19, log 3). -/
def State.withFetchWord (s : State) (nbits w : Nat) : State :=
  s.withTurns (.host (writeReq 0x008 (BitVec.ofNat 32 (w % 2 ^ nbits))) :: s.env.turns)

end Sys2Proof.Machine
end

