-- ==== Sys2Proof/Safety.lean ====
section
/-! DEFINITION. The terms claims are stated in: the invariants of the block, the turn a step takes, runs that stay in one
mode, what the ports have carried, and the end and the success of a run (70_reset_and_hazards.md R131). -/

namespace Sys2Proof.Machine

/-! ### Invariants of the block -/

/-- The modes in which TREE_VALID is 1 (10_state.md R21). -/
def Mode.hasTree : Mode → Bool
  | .ready => true
  | .encoding => true
  | .decoding => true
  | .encDone => true
  | .decDone => true
  | .idle => false
  | .building => false
  | .error => false

/-- The invariant of 10_state.md R21: no valid tree in IDLE and BUILDING, a valid tree in READY, in a session and after
one. -/
def Block.ModeTree (b : Block) : Prop :=
  (b.mode = .idle ∨ b.mode = .building → b.tree.valid = false) ∧ (b.mode.hasTree = true → b.tree.valid = true)

/-- ERR holds an error exactly in ERROR (10_state.md R22, 60_exceptions.md R115, R118). -/
def Block.ErrRecord (b : Block) : Prop :=
  (b.mode = .error ↔ b.err.code ≠ .none) ∧ (b.err.code = .none → b.err.info = 0)

/-- No queue is longer than its capacity (10_state.md R41). -/
def Block.QueueBounds (b : Block) : Prop :=
  b.q.symIn.length ≤ b.depths.symIn.cap ∧ b.q.bitOut.length ≤ b.depths.bitOut.cap ∧
    b.q.bitIn.length ≤ b.depths.bitIn.cap ∧ b.q.symOut.length ≤ b.depths.symOut.cap

/-- A tree state is the one a build makes of a frequency table (42_tree_build.md R86, R95); the arena slots above the
tree's say nothing. -/
def Tree.IsOf (t : Tree) (f : Vector Word 256) : Prop :=
  freqTotal f ≤ WMAX ∧ t.nleaf.toNat = (buildTree f).n ∧ t.root.toNat = (buildTree f).root ∧
    (∀ i, i < 2 * (buildTree f).n - 1 → t.node[i]? = (buildTree f).nodes[i]?) ∧
    t.code = writeCodes (buildTree f).codes (Vector.replicate NSYM none)

/-- A valid tree is the tree of the frequency table as it stands: every change of the table drops the tree
(41_freq_table.md R81, R83). -/
def Block.TreeCurrent (b : Block) : Prop := b.tree.valid = true → b.tree.IsOf b.freq

/-- In a decode session the decoder stands at a node of the tree; after one it stands at the EOF leaf
(44_decoder.md R104, R107 to R109). -/
def Block.DecoderInTree (b : Block) : Prop :=
  (b.mode = .decoding ∨ b.mode = .decDone → b.tree.inArena b.dec.node.toNat = true) ∧
    (b.mode = .decDone → ∃ s w, b.tree.nodeAt b.dec.node = some (.leaf s w) ∧ s.toNat = EOF)

/-- In an encode session the symbol 256, once accepted, is the last in the queue or is loaded, and nothing follows it;
after one nothing is left to do (43_encoder.md R98, R99, R101). -/
def Block.EofLast (b : Block) : Prop :=
  (b.mode = .encoding →
    (b.enc.eofIn = true ↔ b.enc.final = true ∨ (256 : Sym) ∈ b.q.symIn) ∧
    ((256 : Sym) ∉ b.q.symIn.dropLast) ∧
    (b.enc.final = true → b.q.symIn = [])) ∧
  (b.mode = .encDone → b.enc = ⟨[], true, true⟩ ∧ b.q.symIn = [])

/-- The invariants of the block together. -/
structure Block.Inv (b : Block) : Prop where
  modeTree : b.ModeTree
  errRecord : b.ErrRecord
  queueBounds : b.QueueBounds
  treeCurrent : b.TreeCurrent
  decoderInTree : b.DecoderInTree
  eofLast : b.EofLast

/-! ### Turns and runs -/

/-- The step from s is the program's: its turn is the first of the turns given, or none is given and nothing goes on by
itself. -/
def State.ProgNext (s : State) : Prop :=
  (∃ ts, s.env.turns = .prog :: ts) ∨ (s.env.turns = [] ∧ engineTurn s = none)

/-- The state with the turn of this step used up. -/
def State.tick (s : State) : State := s.withTurns s.env.turns.tail

/-- The step from s takes this turn: it is the first of the turns given, or the step is the program's and its next
statement is this turn. -/
def State.Takes (s : State) (t : Turn) : Prop :=
  (∃ ts, s.env.turns = t :: ts) ∨ (s.ProgNext ∧ ∃ st rest, s.env.prog = st :: rest ∧ stmtTurn st = t)

/-- From s, k steps lead to t, and every state of the run but the last has the mode m: a stretch of one session. -/
def StaysIn (m : Mode) : Nat → State → State → Prop
  | 0, s, t => s = t
  | k + 1, s, t => s.blk.mode = m ∧ ∃ u, step s = .next u ∧ StaysIn m k u t

/-- The bits the encoder has pushed, delivered ones first (43_encoder.md R103). -/
def State.bitStream (s : State) : List Bool := s.env.bitsOut ++ s.blk.q.bitOut

/-- The symbols the decoder has pushed, delivered ones first (44_decoder.md R112). -/
def State.symStream (s : State) : List Byte := s.env.symsOut ++ s.blk.q.symOut

/-- The payload of a sequence of symbols: their codes in order, then EOF's (43_encoder.md R103). -/
def Tree.payload (t : Tree) (syms : List Sym) : List Bool := syms.flatMap t.codeOf ++ t.codeOf 256

/-- Where the bits lead from a node, one branch per bit; none where they run past a leaf (44_decoder.md R107). -/
def Tree.follow (t : Tree) : NodeIdx → List Bool → Option NodeIdx
  | i, [] => some i
  | i, x :: rest =>
    match t.nodeAt i with
    | some (.internal zero one _) => t.follow (if x then one else zero) rest
    | _ => none

/-! ### The end and the success of a run (70_reset_and_hazards.md R131) -/

/-- An encode run is over. -/
def Block.encodeOver (b : Block) : Prop := (b.mode = .encDone ∨ b.mode = .error) ∧ b.q.bitOut = []

/-- A decode run is over. -/
def Block.decodeOver (b : Block) : Prop := (b.mode = .decDone ∨ b.mode = .error) ∧ b.q.symOut = []

/-- A build is over. -/
def Block.buildOver (b : Block) : Prop := b.mode = .ready ∨ b.mode = .error

/-- An encode run is successful: over, and not in ERROR. -/
def Block.encodeSuccessful (b : Block) : Prop := b.encodeOver ∧ b.mode ≠ .error

/-- A decode run is successful. -/
def Block.decodeSuccessful (b : Block) : Prop := b.decodeOver ∧ b.mode ≠ .error

/-- A build is successful. -/
def Block.buildSuccessful (b : Block) : Prop := b.buildOver ∧ b.mode ≠ .error

end Sys2Proof.Machine
end

