-- ==== Sys2Proof/Certificates/Slice0/Obligations.lean ====
section
/-! DEFINITION. The statements for the provers. Each docstring names the rule of spec/ a statement formalises. A statement
that gives a whole next state by a record update says its frame by it: every field not named there is unchanged. That a
step is written as the first of a list of turns, an agent's or the host program's, and that the turn of a held agent
passes, is the model's form of 00_scope.md R5 (log 1); the block's own change is the rule's. -/

open Sys2Proof Sys2Proof.Machine

/-! ### Encoding and the register map -/

/-- 30_encoding.md R67, R68: the five command words, and words that are none, written out from the tables. -/
def Obligations.CommandWordsDecode : Prop :=
  decode 0x00000001 = .ok .freqClear ∧ decode 0x00000002 = .ok .build ∧ decode 0x00000003 = .ok .encStart ∧
    decode 0x00000004 = .ok .decStart ∧ decode 0x00000005 = .ok .abort ∧
    decode 0x00000000 = .error .illegalOpcode ∧ decode 0x00000006 = .error .illegalOpcode ∧
    decode 0x000000FF = .error .illegalOpcode ∧ decode 0x00000105 = .error .reservedBits ∧
    decode 0x12345601 = .error .reservedBits

/-- 30_encoding.md R66 to R69: a word is a command exactly when it is that command's word, so decoding inverts encoding
and encoding inverts decoding, and the command words are 1 to 5. -/
def Obligations.DecodeAcceptsExactlyTheCommandWords : Prop :=
  (∀ (w : Word) (i : Instr), decode w = .ok i ↔ w = encode i) ∧
    (∀ w : Word, (∃ i, decode w = .ok i) ↔ 1 ≤ w.toNat ∧ w.toNat ≤ 5) ∧
    (∀ w : Word, decode w = .error .reservedBits ↔ rsvField w ≠ 0)

/-- 10_state.md R16, 20_memory.md R51: every register has the offset the map gives it and no other, every aligned offset
its register, and the reserved offsets are the ranges the map marks. -/
def Obligations.RegisterMapIsUnambiguous : Prop :=
  (∀ r : Reg, r ≠ .reserved → regAt r.offset = r ∧ r.offset.toNat % 4 = 0) ∧
    (∀ off : BitVec 14, off.toNat % 4 = 0 → regAt off ≠ .reserved → (regAt off).offset = off) ∧
    (∀ off : BitVec 14, off.toNat % 4 = 0 →
      (regAt off = .reserved ↔
        (0x064 ≤ off.toNat ∧ off.toNat ≤ 0x7FC) ∨ (0xC04 ≤ off.toNat ∧ off.toNat ≤ 0xFFC) ∨
          (0x1804 ≤ off.toNat ∧ off.toNat ≤ 0x1FFC) ∨ (0x2804 ≤ off.toNat ∧ off.toNat ≤ 0x3FFC))) ∧
    ([Reg.id, .config, .cmd, .status, .err, .irqStatus, .irqEnable, .nleaf, .root, .total, .encSymcnt, .encBitcnt,
        .decSymcnt, .decBitcnt, .decNode, .codeSel, .codeLen, .freqEof].map fun r => r.offset.toNat) =
      [0x000, 0x004, 0x008, 0x00C, 0x010, 0x014, 0x018, 0x01C, 0x020, 0x024, 0x028, 0x02C, 0x030, 0x034, 0x038, 0x03C,
        0x040, 0xC00] ∧
    (∀ j : Fin 8, (Reg.codeBits j).offset.toNat = 0x044 + 4 * j.val) ∧
    (∀ k : Fin 256, (Reg.freq k).offset.toNat = 0x800 + 4 * k.val) ∧
    (∀ i : Fin 513, (Reg.nodeInfo i).offset.toNat = 0x1000 + 4 * i.val) ∧
    (∀ i : Fin 513, (Reg.nodeWeight i).offset.toNat = 0x2000 + 4 * i.val)

/-! ### Steps and the host bus -/

/-- 40_command.md R75, 10_state.md R19, 30_encoding.md R73: a step that writes a command's word to CMD, by the host's turn
or as the next statement of a host program, is exec of that command, at the state with the turn (and the statement) used
up and the bus answer given. The form of turns is the model's (log 1), and so is when the program goes on with no turn
given (log 2). -/
def Obligations.StepRunsDecodedCommand : Prop :=
  (∀ (s : State) (ts : List Turn) (w : Word) (i : Instr),
    s.env.turns = .host (writeReq 0x008 w) :: ts → decode w = .ok i →
      step s = exec i ((s.withTurns ts).answer 0 false)) ∧
  (∀ (s : State) (rest : List Stmt) (w : Word) (i : Instr),
    s.ProgNext → s.env.prog = .wr 0x008 w :: rest → decode w = .ok i →
      step s = exec i ((s.tick.withProg rest).answer 0 false))

/-- 20_memory.md R50. -/
def Obligations.MalformedAccessAnswersErrorAndChangesNothing : Prop :=
  ∀ (s : State) (ts : List Turn) (r : BusReq), s.env.turns = .host r :: ts →
    (r.size ≠ 4 ∨ r.off.toNat % 4 ≠ 0) → step s = .next ((s.withTurns ts).answer 0 true)

/-- 20_memory.md R54, R49, R50: a read changes nothing but gives its answer, which is the word of the register at the
offset, or the bus error for a refused access; it depends on the block alone, so a repeated read answers the same. -/
def Obligations.ReadsHaveNoSideEffect : Prop :=
  ∀ (s : State) (ts : List Turn) (r : BusReq), s.env.turns = .host r :: ts → r.write = false →
    let a : BusResp :=
      if r.size = 4 ∧ r.off.toNat % 4 = 0 then ⟨s.blk.readReg (regAt r.off), false⟩ else ⟨0, true⟩
    step s = .next ((s.withTurns ts).answer a.rdata a.err) ∧
      ∀ (s' : State) (ts' : List Turn), s'.blk = s.blk → s'.env.turns = .host r :: ts' →
        step s' = .next ((s'.withTurns ts').answer a.rdata a.err)

/-- 20_memory.md R51, R53: reserved offsets read 0 and ignore writes, CMD reads 0, without a bus error. -/
def Obligations.ReservedOffsetsAndCmdRead : Prop :=
  (∀ (s : State) (ts : List Turn) (r : BusReq), s.env.turns = .host r :: ts → r.size = 4 → r.off.toNat % 4 = 0 →
    ((0x064 ≤ r.off.toNat ∧ r.off.toNat ≤ 0x7FC) ∨ (0xC04 ≤ r.off.toNat ∧ r.off.toNat ≤ 0xFFC) ∨
      (0x1804 ≤ r.off.toNat ∧ r.off.toNat ≤ 0x1FFC) ∨ (0x2804 ≤ r.off.toNat ∧ r.off.toNat ≤ 0x3FFC)) →
    step s = .next ((s.withTurns ts).answer 0 false)) ∧
  (∀ (s : State) (ts : List Turn), s.env.turns = .host (readReq 0x008) :: ts →
    step s = .next ((s.withTurns ts).answer 0 false))

/-- 20_memory.md R52: a write to a read-only register changes nothing and is no bus error. -/
def Obligations.ReadOnlyWritesAreIgnored : Prop :=
  ∀ (s : State) (ts : List Turn) (r : Reg) (w : Word), s.env.turns = .host (writeReq r.offset w) :: ts →
    (r = .id ∨ r = .config ∨ r = .status ∨ r = .err ∨ r = .nleaf ∨ r = .root ∨ r = .total ∨ r = .encSymcnt ∨
      r = .encBitcnt ∨ r = .decSymcnt ∨ r = .decBitcnt ∨ r = .decNode ∨ r = .codeLen ∨ (∃ j, r = .codeBits j) ∨
      r = .freqEof ∨ (∃ i, r = .nodeInfo i) ∨ (∃ i, r = .nodeWeight i)) →
    step s = .next ((s.withTurns ts).answer 0 false)

/-- 30_encoding.md R73, R74: when the program's step comes, by its turn or with none given (the model's order: log 1, 2), a
statement whose step is enabled is its agent's step, a port statement whose transfer is not enabled waits, and a `WAIT`
repeats its read until the value read (0 where the bus refuses the offset, 20_memory.md R50) answers it (log 15). -/
def Obligations.ProgramStatementsWait : Prop :=
  ∀ (s : State) (st : Stmt) (rest : List Stmt), s.ProgNext → s.env.prog = st :: rest →
    let done : Turn → Result := fun t => step ((s.withProg rest).withTurns (t :: s.env.turns.tail))
    (∀ off v, st = .wr off v → step s = done (.host (writeReq off v))) ∧
    (∀ off v, st = .rd off ∨ st = .rdExpect off v → step s = done (.host (readReq off))) ∧
    (∀ d, st = .sym d →
      (s.blk.symReady = true → step s = done (.symSrc d)) ∧ (s.blk.symReady = false → step s = .next s.tick)) ∧
    (∀ x, st = .bit x →
      (s.blk.bitReady = true → step s = done (.bitSrc x)) ∧ (s.blk.bitReady = false → step s = .next s.tick)) ∧
    (st = .endOfBits → step s = done (.bitEnd true)) ∧
    (st = .takeBit →
      (s.blk.q.bitOut ≠ [] → step s = done .bitSnk) ∧ (s.blk.q.bitOut = [] → step s = .next s.tick)) ∧
    (st = .takeSym →
      (s.blk.q.symOut ≠ [] → step s = done .symSnk) ∧ (s.blk.q.symOut = [] → step s = .next s.tick)) ∧
    (st = .reset → step s = done .reset) ∧
    (∀ off m v, st = .wait off m v →
      let a : Word := if off.toNat % 4 = 0 then s.blk.readReg (regAt off) else 0
      let e : Bool := decide (off.toNat % 4 ≠ 0)
      (a &&& m = v → step s = .next ((s.tick.withProg rest).answer a e)) ∧
        (a &&& m ≠ v → step s = .next (s.tick.answer a e)))

/-! ### Register views -/

/-- 10_state.md R20, R21: the fields of STATUS, the value of MODE for each mode, and the value of STATUS after reset. -/
def Obligations.StatusShowsItsFields : Prop :=
  (∀ b : Block, (b.readReg .status).extractLsb' 0 3 = b.mode.bits ∧
    (b.readReg .status).getLsbD 3 = b.tree.valid ∧
    (b.readReg .status).getLsbD 4 = b.enc.eofIn ∧
    (b.readReg .status).getLsbD 5 = b.dec.inEnd ∧
    (b.readReg .status).getLsbD 6 = b.q.symIn.isEmpty ∧
    (b.readReg .status).getLsbD 7 = b.q.bitOut.isEmpty ∧
    (b.readReg .status).getLsbD 8 = b.q.bitIn.isEmpty ∧
    (b.readReg .status).getLsbD 9 = b.q.symOut.isEmpty ∧
    (b.readReg .status).getLsbD 10 = b.enc.sr.isEmpty ∧
    (b.readReg .status).extractLsb' 11 21 = 0) ∧
  [Mode.idle, .building, .ready, .encoding, .decoding, .encDone, .decDone, .error].map (fun m => m.bits.toNat) =
    [0, 1, 2, 3, 4, 5, 6, 7] ∧
  (∀ d : Depths, (Block.reset d).readReg .status = 0x000007C0)

/-- 10_state.md R18: CONFIG shows the four depths, each from 1 to 255, and no step changes them. -/
def Obligations.ConfigShowsConstantDepths : Prop :=
  (∀ b : Block, ((b.readReg .config).extractLsb' 0 8).toNat = b.depths.symIn.cap ∧
    ((b.readReg .config).extractLsb' 8 8).toNat = b.depths.bitOut.cap ∧
    ((b.readReg .config).extractLsb' 16 8).toNat = b.depths.bitIn.cap ∧
    ((b.readReg .config).extractLsb' 24 8).toNat = b.depths.symOut.cap) ∧
  (∀ d : Depth, 1 ≤ d.cap ∧ d.cap ≤ 255) ∧
  (∀ s s' : State, step s = .next s' → s'.blk.depths = s.blk.depths ∧ s'.blk.readReg .config = s.blk.readReg .config)

/-- 10_state.md R17, R22 to R24, R28 to R30, 60_exceptions.md R114: ID, the fields of ERR, and the registers that show a
field below zeros. -/
def Obligations.ErrAndPlainRegisterViews : Prop :=
  ∀ b : Block, b.readReg .id = 0x48425343 ∧
    (b.readReg .err).extractLsb' 0 4 = b.err.code.bits ∧ (b.readReg .err).extractLsb' 4 12 = 0 ∧
    (b.readReg .err).extractLsb' 16 16 = b.err.info ∧
    (b.readReg .irqStatus).toNat = b.irqStatus.toNat ∧ (b.readReg .irqEnable).toNat = b.irqEnable.toNat ∧
    (b.readReg .decNode).toNat = b.dec.node.toNat ∧ (b.readReg .codeSel).toNat = b.codeSel.toNat ∧
    b.readReg .encSymcnt = b.cnt.encSym ∧ b.readReg .encBitcnt = b.cnt.encBit ∧
    b.readReg .decSymcnt = b.cnt.decSym ∧ b.readReg .decBitcnt = b.cnt.decBit ∧
    [ErrCode.none, .illegalCmd, .badState, .weightOvf, .badSymbol, .truncated].map (fun c => c.bits.toNat) =
      [0, 1, 2, 3, 4, 5]

/-- 92_eei_decisions.md D17: while there is no valid tree, every readback of it is 0. -/
def Obligations.NoTreeReadsZero : Prop :=
  ∀ b : Block, b.tree.valid = false →
    b.readReg .nleaf = 0 ∧ b.readReg .root = 0 ∧ b.readReg .total = 0 ∧ b.readReg .codeLen = 0 ∧
      (∀ j, b.readReg (.codeBits j) = 0) ∧ (∀ i, b.readReg (.nodeInfo i) = 0) ∧ (∀ i, b.readReg (.nodeWeight i) = 0)

/-- 10_state.md R35, R36 and 30_encoding.md R72: within a valid tree NODE_INFO and NODE_WEIGHT show the node, elsewhere
they read 0. -/
def Obligations.NodeReadbackShowsTheArena : Prop :=
  ∀ (b : Block) (i : Fin 513),
    (b.tree.valid = true → i.val + 2 ≤ 2 * b.tree.nleaf.toNat →
      (∀ s w, b.tree.node[i] = .leaf s w →
        b.readReg (.nodeInfo i) = 0x80000000 ||| s.setWidth 32 ∧ b.readReg (.nodeWeight i) = w) ∧
      (∀ zero one w, b.tree.node[i] = .internal zero one w →
        b.readReg (.nodeInfo i) = (one.setWidth 32 <<< 16) ||| zero.setWidth 32 ∧ b.readReg (.nodeWeight i) = w)) ∧
    (b.tree.valid = false ∨ 2 * b.tree.nleaf.toNat < i.val + 2 →
      b.readReg (.nodeInfo i) = 0 ∧ b.readReg (.nodeWeight i) = 0)

/-- 10_state.md R31, R32: CODE_LEN and CODE_BITS show the code of the selected symbol, first bit in bit 31 of
CODE_BITS[0]. A code has at most 256 bits (R38; CodeLengthBounds says so of every build). -/
def Obligations.CodeReadbackShowsTheCode : Prop :=
  ∀ b : Block, (b.tree.codeOf b.codeSel).length ≤ 256 →
    (b.readReg .codeLen).getLsbD 31 = b.tree.inTree b.codeSel ∧
    (b.readReg .codeLen).extractLsb' 9 22 = 0 ∧
    ((b.readReg .codeLen).extractLsb' 0 9).toNat =
      (if b.tree.inTree b.codeSel then (b.tree.codeOf b.codeSel).length else 0) ∧
    ∀ (j : Fin 8) (t : Nat), t < 32 →
      (b.readReg (.codeBits j)).getLsbD (31 - t) =
        (b.tree.inTree b.codeSel && ((b.tree.codeOf b.codeSel)[32 * j.val + t]?).getD false)

/-- 10_state.md R25 to R27: with a valid tree NLEAF reads the number of present symbols, ROOT the index of the last node
made, and TOTAL the sum of all counts including EOF's 1. -/
def Obligations.TreeSummaryOfTheTable : Prop :=
  ∀ b : Block, b.TreeCurrent → b.tree.valid = true →
    (b.readReg .nleaf).toNat = (leafSyms b.freq).length ∧
      (b.readReg .root).toNat + 2 = 2 * (leafSyms b.freq).length ∧
      (b.readReg .total).toNat = freqTotal b.freq

/-! ### Control registers and the interrupt -/

/-- 40_command.md R78, 10_state.md R44: a write of IRQ_STATUS clears the bits written 1 and nothing else. -/
def Obligations.IrqStatusWriteOneToClear : Prop :=
  ∀ (s : State) (ts : List Turn) (w : Word), s.env.turns = .host (writeReq 0x014 w) :: ts →
    ∃ v : BitVec 4,
      step s = .next (((s.withTurns ts).answer 0 false).withBlk { s.blk with irqStatus := v }) ∧
        ∀ k, k < 4 → v.getLsbD k = (s.blk.irqStatus.getLsbD k && !w.getLsbD k)

/-- 40_command.md R79, R80, 10_state.md R44: a write of IRQ_ENABLE stores the low 4 bits and `irq` follows; a write of
CODE_SEL stores the low 9 bits; nothing else changes. -/
def Obligations.EnableAndSelectorWrites : Prop :=
  (∀ (s : State) (ts : List Turn) (w : Word), s.env.turns = .host (writeReq 0x018 w) :: ts →
    ∃ v : BitVec 4, (∀ k, k < 4 → v.getLsbD k = w.getLsbD k) ∧
      step s = .next (((s.withTurns ts).answer 0 false).withBlk { s.blk with irqEnable := v }) ∧
      (Block.irq { s.blk with irqEnable := v } = true ↔ ∃ k, k < 4 ∧ s.blk.irqStatus.getLsbD k ∧ w.getLsbD k)) ∧
  (∀ (s : State) (ts : List Turn) (w : Word), s.env.turns = .host (writeReq 0x03C w) :: ts →
    ∃ v : BitVec 9, v.toNat = w.toNat % 512 ∧
      step s = .next (((s.withTurns ts).answer 0 false).withBlk { s.blk with codeSel := v }))

/-- 10_state.md R23, R45: a bit of IRQ_STATUS is set only by the end of a build, of an encode or of a decode session, or
by an error, and is cleared only by a host write of 1 or by reset. -/
def Obligations.IrqStatusIsSticky : Prop :=
  ∀ (s s' : State) (k : Nat), step s = .next s' → k < 4 →
    (s.blk.irqStatus.getLsbD k = true → s'.blk.irqStatus.getLsbD k = false →
      s.Takes .reset ∨
        ∃ r : BusReq, s.Takes (.host r) ∧ r.wf = true ∧ r.write = true ∧ r.off = 0x014 ∧ r.wdata.getLsbD k = true) ∧
    (s.blk.irqStatus.getLsbD k = false → s'.blk.irqStatus.getLsbD k = true →
      (k = 0 ∧ s.blk.mode = .building ∧ s'.blk.mode = .ready) ∨
        (k = 1 ∧ s.blk.mode = .encoding ∧ s'.blk.mode = .encDone) ∨
        (k = 2 ∧ s.blk.mode = .decoding ∧ s'.blk.mode = .decDone) ∨
        (k = 3 ∧ s.blk.mode ≠ .error ∧ s'.blk.mode = .error))

/-! ### The frequency table -/

/-- 41_freq_table.md R81: a FREQ[s] write stores the count and drops the tree; while an engine runs it raises BAD_STATE
with INFO 0x8000 OR s; in ERROR it is ignored. -/
def Obligations.FreqWriteStoresAndDropsTheTree : Prop :=
  ∀ (s : State) (ts : List Turn) (k : Fin 256) (w : Word),
    s.env.turns = .host (writeReq (BitVec.ofNat 14 (0x800 + 4 * k.val)) w) :: ts →
    (s.blk.mode = .idle ∨ s.blk.mode = .ready ∨ s.blk.mode = .encDone ∨ s.blk.mode = .decDone →
      ∃ f : Vector Word 256, f[k] = w ∧ (∀ j : Fin 256, j ≠ k → f[j] = s.blk.freq[j]) ∧
        step s = .next (((s.withTurns ts).answer 0 false).withBlk
          { s.blk with freq := f, tree := { s.blk.tree with valid := false }, mode := .idle })) ∧
    (s.blk.mode = .building ∨ s.blk.mode = .encoding ∨ s.blk.mode = .decoding →
      step s = .next (((s.withTurns ts).answer 0 false).withBlk
        { s.blk with
          err := ⟨.badState, 0x8000 ||| BitVec.ofNat 16 k.val⟩, mode := .error
          irqStatus := s.blk.irqStatus ||| 0b1000 })) ∧
    (s.blk.mode = .error → step s = .next ((s.withTurns ts).answer 0 false))

/-- 41_freq_table.md R82: a read of FREQ[s] answers the count, of FREQ[256] always 1. -/
def Obligations.FreqReads : Prop :=
  ∀ (s : State) (ts : List Turn),
    (∀ k : Fin 256, s.env.turns = .host (readReq (BitVec.ofNat 14 (0x800 + 4 * k.val))) :: ts →
      step s = .next ((s.withTurns ts).answer s.blk.freq[k] false)) ∧
    (s.env.turns = .host (readReq 0xC00) :: ts → step s = .next ((s.withTurns ts).answer 1 false))

/-- 41_freq_table.md R83: FREQ_CLEAR empties the table and drops the tree, in the modes that permit it; elsewhere
BAD_STATE, and nothing in ERROR. -/
def Obligations.FreqClearEmptiesTheTable : Prop :=
  ∀ s : State,
    (s.blk.mode = .idle ∨ s.blk.mode = .ready ∨ s.blk.mode = .encDone ∨ s.blk.mode = .decDone →
      ∃ f : Vector Word 256, (∀ k : Fin 256, f[k] = 0) ∧
        exec .freqClear s = .next (s.withBlk
          { s.blk with freq := f, tree := { s.blk.tree with valid := false }, mode := .idle })) ∧
    (s.blk.mode = .building ∨ s.blk.mode = .encoding ∨ s.blk.mode = .decoding →
      exec .freqClear s = .next (s.withBlk
        { s.blk with err := ⟨.badState, 0x0001⟩, mode := .error, irqStatus := s.blk.irqStatus ||| 0b1000 })) ∧
    (s.blk.mode = .error → exec .freqClear s = .next s)

/-! ### Commands and errors -/

/-- 42_tree_build.md R85: BUILD invalidates the tree and enters BUILDING, in the modes that permit it. -/
def Obligations.BuildStartsBuilding : Prop :=
  ∀ s : State,
    (s.blk.mode = .idle ∨ s.blk.mode = .ready ∨ s.blk.mode = .encDone ∨ s.blk.mode = .decDone →
      exec .build s = .next (s.withBlk
        { s.blk with tree := { s.blk.tree with valid := false }, mode := .building })) ∧
    (s.blk.mode = .building ∨ s.blk.mode = .encoding ∨ s.blk.mode = .decoding →
      exec .build s = .next (s.withBlk
        { s.blk with err := ⟨.badState, 0x0002⟩, mode := .error, irqStatus := s.blk.irqStatus ||| 0b1000 })) ∧
    (s.blk.mode = .error → exec .build s = .next s)

/-- 43_encoder.md R97: ENC_START in READY begins a session; BITQ_OUT is kept. -/
def Obligations.EncStartBeginsASession : Prop :=
  ∀ s : State,
    (s.blk.mode = .ready →
      exec .encStart s = .next (s.withBlk
        { s.blk with
          q := { s.blk.q with symIn := [] }
          enc := { sr := [], final := false, eofIn := false }
          cnt := { s.blk.cnt with encSym := 0, encBit := 0 }
          mode := .encoding })) ∧
    (s.blk.mode ≠ .ready → s.blk.mode ≠ .error →
      exec .encStart s = .next (s.withBlk
        { s.blk with err := ⟨.badState, 0x0003⟩, mode := .error, irqStatus := s.blk.irqStatus ||| 0b1000 })) ∧
    (s.blk.mode = .error → exec .encStart s = .next s)

/-- 44_decoder.md R104: DEC_START in READY begins a session at the root; SYMQ_OUT is kept. -/
def Obligations.DecStartBeginsASession : Prop :=
  ∀ s : State,
    (s.blk.mode = .ready →
      exec .decStart s = .next (s.withBlk
        { s.blk with
          q := { s.blk.q with bitIn := [] }
          dec := { node := s.blk.tree.root, inEnd := false }
          cnt := { s.blk.cnt with decSym := 0, decBit := 0 }
          mode := .decoding })) ∧
    (s.blk.mode ≠ .ready → s.blk.mode ≠ .error →
      exec .decStart s = .next (s.withBlk
        { s.blk with err := ⟨.badState, 0x0004⟩, mode := .error, irqStatus := s.blk.irqStatus ||| 0b1000 })) ∧
    (s.blk.mode = .error → exec .decStart s = .next s)

/-- 40_command.md R77: ABORT in every mode. FREQ, IRQ_STATUS, IRQ_ENABLE, CODE_SEL, the counters, NODE and CODE stay. -/
def Obligations.AbortLeavesEveryMode : Prop :=
  ∀ s : State,
    exec .abort s = .next (s.withBlk
      { s.blk with
        mode := .idle
        tree := { s.blk.tree with valid := false }
        err := ⟨.none, 0⟩
        q := { symIn := [], bitOut := [], bitIn := [], symOut := [] }
        enc := { sr := [], final := false, eofIn := false }
        dec := { node := 0, inEnd := false } })

/-- 40_command.md R75, R76: the dispatch of every word written to CMD: ERROR first, then legality, then ABORT, then
permission. -/
def Obligations.CmdWriteDispatch : Prop :=
  ∀ (s : State) (ts : List Turn) (w : Word), s.env.turns = .host (writeReq 0x008 w) :: ts →
    (s.blk.mode = .error → w ≠ 5 → step s = .next ((s.withTurns ts).answer 0 false)) ∧
    (w = 5 → step s = exec .abort ((s.withTurns ts).answer 0 false)) ∧
    (s.blk.mode ≠ .error → w.toNat = 0 ∨ 5 < w.toNat →
      step s = .next (((s.withTurns ts).answer 0 false).withBlk
        { s.blk with
          err := ⟨.illegalCmd, w.extractLsb' 0 16⟩, mode := .error, irqStatus := s.blk.irqStatus ||| 0b1000 })) ∧
    (s.blk.mode = .idle ∨ s.blk.mode = .ready ∨ s.blk.mode = .encDone ∨ s.blk.mode = .decDone →
      (w = 1 → step s = exec .freqClear ((s.withTurns ts).answer 0 false)) ∧
      (w = 2 → step s = exec .build ((s.withTurns ts).answer 0 false))) ∧
    (s.blk.mode = .ready →
      (w = 3 → step s = exec .encStart ((s.withTurns ts).answer 0 false)) ∧
      (w = 4 → step s = exec .decStart ((s.withTurns ts).answer 0 false))) ∧
    ((w = 1 ∨ w = 2) ∧ (s.blk.mode = .building ∨ s.blk.mode = .encoding ∨ s.blk.mode = .decoding) ∨
        (w = 3 ∨ w = 4) ∧ s.blk.mode ≠ .ready ∧ s.blk.mode ≠ .error →
      step s = .next (((s.withTurns ts).answer 0 false).withBlk
        { s.blk with
          err := ⟨.badState, w.extractLsb' 0 16⟩, mode := .error, irqStatus := s.blk.irqStatus ||| 0b1000 }))

/-- 60_exceptions.md R115: raising an error writes ERR, MODE and IRQ_STATUS.ERROR and nothing else, and no step that starts
in ERROR raises: ERR then changes only to the cleared record. -/
def Obligations.RaiseWritesTheErrorRecord : Prop :=
  (∀ (b : Block) (c : ErrCode) (i : BitVec 16),
    b.raise c i = { b with err := ⟨c, i⟩, mode := .error, irqStatus := b.irqStatus ||| 0b1000 }) ∧
  (∀ s s' : State, step s = .next s' → s.blk.mode = .error → s'.blk.err = s.blk.err ∨ s'.blk.err = ⟨.none, 0⟩)

/-- 60_exceptions.md R116, R118: in ERROR the tables, the engines, the input queues, the counters and ERR are held, and
only ABORT and reset leave it; ABORT keeps IRQ_STATUS. -/
def Obligations.ErrorIsLeftByAbortOrReset : Prop :=
  ∀ s s' : State, step s = .next s' → s.blk.mode = .error →
    (s'.blk.mode = .error ∧ s'.blk.err = s.blk.err ∧ s'.blk.freq = s.blk.freq ∧ s'.blk.tree = s.blk.tree ∧
      s'.blk.enc = s.blk.enc ∧ s'.blk.dec = s.blk.dec ∧ s'.blk.cnt = s.blk.cnt ∧
      s'.blk.q.symIn = s.blk.q.symIn ∧ s'.blk.q.bitIn = s.blk.q.bitIn) ∨
    (s'.blk.mode = .idle ∧ s'.blk.err = ⟨.none, 0⟩ ∧ s'.blk.tree.valid = false ∧ s'.blk.q = ⟨[], [], [], []⟩ ∧
      ((s.Takes .reset ∧ s'.blk.irqStatus = 0) ∨
        (s'.blk.irqStatus = s.blk.irqStatus ∧
          ∃ r : BusReq, s.Takes (.host r) ∧ r.wf = true ∧ r.write = true ∧ r.off = 0x008 ∧ r.wdata = 5)))

/-! ### The builder -/

/-- 42_tree_build.md R86: the BUILDER step in BUILDING, with a total that fits, makes the tree and the codes of the table,
enters READY and sets BUILD_DONE. That the slots above the tree keep what they hold is the model's own choice (log 17):
10_state.md R34 gives them no defined value. -/
def Obligations.BuilderMakesTheTree : Prop :=
  ∀ (s : State) (ts : List Turn), s.env.turns = .builder :: ts → s.blk.mode = .building →
    freqTotal s.blk.freq ≤ 0xFFFFFFFF →
    ∃ t : Tree, t.valid = true ∧ t.IsOf s.blk.freq ∧
      (∀ i, 2 * (leafSyms s.blk.freq).length - 1 ≤ i → t.node[i]? = s.blk.tree.node[i]?) ∧
      step s = .next ((s.withTurns ts).withBlk
        { s.blk with tree := t, mode := .ready, irqStatus := s.blk.irqStatus ||| 0b0001 })

/-- 42_tree_build.md R87: a total above WMAX raises WEIGHT_OVF with INFO 0, and nothing else of the build happens. -/
def Obligations.WeightOverflowIsRaised : Prop :=
  ∀ (s : State) (ts : List Turn), s.env.turns = .builder :: ts → s.blk.mode = .building →
    ((List.finRange 256).map fun k : Fin 256 => (s.blk.freq[k]).toNat).sum + 1 > 0xFFFFFFFF →
    step s = .next ((s.withTurns ts).withBlk
      { s.blk with err := ⟨.weightOvf, 0⟩, mode := .error, irqStatus := s.blk.irqStatus ||| 0b1000 })

/-- 10_state.md R21 (column "engine that may step"), 60_exceptions.md R124: the builder steps exactly in BUILDING, the
encoder only in ENCODING and the decoder only in DECODING, so at most one engine has an enabled step. -/
def Obligations.EnginesStepOnlyInTheirModes : Prop :=
  ∀ b : Block,
    (b.builderStep.isSome = true ↔ b.mode = .building) ∧ (b.encoderStep.isSome = true → b.mode = .encoding) ∧
      (b.decoderStep.isSome = true → b.mode = .decoding)

/-- 42_tree_build.md R88: the leaves are the present symbols in ascending order, EOF last. -/
def Obligations.LeavesAreAscendingWithEofLast : Prop :=
  ∀ f : Vector Word 256,
    (leafSyms f).Pairwise (· < ·) ∧ (∀ s, s ∈ leafSyms f ↔ s ≤ 256 ∧ freqAt f s ≠ 0) ∧
      (leafSyms f).getLast? = some 256 ∧ (buildTree f).n = (leafSyms f).length ∧
      1 ≤ (buildTree f).n ∧ (buildTree f).n ≤ 257 ∧
      ∀ i, i < (buildTree f).n →
        (buildTree f).nodes[i]? = ((leafSyms f)[i]?).map fun s => .leaf (BitVec.ofNat 9 s) (freqAt f s)

/-- 42_tree_build.md R90, R91: n leaves make 2n − 1 nodes, the last of them the root; an internal node has two distinct
children made before it and their weights' sum; the root weighs the total of R87. -/
def Obligations.TreeHasItsShape : Prop :=
  ∀ f : Vector Word 256, freqTotal f ≤ 0xFFFFFFFF →
    (buildTree f).nodes.length + 1 = 2 * (buildTree f).n ∧ (buildTree f).root + 2 = 2 * (buildTree f).n ∧
      weightAt (buildTree f).nodes (buildTree f).root = freqTotal f ∧
      ∀ k, (buildTree f).n ≤ k → k < (buildTree f).nodes.length →
        ∃ x y w, (buildTree f).nodes[k]? = some (.internal (BitVec.ofNat 10 x) (BitVec.ofNat 10 y) w) ∧
          x ≠ y ∧ x < k ∧ y < k ∧
          w.toNat = weightAt (buildTree f).nodes x + weightAt (buildTree f).nodes y

/-- 42_tree_build.md R89, R90: the children of internal node k are the two nodes with the smallest keys (weight, index)
among the nodes made before k that no earlier internal node took, the smaller one on the zero-branch. -/
def Obligations.MergesTakeTheSmallestKeys : Prop :=
  ∀ f : Vector Word 256, freqTotal f ≤ 0xFFFFFFFF →
    ∀ (k : Nat) (x y : NodeIdx) (w : Word), (buildTree f).nodes[k]? = some (.internal x y w) →
      let free : Nat → Prop := fun j => j < k ∧
        ∀ k' x' y' w', k' < k → (buildTree f).nodes[k']? = some (.internal x' y' w') → j ≠ x'.toNat ∧ j ≠ y'.toNat
      free x.toNat ∧ free y.toNat ∧ keyLt (buildTree f).nodes x.toNat y.toNat = true ∧
        ∀ j, free j → j ≠ x.toNat → j ≠ y.toNat → keyLt (buildTree f).nodes y.toNat j = true

/-- 42_tree_build.md R92: with every count 0 the tree is the one leaf of EOF, and its code is empty. -/
def Obligations.EmptyTableMakesOneLeaf : Prop :=
  ∀ f : Vector Word 256, (∀ k : Fin 256, f[k] = 0) →
    (buildTree f).n = 1 ∧ (buildTree f).nodes = [.leaf 256 1] ∧ (buildTree f).root = 0 ∧
      (buildTree f).codes = [(256, [])]

/-- 42_tree_build.md R94 (a), (b): every present symbol has exactly one code, and no code is a prefix of another's. -/
def Obligations.CodesArePrefixFree : Prop :=
  ∀ f : Vector Word 256, freqTotal f ≤ 0xFFFFFFFF →
    ((buildTree f).codes.map fun c => c.1.toNat).Perm (leafSyms f) ∧
      ∀ c ∈ (buildTree f).codes, ∀ d ∈ (buildTree f).codes, c.2 <+: d.2 → c = d

/-- 42_tree_build.md R94 (c), (d): a code has at most n − 1 bits, so at most 256, and at least one when n ≥ 2. -/
def Obligations.CodeLengthBounds : Prop :=
  ∀ f : Vector Word 256, freqTotal f ≤ 0xFFFFFFFF →
    ∀ c ∈ (buildTree f).codes,
      c.2.length + 1 ≤ (buildTree f).n ∧ c.2.length ≤ 256 ∧ (2 ≤ (buildTree f).n → 1 ≤ c.2.length)

/-- 42_tree_build.md R94 (e), (f): the sum of 2^(−length) over the codes is 1 (scaled by 2^256), and the sum of count
times length is the sum of the weights of the internal nodes. -/
def Obligations.CodeLengthSums : Prop :=
  ∀ f : Vector Word 256, freqTotal f ≤ 0xFFFFFFFF →
    ((buildTree f).codes.map fun c => 2 ^ (256 - c.2.length)).sum = 2 ^ 256 ∧
      ((buildTree f).codes.map fun c => (freqAt f c.1.toNat).toNat * c.2.length).sum =
        (((buildTree f).nodes.drop (buildTree f).n).map fun x => x.weight.toNat).sum

/-- 42_tree_build.md R95: two blocks whose valid trees belong to equal tables read the same back in every register that
shows the tree or a code. -/
def Obligations.EqualTablesReadBackEqualTrees : Prop :=
  ∀ a b : Block, a.TreeCurrent → b.TreeCurrent → a.tree.valid = true → b.tree.valid = true → a.freq = b.freq →
    a.readReg .nleaf = b.readReg .nleaf ∧ a.readReg .root = b.readReg .root ∧
      a.readReg .total = b.readReg .total ∧ (∀ i, a.readReg (.nodeInfo i) = b.readReg (.nodeInfo i)) ∧
      (∀ i, a.readReg (.nodeWeight i) = b.readReg (.nodeWeight i)) ∧
      (a.codeSel = b.codeSel →
        a.readReg .codeLen = b.readReg .codeLen ∧ ∀ j, a.readReg (.codeBits j) = b.readReg (.codeBits j))

/-! ### The encoder -/

/-- 43_encoder.md R98: the port takes a value exactly in ENCODING, before EOF, with room in the queue; else it refuses and
nothing changes. -/
def Obligations.SymbolPortTakesOrRefuses : Prop :=
  ∀ (s : State) (ts : List Turn) (d : Sym), s.env.turns = .symSrc d :: ts →
    (s.blk.mode = .encoding ∧ s.blk.enc.eofIn = false ∧ s.blk.q.symIn.length < s.blk.depths.symIn.cap →
      step s = .next
        { blk := { s.blk with
            q := { s.blk.q with symIn := s.blk.q.symIn ++ [d] }
            enc := { s.blk.enc with eofIn := decide (d = 256) } }
          env := { s.env with turns := ts, symTaken := s.env.symTaken ++ [d] } }) ∧
    (¬ (s.blk.mode = .encoding ∧ s.blk.enc.eofIn = false ∧ s.blk.q.symIn.length < s.blk.depths.symIn.cap) →
      step s = .next (s.withTurns ts))

/-- 43_encoder.md R99: the load step takes the head of the queue; a symbol of the tree gives its code, EOF sets ENC_FINAL,
any other counts; a value that is no symbol of the tree raises BAD_SYMBOL. -/
def Obligations.EncoderLoadsASymbol : Prop :=
  ∀ (s : State) (ts : List Turn) (d : Sym) (rest : List Sym), s.env.turns = .encoder :: ts →
    s.blk.mode = .encoding → s.blk.enc.sr = [] → s.blk.enc.final = false → s.blk.q.symIn = d :: rest →
    (s.blk.tree.inTree d = false →
      step s = .next ((s.withTurns ts).withBlk
        { s.blk with
          q := { s.blk.q with symIn := rest }
          err := ⟨.badSymbol, d.setWidth 16⟩, mode := .error, irqStatus := s.blk.irqStatus ||| 0b1000 })) ∧
    (s.blk.tree.inTree d = true → d = 256 →
      step s = .next ((s.withTurns ts).withBlk
        { s.blk with
          q := { s.blk.q with symIn := rest }
          enc := { s.blk.enc with sr := s.blk.tree.codeOf d, final := true } })) ∧
    (s.blk.tree.inTree d = true → d ≠ 256 →
      step s = .next ((s.withTurns ts).withBlk
        { s.blk with
          q := { s.blk.q with symIn := rest }
          enc := { s.blk.enc with sr := s.blk.tree.codeOf d }
          cnt := { s.blk.cnt with encSym := s.blk.cnt.encSym + 1 } }))

/-- 43_encoder.md R100, R101: the emit step moves the first bit of ENC_SR into BITQ_OUT when there is room, and holds when
there is none; with EOF's code all out, the finish step ends the session. -/
def Obligations.EncoderEmitsAndFinishes : Prop :=
  ∀ (s : State) (ts : List Turn), s.env.turns = .encoder :: ts → s.blk.mode = .encoding →
    (∀ x rest, s.blk.enc.sr = x :: rest →
      (s.blk.q.bitOut.length < s.blk.depths.bitOut.cap →
        step s = .next ((s.withTurns ts).withBlk
          { s.blk with
            q := { s.blk.q with bitOut := s.blk.q.bitOut ++ [x] }
            enc := { s.blk.enc with sr := rest }
            cnt := { s.blk.cnt with encBit := s.blk.cnt.encBit + 1 } })) ∧
      (s.blk.depths.bitOut.cap ≤ s.blk.q.bitOut.length → step s = .next (s.withTurns ts))) ∧
    (s.blk.enc.sr = [] → s.blk.enc.final = true →
      step s = .next ((s.withTurns ts).withBlk
        { s.blk with mode := .encDone, irqStatus := s.blk.irqStatus ||| 0b0010 }))

/-- 43_encoder.md R102, 44_decoder.md R111: an output port delivers the head of its queue, in every mode; with an empty
queue nothing is delivered; and no step but ABORT and reset discards a bit or a symbol once pushed, or changes the order:
what has been pushed stays the beginning of what has been pushed later. -/
def Obligations.OutputPortsDeliverInOrder : Prop :=
  (∀ (s : State) (ts : List Turn),
    (s.env.turns = .bitSnk :: ts →
      (∀ x rest, s.blk.q.bitOut = x :: rest →
        step s = .next
          { blk := { s.blk with q := { s.blk.q with bitOut := rest } }
            env := { s.env with turns := ts, bitsOut := s.env.bitsOut ++ [x] } }) ∧
      (s.blk.q.bitOut = [] → step s = .next (s.withTurns ts))) ∧
    (s.env.turns = .symSnk :: ts →
      (∀ v rest, s.blk.q.symOut = v :: rest →
        step s = .next
          { blk := { s.blk with q := { s.blk.q with symOut := rest } }
            env := { s.env with turns := ts, symsOut := s.env.symsOut ++ [v] } }) ∧
      (s.blk.q.symOut = [] → step s = .next (s.withTurns ts)))) ∧
  (∀ s s' : State, step s = .next s' →
    (s.bitStream <+: s'.bitStream ∧ s.symStream <+: s'.symStream) ∨
      s.Takes .reset ∨ s.Takes (.host (writeReq 0x008 5)))

/-- 43_encoder.md R99 to R101: in ENCODING the encoder is held exactly when it waits for a symbol or for room in
BITQ_OUT; and at most one of its three steps is enabled. -/
def Obligations.EncoderIsHeldOnlyByItsQueues : Prop :=
  ∀ b : Block,
    (b.encoderStep = none ↔
      b.mode ≠ .encoding ∨ (b.enc.sr = [] ∧ b.enc.final = false ∧ b.q.symIn = []) ∨
        (b.enc.sr ≠ [] ∧ b.depths.bitOut.cap ≤ b.q.bitOut.length)) ∧
    ¬ (b.encLoad.isSome = true ∧ b.encEmit.isSome = true) ∧ ¬ (b.encLoad.isSome = true ∧ b.encFinish.isSome = true) ∧
    ¬ (b.encEmit.isSome = true ∧ b.encFinish.isSome = true)

/-- 43_encoder.md R100, in the model's order of turns (log 2): with room for all of ENC_SR in BITQ_OUT, as many steps as it
has bits push exactly these bits, first bit first. -/
def Obligations.EncoderEmitsAWholeCode : Prop :=
  ∀ s : State, s.env.turns = [] → s.blk.mode = .encoding →
    s.blk.q.bitOut.length + s.blk.enc.sr.length ≤ s.blk.depths.bitOut.cap →
    Host.Core.run Sys2Proof.core s.blk.enc.sr.length s = .next (s.withBlk
      { s.blk with
        q := { s.blk.q with bitOut := s.blk.q.bitOut ++ s.blk.enc.sr }
        enc := { s.blk.enc with sr := [] }
        cnt := { s.blk.cnt with encBit := s.blk.cnt.encBit + BitVec.ofNat 32 s.blk.enc.sr.length } })

/-- 43_encoder.md R103: under every order of turns, a session that reaches ENC_DONE has pushed exactly the codes of the
symbols accepted before 256 and then EOF's, and counted them; one that ends in BAD_SYMBOL has pushed the codes of the
symbols before the bad one. -/
def Obligations.EncodeSessionPushesThePayload : Prop :=
  ∀ (r s t : State) (k : Nat), r.blk.mode = .ready → exec .encStart r = .next s → StaysIn .encoding k s t →
    (t.blk.mode = .encDone →
      ∃ syms : List Sym, (∀ d ∈ syms, d ≠ 256 ∧ r.blk.tree.inTree d = true) ∧
        t.env.symTaken = s.env.symTaken ++ syms ++ [256] ∧
        t.bitStream = s.bitStream ++ r.blk.tree.payload syms ∧
        t.blk.cnt.encSym = BitVec.ofNat 32 syms.length ∧
        t.blk.cnt.encBit = BitVec.ofNat 32 (r.blk.tree.payload syms).length) ∧
    (t.blk.mode = .error → t.blk.err.code = .badSymbol →
      ∃ (syms : List Sym) (d : Sym) (more : List Sym), (∀ e ∈ syms, e ≠ 256 ∧ r.blk.tree.inTree e = true) ∧
        r.blk.tree.inTree d = false ∧ t.blk.err.info = d.setWidth 16 ∧
        t.env.symTaken = s.env.symTaken ++ syms ++ d :: more ∧
        t.bitStream = s.bitStream ++ syms.flatMap r.blk.tree.codeOf)

/-! ### The decoder -/

/-- 44_decoder.md R105, R106: the port takes a bit exactly in DECODING, before the end is latched, with room in the queue;
the level `s_bit_end` is latched exactly in DECODING and once. 30_encoding.md R73: `END` asserts the level, which stays until
it is driven again. That BIT_SRC may lower the level again, at any turn, is the model's reading of R133 (log 12), and that
driving it is a turn of its own is the form of turns (log 1). -/
def Obligations.BitPortAndEndSignal : Prop :=
  ∀ (s : State) (ts : List Turn),
    (∀ x, s.env.turns = .bitSrc x :: ts →
      (s.blk.mode = .decoding ∧ s.blk.dec.inEnd = false ∧ s.blk.q.bitIn.length < s.blk.depths.bitIn.cap →
        step s = .next
          { blk := { s.blk with q := { s.blk.q with bitIn := s.blk.q.bitIn ++ [x] } }
            env := { s.env with turns := ts, bitsTaken := s.env.bitsTaken ++ [x] } }) ∧
      (¬ (s.blk.mode = .decoding ∧ s.blk.dec.inEnd = false ∧ s.blk.q.bitIn.length < s.blk.depths.bitIn.cap) →
        step s = .next (s.withTurns ts))) ∧
    (∀ level, s.env.turns = .bitEnd level :: ts →
      step s = .next { s with env := { s.env with turns := ts, bitEnd := level } }) ∧
    (s.env.turns = .latchEnd :: ts →
      (s.env.bitEnd = true ∧ s.blk.mode = .decoding ∧ s.blk.dec.inEnd = false →
        step s = .next ((s.withTurns ts).withBlk { s.blk with dec := { s.blk.dec with inEnd := true } })) ∧
      (¬ (s.env.bitEnd = true ∧ s.blk.mode = .decoding ∧ s.blk.dec.inEnd = false) →
        step s = .next (s.withTurns ts)))

/-- 44_decoder.md R107, R108: at an internal node the decoder takes the next bit and goes to the branch it names; at a leaf
of a byte it pushes the byte, when there is room, and goes back to the root. -/
def Obligations.DecoderDescendsAndEmits : Prop :=
  ∀ (s : State) (ts : List Turn), s.env.turns = .decoder :: ts → s.blk.mode = .decoding →
    (∀ zero one w x rest, s.blk.tree.node[s.blk.dec.node.toNat]? = some (.internal zero one w) →
      s.blk.q.bitIn = x :: rest →
      step s = .next ((s.withTurns ts).withBlk
        { s.blk with
          q := { s.blk.q with bitIn := rest }
          dec := { s.blk.dec with node := if x then one else zero }
          cnt := { s.blk.cnt with decBit := s.blk.cnt.decBit + 1 } })) ∧
    (∀ d w, s.blk.tree.node[s.blk.dec.node.toNat]? = some (.leaf d w) → d ≠ 256 →
      (s.blk.q.symOut.length < s.blk.depths.symOut.cap →
        step s = .next ((s.withTurns ts).withBlk
          { s.blk with
            q := { s.blk.q with symOut := s.blk.q.symOut ++ [d.setWidth 8] }
            dec := { s.blk.dec with node := s.blk.tree.root }
            cnt := { s.blk.cnt with decSym := s.blk.cnt.decSym + 1 } })) ∧
      (s.blk.depths.symOut.cap ≤ s.blk.q.symOut.length → step s = .next (s.withTurns ts)))

/-- 44_decoder.md R109, R110: at the EOF leaf the session ends, whatever the queue holds; at an internal node with no bit
left the decoder waits, and raises TRUNCATED with INFO its node once the end is latched. -/
def Obligations.DecoderFinishesOrIsTruncated : Prop :=
  ∀ (s : State) (ts : List Turn), s.env.turns = .decoder :: ts → s.blk.mode = .decoding →
    (∀ w, s.blk.tree.node[s.blk.dec.node.toNat]? = some (.leaf 256 w) →
      step s = .next ((s.withTurns ts).withBlk
        { s.blk with mode := .decDone, irqStatus := s.blk.irqStatus ||| 0b0100 })) ∧
    (∀ zero one w, s.blk.tree.node[s.blk.dec.node.toNat]? = some (.internal zero one w) → s.blk.q.bitIn = [] →
      (s.blk.dec.inEnd = true →
        step s = .next ((s.withTurns ts).withBlk
          { s.blk with
            err := ⟨.truncated, s.blk.dec.node.setWidth 16⟩, mode := .error
            irqStatus := s.blk.irqStatus ||| 0b1000 })) ∧
      (s.blk.dec.inEnd = false → step s = .next (s.withTurns ts)))

/-- 44_decoder.md, its introduction and R107 to R110: in a state that meets the invariants the decoder is held exactly when
it waits for a bit or for room in SYMQ_OUT, and at most one of its four steps is enabled. -/
def Obligations.DecoderIsHeldOnlyByItsQueues : Prop :=
  (∀ b : Block, b.Inv →
    (b.decoderStep = none ↔
      b.mode ≠ .decoding ∨
        ((∃ zero one w, b.tree.nodeAt b.dec.node = some (.internal zero one w)) ∧ b.q.bitIn = [] ∧
          b.dec.inEnd = false) ∨
        ((∃ d w, b.tree.nodeAt b.dec.node = some (.leaf d w) ∧ d ≠ 256) ∧
          b.depths.symOut.cap ≤ b.q.symOut.length))) ∧
  (∀ b : Block,
    ¬ (b.decDescend.isSome = true ∧ b.decEmit.isSome = true) ∧
      ¬ (b.decDescend.isSome = true ∧ b.decFinish.isSome = true) ∧
      ¬ (b.decDescend.isSome = true ∧ b.decTruncate.isSome = true) ∧
      ¬ (b.decEmit.isSome = true ∧ b.decFinish.isSome = true) ∧
      ¬ (b.decEmit.isSome = true ∧ b.decTruncate.isSome = true) ∧
      ¬ (b.decFinish.isSome = true ∧ b.decTruncate.isSome = true))

/-- 44_decoder.md R112 (a), (b): under every order of turns, a session that reaches DEC_DONE has consumed exactly the codes
of the symbols it pushed and then EOF's, and takes no further bit; one that ends in TRUNCATED has consumed the codes of
the symbols it pushed and then a proper prefix of a code, which leads to the node in INFO. -/
def Obligations.DecodeSessionParsesTheBits : Prop :=
  ∀ (r s t : State) (k : Nat), r.blk.Inv → r.blk.mode = .ready → exec .decStart r = .next s →
    StaysIn .decoding k s t →
    (t.blk.mode = .decDone →
      ∃ syms : List Sym, (∀ d ∈ syms, d.toNat < 256 ∧ r.blk.tree.inTree d = true) ∧
        t.env.bitsTaken = s.env.bitsTaken ++ r.blk.tree.payload syms ++ t.blk.q.bitIn ∧
        t.symStream = s.symStream ++ syms.map (fun d => d.setWidth 8) ∧
        t.blk.cnt.decSym = BitVec.ofNat 32 syms.length ∧
        t.blk.cnt.decBit = BitVec.ofNat 32 (r.blk.tree.payload syms).length ∧
        t.blk.bitReady = false) ∧
    (t.blk.mode = .error → t.blk.err.code = .truncated →
      ∃ (syms : List Sym) (rest : List Bool) (d : Sym), (∀ e ∈ syms, e.toNat < 256 ∧ r.blk.tree.inTree e = true) ∧
        r.blk.tree.inTree d = true ∧ rest <+: r.blk.tree.codeOf d ∧ rest ≠ r.blk.tree.codeOf d ∧
        t.env.bitsTaken = s.env.bitsTaken ++ syms.flatMap r.blk.tree.codeOf ++ rest ∧
        t.symStream = s.symStream ++ syms.map (fun e => e.setWidth 8) ∧
        r.blk.tree.follow r.blk.tree.root rest = some t.blk.dec.node ∧
        t.blk.err.info = t.blk.dec.node.setWidth 16)

/-- 44_decoder.md R113: two sessions on trees of equal tables, under every order of turns. If the decode session has taken
the bits the encode session pushed (and perhaps more), then it is not truncated, and when it ends it has pushed the
symbols encoded; if it has taken only a proper prefix of them, it has not ended in DEC_DONE. -/
def Obligations.DecodingInvertsEncoding : Prop :=
  ∀ (a a₁ a₂ d d₁ d₂ : State) (j k : Nat) (syms : List Sym) (payload taken : List Bool),
    a.blk.Inv → d.blk.Inv → a.blk.mode = .ready → d.blk.mode = .ready → a.blk.freq = d.blk.freq →
    exec .encStart a = .next a₁ → StaysIn .encoding j a₁ a₂ → a₂.blk.mode = .encDone →
    exec .decStart d = .next d₁ → StaysIn .decoding k d₁ d₂ →
    a₂.env.symTaken = a₁.env.symTaken ++ syms ++ [256] → a₂.bitStream = a₁.bitStream ++ payload →
    d₂.env.bitsTaken = d₁.env.bitsTaken ++ taken →
    (payload <+: taken →
      (d₂.blk.mode = .decDone → d₂.symStream = d₁.symStream ++ syms.map fun e => e.setWidth 8) ∧
        ¬ (d₂.blk.mode = .error ∧ d₂.blk.err.code = .truncated)) ∧
    (taken <+: payload → taken ≠ payload → d₂.blk.mode ≠ .decDone)

/-! ### The whole machine -/

/-- 70_reset_and_hazards.md R127, 10_state.md R46: the reset step, in any mode, gives every piece of the block's state its
value after reset; only the constants of the build survive. That what stands around the block (the turns and the program
to come, the level of `s_bit_end`, the records) goes on as it was is the model's own choice (log 9). -/
def Obligations.ResetGivesTheResetState : Prop :=
  ∀ (s : State) (ts : List Turn), s.env.turns = .reset :: ts →
    ∃ b : Block, step s = .next ((s.withTurns ts).withBlk b) ∧
      b.depths = s.blk.depths ∧ b.mode = .idle ∧ b.tree.valid = false ∧ (∀ k : Fin 256, b.freq[k] = 0) ∧
      b.readReg .freqEof = 1 ∧ b.err = ⟨.none, 0⟩ ∧ b.irqStatus = 0 ∧ b.irqEnable = 0 ∧ b.codeSel = 0 ∧
      b.cnt = ⟨0, 0, 0, 0⟩ ∧ b.enc = ⟨[], false, false⟩ ∧ b.dec = ⟨0, false⟩ ∧ b.q = ⟨[], [], [], []⟩ ∧
      b.irq = false ∧ b.symReady = false ∧ b.bitValid = false ∧ b.bitReady = false ∧ b.symValid = false

/-- The invariants hold right after reset (10_state.md R46). -/
def Obligations.ResetStateMeetsTheInvariants : Prop := State.reset.blk.Inv

/-- Each of three invariants is kept by every step on its own: the mode and TREE_VALID (10_state.md R21), ERR and ERROR
(60_exceptions.md R115, R118), the capacities (10_state.md R41). -/
def Obligations.StepKeepsControlInvariants : Prop :=
  ∀ s s' : State, step s = .next s' →
    (s.blk.ModeTree → s'.blk.ModeTree) ∧ (s.blk.ErrRecord → s'.blk.ErrRecord) ∧
      (s.blk.QueueBounds → s'.blk.QueueBounds)

/-- Every step keeps the invariants of the block: among them, that a valid tree is the tree of the table as it stands
(42_tree_build.md R95), that the decoder stands in the tree, and that nothing follows EOF. -/
def Obligations.StepKeepsTheInvariants : Prop :=
  ∀ s s' : State, s.blk.Inv → step s = .next s' → s'.blk.Inv

/-- 10_state.md R21, 42_tree_build.md R96: the changes of MODE and the steps that make them. READY is entered only from
BUILDING and a session only from READY, so a tree serves one session; IDLE is entered by ABORT and reset, and from a
resting mode by a change of the frequency table; ERROR only by the errors of 60_exceptions.md R114. -/
def Obligations.ModeChangesOnlyAsNamed : Prop :=
  ∀ s s' : State, step s = .next s' → s'.blk.mode ≠ s.blk.mode →
    let writes : BitVec 14 → Word → Prop := fun off w => s.Takes (.host (writeReq off w))
    let writesFreq : Prop := ∃ (k : Fin 256) (w : Word), writes (BitVec.ofNat 14 (0x800 + 4 * k.val)) w
    let engineRuns : Prop := s.blk.mode = .building ∨ s.blk.mode = .encoding ∨ s.blk.mode = .decoding
    match s'.blk.mode with
    | .idle =>
      s.Takes .reset ∨ writes 0x008 5 ∨
        ((s.blk.mode = .ready ∨ s.blk.mode = .encDone ∨ s.blk.mode = .decDone) ∧ (writes 0x008 1 ∨ writesFreq))
    | .building =>
      (s.blk.mode = .idle ∨ s.blk.mode = .ready ∨ s.blk.mode = .encDone ∨ s.blk.mode = .decDone) ∧ writes 0x008 2
    | .ready => s.blk.mode = .building ∧ freqTotal s.blk.freq ≤ 0xFFFFFFFF
    | .encoding => s.blk.mode = .ready ∧ writes 0x008 3
    | .decoding => s.blk.mode = .ready ∧ writes 0x008 4
    | .encDone => s.blk.mode = .encoding
    | .decDone => s.blk.mode = .decoding
    | .error =>
      (s'.blk.err.code = .illegalCmd ∧ ∃ w, writes 0x008 w ∧ (w.toNat = 0 ∨ 5 < w.toNat)) ∨
        (s'.blk.err.code = .badState ∧
          ((engineRuns ∧ (writes 0x008 1 ∨ writes 0x008 2 ∨ writesFreq)) ∨
            (s.blk.mode ≠ .ready ∧ (writes 0x008 3 ∨ writes 0x008 4)))) ∨
        (s'.blk.err.code = .weightOvf ∧ s.blk.mode = .building ∧ 0xFFFFFFFF < freqTotal s.blk.freq) ∨
        (s'.blk.err.code = .badSymbol ∧ s.blk.mode = .encoding) ∨
        (s'.blk.err.code = .truncated ∧ s.blk.mode = .decoding)

/-- 60_exceptions.md R122: a counter stays, adds 1 modulo 2^32 in a step of its engine, or becomes 0 at its session's start
or at reset. -/
def Obligations.CountersChangeOnlyAsNamed : Prop :=
  ∀ s s' : State, step s = .next s' →
    (s'.blk.cnt.encSym = s.blk.cnt.encSym ∨
      (s.blk.mode = .encoding ∧ s.blk.enc.sr = [] ∧ s'.blk.cnt.encSym = s.blk.cnt.encSym + 1) ∨
      (s'.blk.cnt.encSym = 0 ∧ (s.Takes .reset ∨ (s.blk.mode = .ready ∧ s'.blk.mode = .encoding)))) ∧
    (s'.blk.cnt.encBit = s.blk.cnt.encBit ∨
      (s'.blk.q.bitOut.length = s.blk.q.bitOut.length + 1 ∧ s'.blk.cnt.encBit = s.blk.cnt.encBit + 1) ∨
      (s'.blk.cnt.encBit = 0 ∧ (s.Takes .reset ∨ (s.blk.mode = .ready ∧ s'.blk.mode = .encoding)))) ∧
    (s'.blk.cnt.decSym = s.blk.cnt.decSym ∨
      (s'.blk.q.symOut.length = s.blk.q.symOut.length + 1 ∧ s'.blk.cnt.decSym = s.blk.cnt.decSym + 1) ∨
      (s'.blk.cnt.decSym = 0 ∧ (s.Takes .reset ∨ (s.blk.mode = .ready ∧ s'.blk.mode = .decoding)))) ∧
    (s'.blk.cnt.decBit = s.blk.cnt.decBit ∨
      (s.blk.mode = .decoding ∧ s.blk.q.bitIn.length = s'.blk.q.bitIn.length + 1 ∧
        s'.blk.cnt.decBit = s.blk.cnt.decBit + 1) ∨
      (s'.blk.cnt.decBit = 0 ∧ (s.Takes .reset ∨ (s.blk.mode = .ready ∧ s'.blk.mode = .decoding))))

/-- Every step of the machine answers a next state: errors and bus errors are next states (60_exceptions.md R115,
20_memory.md R50), and a held agent is no stop (00_scope.md R5; log 1, 10). -/
def Obligations.EveryStepAnswersANextState : Prop := ∀ s : State, ∃ s' : State, step s = .next s'
end

