-- ==== Sys2Proof/Laws/State.lean ====
section
/-! SUPPORT. What the named updates of the state change and keep, one lemma per field. -/

namespace Sys2Proof.Machine

/-! ### Updates of the state -/

@[simp] theorem State.withBlk_blk (s : State) (b : Block) : (s.withBlk b).blk = b := rfl
@[simp] theorem State.withBlk_env (s : State) (b : Block) : (s.withBlk b).env = s.env := rfl
@[simp] theorem State.withTurns_blk (s : State) (ts : List Turn) : (s.withTurns ts).blk = s.blk := rfl
@[simp] theorem State.withTurns_turns (s : State) (ts : List Turn) : (s.withTurns ts).env.turns = ts := rfl
@[simp] theorem State.withTurns_prog (s : State) (ts : List Turn) : (s.withTurns ts).env.prog = s.env.prog := rfl
@[simp] theorem State.withTurns_answers (s : State) (ts : List Turn) : (s.withTurns ts).env.answers = s.env.answers := rfl
@[simp] theorem State.withTurns_bitEnd (s : State) (ts : List Turn) : (s.withTurns ts).env.bitEnd = s.env.bitEnd := rfl
@[simp] theorem State.withTurns_symTaken (s : State) (ts : List Turn) : (s.withTurns ts).env.symTaken = s.env.symTaken := rfl
@[simp] theorem State.withTurns_bitsOut (s : State) (ts : List Turn) : (s.withTurns ts).env.bitsOut = s.env.bitsOut := rfl
@[simp] theorem State.withTurns_bitsTaken (s : State) (ts : List Turn) : (s.withTurns ts).env.bitsTaken = s.env.bitsTaken := rfl
@[simp] theorem State.withTurns_symsOut (s : State) (ts : List Turn) : (s.withTurns ts).env.symsOut = s.env.symsOut := rfl
@[simp] theorem State.withProg_blk (s : State) (p : List Stmt) : (s.withProg p).blk = s.blk := rfl
@[simp] theorem State.withProg_turns (s : State) (p : List Stmt) : (s.withProg p).env.turns = s.env.turns := rfl
@[simp] theorem State.withProg_prog (s : State) (p : List Stmt) : (s.withProg p).env.prog = p := rfl
@[simp] theorem State.withProg_answers (s : State) (p : List Stmt) : (s.withProg p).env.answers = s.env.answers := rfl
@[simp] theorem State.withProg_bitEnd (s : State) (p : List Stmt) : (s.withProg p).env.bitEnd = s.env.bitEnd := rfl
@[simp] theorem State.withProg_symTaken (s : State) (p : List Stmt) : (s.withProg p).env.symTaken = s.env.symTaken := rfl
@[simp] theorem State.withProg_bitsOut (s : State) (p : List Stmt) : (s.withProg p).env.bitsOut = s.env.bitsOut := rfl
@[simp] theorem State.withProg_bitsTaken (s : State) (p : List Stmt) : (s.withProg p).env.bitsTaken = s.env.bitsTaken := rfl
@[simp] theorem State.withProg_symsOut (s : State) (p : List Stmt) : (s.withProg p).env.symsOut = s.env.symsOut := rfl
@[simp] theorem State.answer_blk (s : State) (v : Word) (e : Bool) : (s.answer v e).blk = s.blk := rfl
@[simp] theorem State.answer_turns (s : State) (v : Word) (e : Bool) : (s.answer v e).env.turns = s.env.turns := rfl
@[simp] theorem State.answer_prog (s : State) (v : Word) (e : Bool) : (s.answer v e).env.prog = s.env.prog := rfl
@[simp] theorem State.answer_answers (s : State) (v : Word) (e : Bool) : (s.answer v e).env.answers = s.env.answers ++ [⟨v, e⟩] := rfl
@[simp] theorem State.answer_bitEnd (s : State) (v : Word) (e : Bool) : (s.answer v e).env.bitEnd = s.env.bitEnd := rfl
@[simp] theorem State.answer_symTaken (s : State) (v : Word) (e : Bool) : (s.answer v e).env.symTaken = s.env.symTaken := rfl
@[simp] theorem State.answer_bitsOut (s : State) (v : Word) (e : Bool) : (s.answer v e).env.bitsOut = s.env.bitsOut := rfl
@[simp] theorem State.answer_bitsTaken (s : State) (v : Word) (e : Bool) : (s.answer v e).env.bitsTaken = s.env.bitsTaken := rfl
@[simp] theorem State.answer_symsOut (s : State) (v : Word) (e : Bool) : (s.answer v e).env.symsOut = s.env.symsOut := rfl

/-! ### raise (60_exceptions.md R115) -/

@[simp] theorem Block.raise_depths (b : Block) (c : ErrCode) (i : BitVec 16) : (b.raise c i).depths = b.depths := rfl
@[simp] theorem Block.raise_mode (b : Block) (c : ErrCode) (i : BitVec 16) : (b.raise c i).mode = .error := rfl
@[simp] theorem Block.raise_freq (b : Block) (c : ErrCode) (i : BitVec 16) : (b.raise c i).freq = b.freq := rfl
@[simp] theorem Block.raise_tree (b : Block) (c : ErrCode) (i : BitVec 16) : (b.raise c i).tree = b.tree := rfl
@[simp] theorem Block.raise_err (b : Block) (c : ErrCode) (i : BitVec 16) : (b.raise c i).err = ⟨c, i⟩ := rfl
@[simp] theorem Block.raise_irqStatus (b : Block) (c : ErrCode) (i : BitVec 16) : (b.raise c i).irqStatus = setIrq b.irqStatus .error := rfl
@[simp] theorem Block.raise_irqEnable (b : Block) (c : ErrCode) (i : BitVec 16) : (b.raise c i).irqEnable = b.irqEnable := rfl
@[simp] theorem Block.raise_codeSel (b : Block) (c : ErrCode) (i : BitVec 16) : (b.raise c i).codeSel = b.codeSel := rfl
@[simp] theorem Block.raise_enc (b : Block) (c : ErrCode) (i : BitVec 16) : (b.raise c i).enc = b.enc := rfl
@[simp] theorem Block.raise_dec (b : Block) (c : ErrCode) (i : BitVec 16) : (b.raise c i).dec = b.dec := rfl
@[simp] theorem Block.raise_cnt (b : Block) (c : ErrCode) (i : BitVec 16) : (b.raise c i).cnt = b.cnt := rfl
@[simp] theorem Block.raise_q (b : Block) (c : ErrCode) (i : BitVec 16) : (b.raise c i).q = b.q := rfl

/-! ### ABORT (40_command.md R77) -/

@[simp] theorem Block.abort_depths (b : Block) : (b.abort).depths = b.depths := rfl
@[simp] theorem Block.abort_mode (b : Block) : (b.abort).mode = .idle := rfl
@[simp] theorem Block.abort_freq (b : Block) : (b.abort).freq = b.freq := rfl
@[simp] theorem Block.abort_tree (b : Block) : (b.abort).tree = { b.tree with valid := false } := rfl
@[simp] theorem Block.abort_err (b : Block) : (b.abort).err = ⟨.none, 0⟩ := rfl
@[simp] theorem Block.abort_irqStatus (b : Block) : (b.abort).irqStatus = b.irqStatus := rfl
@[simp] theorem Block.abort_irqEnable (b : Block) : (b.abort).irqEnable = b.irqEnable := rfl
@[simp] theorem Block.abort_codeSel (b : Block) : (b.abort).codeSel = b.codeSel := rfl
@[simp] theorem Block.abort_enc (b : Block) : (b.abort).enc = ⟨[], false, false⟩ := rfl
@[simp] theorem Block.abort_dec (b : Block) : (b.abort).dec = ⟨0, false⟩ := rfl
@[simp] theorem Block.abort_cnt (b : Block) : (b.abort).cnt = b.cnt := rfl
@[simp] theorem Block.abort_q (b : Block) : (b.abort).q = ⟨[], [], [], []⟩ := rfl

/-! ### Dropping the tree (41_freq_table.md R81) -/

@[simp] theorem Block.dropTree_depths (b : Block) : (b.dropTree).depths = b.depths := rfl
@[simp] theorem Block.dropTree_mode (b : Block) : (b.dropTree).mode = .idle := rfl
@[simp] theorem Block.dropTree_freq (b : Block) : (b.dropTree).freq = b.freq := rfl
@[simp] theorem Block.dropTree_tree (b : Block) : (b.dropTree).tree = { b.tree with valid := false } := rfl
@[simp] theorem Block.dropTree_err (b : Block) : (b.dropTree).err = b.err := rfl
@[simp] theorem Block.dropTree_irqStatus (b : Block) : (b.dropTree).irqStatus = b.irqStatus := rfl
@[simp] theorem Block.dropTree_irqEnable (b : Block) : (b.dropTree).irqEnable = b.irqEnable := rfl
@[simp] theorem Block.dropTree_codeSel (b : Block) : (b.dropTree).codeSel = b.codeSel := rfl
@[simp] theorem Block.dropTree_enc (b : Block) : (b.dropTree).enc = b.enc := rfl
@[simp] theorem Block.dropTree_dec (b : Block) : (b.dropTree).dec = b.dec := rfl
@[simp] theorem Block.dropTree_cnt (b : Block) : (b.dropTree).cnt = b.cnt := rfl
@[simp] theorem Block.dropTree_q (b : Block) : (b.dropTree).q = b.q := rfl

/-! ### BUILD (42_tree_build.md R85) -/

@[simp] theorem Block.startBuild_depths (b : Block) : (b.startBuild).depths = b.depths := rfl
@[simp] theorem Block.startBuild_mode (b : Block) : (b.startBuild).mode = .building := rfl
@[simp] theorem Block.startBuild_freq (b : Block) : (b.startBuild).freq = b.freq := rfl
@[simp] theorem Block.startBuild_tree (b : Block) : (b.startBuild).tree = { b.tree with valid := false } := rfl
@[simp] theorem Block.startBuild_err (b : Block) : (b.startBuild).err = b.err := rfl
@[simp] theorem Block.startBuild_irqStatus (b : Block) : (b.startBuild).irqStatus = b.irqStatus := rfl
@[simp] theorem Block.startBuild_irqEnable (b : Block) : (b.startBuild).irqEnable = b.irqEnable := rfl
@[simp] theorem Block.startBuild_codeSel (b : Block) : (b.startBuild).codeSel = b.codeSel := rfl
@[simp] theorem Block.startBuild_enc (b : Block) : (b.startBuild).enc = b.enc := rfl
@[simp] theorem Block.startBuild_dec (b : Block) : (b.startBuild).dec = b.dec := rfl
@[simp] theorem Block.startBuild_cnt (b : Block) : (b.startBuild).cnt = b.cnt := rfl
@[simp] theorem Block.startBuild_q (b : Block) : (b.startBuild).q = b.q := rfl

/-! ### FREQ_CLEAR (41_freq_table.md R83) -/

@[simp] theorem Block.clearFreq_depths (b : Block) : (b.clearFreq).depths = b.depths := rfl
@[simp] theorem Block.clearFreq_mode (b : Block) : (b.clearFreq).mode = .idle := rfl
@[simp] theorem Block.clearFreq_freq (b : Block) : (b.clearFreq).freq = Vector.replicate 256 0 := rfl
@[simp] theorem Block.clearFreq_tree (b : Block) : (b.clearFreq).tree = { b.tree with valid := false } := rfl
@[simp] theorem Block.clearFreq_err (b : Block) : (b.clearFreq).err = b.err := rfl
@[simp] theorem Block.clearFreq_irqStatus (b : Block) : (b.clearFreq).irqStatus = b.irqStatus := rfl
@[simp] theorem Block.clearFreq_irqEnable (b : Block) : (b.clearFreq).irqEnable = b.irqEnable := rfl
@[simp] theorem Block.clearFreq_codeSel (b : Block) : (b.clearFreq).codeSel = b.codeSel := rfl
@[simp] theorem Block.clearFreq_enc (b : Block) : (b.clearFreq).enc = b.enc := rfl
@[simp] theorem Block.clearFreq_dec (b : Block) : (b.clearFreq).dec = b.dec := rfl
@[simp] theorem Block.clearFreq_cnt (b : Block) : (b.clearFreq).cnt = b.cnt := rfl
@[simp] theorem Block.clearFreq_q (b : Block) : (b.clearFreq).q = b.q := rfl

/-! ### ENC_START (43_encoder.md R97) -/

@[simp] theorem Block.startEncode_depths (b : Block) : (b.startEncode).depths = b.depths := rfl
@[simp] theorem Block.startEncode_mode (b : Block) : (b.startEncode).mode = .encoding := rfl
@[simp] theorem Block.startEncode_freq (b : Block) : (b.startEncode).freq = b.freq := rfl
@[simp] theorem Block.startEncode_tree (b : Block) : (b.startEncode).tree = b.tree := rfl
@[simp] theorem Block.startEncode_err (b : Block) : (b.startEncode).err = b.err := rfl
@[simp] theorem Block.startEncode_irqStatus (b : Block) : (b.startEncode).irqStatus = b.irqStatus := rfl
@[simp] theorem Block.startEncode_irqEnable (b : Block) : (b.startEncode).irqEnable = b.irqEnable := rfl
@[simp] theorem Block.startEncode_codeSel (b : Block) : (b.startEncode).codeSel = b.codeSel := rfl
@[simp] theorem Block.startEncode_enc (b : Block) : (b.startEncode).enc = ⟨[], false, false⟩ := rfl
@[simp] theorem Block.startEncode_dec (b : Block) : (b.startEncode).dec = b.dec := rfl
@[simp] theorem Block.startEncode_cnt (b : Block) : (b.startEncode).cnt = { b.cnt with encSym := 0, encBit := 0 } := rfl
@[simp] theorem Block.startEncode_q (b : Block) : (b.startEncode).q = { b.q with symIn := [] } := rfl

/-! ### DEC_START (44_decoder.md R104) -/

@[simp] theorem Block.startDecode_depths (b : Block) : (b.startDecode).depths = b.depths := rfl
@[simp] theorem Block.startDecode_mode (b : Block) : (b.startDecode).mode = .decoding := rfl
@[simp] theorem Block.startDecode_freq (b : Block) : (b.startDecode).freq = b.freq := rfl
@[simp] theorem Block.startDecode_tree (b : Block) : (b.startDecode).tree = b.tree := rfl
@[simp] theorem Block.startDecode_err (b : Block) : (b.startDecode).err = b.err := rfl
@[simp] theorem Block.startDecode_irqStatus (b : Block) : (b.startDecode).irqStatus = b.irqStatus := rfl
@[simp] theorem Block.startDecode_irqEnable (b : Block) : (b.startDecode).irqEnable = b.irqEnable := rfl
@[simp] theorem Block.startDecode_codeSel (b : Block) : (b.startDecode).codeSel = b.codeSel := rfl
@[simp] theorem Block.startDecode_enc (b : Block) : (b.startDecode).enc = b.enc := rfl
@[simp] theorem Block.startDecode_dec (b : Block) : (b.startDecode).dec = ⟨b.tree.root, false⟩ := rfl
@[simp] theorem Block.startDecode_cnt (b : Block) : (b.startDecode).cnt = { b.cnt with decSym := 0, decBit := 0 } := rfl
@[simp] theorem Block.startDecode_q (b : Block) : (b.startDecode).q = { b.q with bitIn := [] } := rfl

/-! ### IRQ_STATUS write (40_command.md R78) -/

@[simp] theorem Block.writeIrqStatus_depths (b : Block) (w : Word) : (b.writeIrqStatus w).depths = b.depths := rfl
@[simp] theorem Block.writeIrqStatus_mode (b : Block) (w : Word) : (b.writeIrqStatus w).mode = b.mode := rfl
@[simp] theorem Block.writeIrqStatus_freq (b : Block) (w : Word) : (b.writeIrqStatus w).freq = b.freq := rfl
@[simp] theorem Block.writeIrqStatus_tree (b : Block) (w : Word) : (b.writeIrqStatus w).tree = b.tree := rfl
@[simp] theorem Block.writeIrqStatus_err (b : Block) (w : Word) : (b.writeIrqStatus w).err = b.err := rfl
@[simp] theorem Block.writeIrqStatus_irqStatus (b : Block) (w : Word) : (b.writeIrqStatus w).irqStatus = b.irqStatus &&& ~~~ irqMask w := rfl
@[simp] theorem Block.writeIrqStatus_irqEnable (b : Block) (w : Word) : (b.writeIrqStatus w).irqEnable = b.irqEnable := rfl
@[simp] theorem Block.writeIrqStatus_codeSel (b : Block) (w : Word) : (b.writeIrqStatus w).codeSel = b.codeSel := rfl
@[simp] theorem Block.writeIrqStatus_enc (b : Block) (w : Word) : (b.writeIrqStatus w).enc = b.enc := rfl
@[simp] theorem Block.writeIrqStatus_dec (b : Block) (w : Word) : (b.writeIrqStatus w).dec = b.dec := rfl
@[simp] theorem Block.writeIrqStatus_cnt (b : Block) (w : Word) : (b.writeIrqStatus w).cnt = b.cnt := rfl
@[simp] theorem Block.writeIrqStatus_q (b : Block) (w : Word) : (b.writeIrqStatus w).q = b.q := rfl

/-! ### IRQ_ENABLE write (40_command.md R79) -/

@[simp] theorem Block.writeIrqEnable_depths (b : Block) (w : Word) : (b.writeIrqEnable w).depths = b.depths := rfl
@[simp] theorem Block.writeIrqEnable_mode (b : Block) (w : Word) : (b.writeIrqEnable w).mode = b.mode := rfl
@[simp] theorem Block.writeIrqEnable_freq (b : Block) (w : Word) : (b.writeIrqEnable w).freq = b.freq := rfl
@[simp] theorem Block.writeIrqEnable_tree (b : Block) (w : Word) : (b.writeIrqEnable w).tree = b.tree := rfl
@[simp] theorem Block.writeIrqEnable_err (b : Block) (w : Word) : (b.writeIrqEnable w).err = b.err := rfl
@[simp] theorem Block.writeIrqEnable_irqStatus (b : Block) (w : Word) : (b.writeIrqEnable w).irqStatus = b.irqStatus := rfl
@[simp] theorem Block.writeIrqEnable_irqEnable (b : Block) (w : Word) : (b.writeIrqEnable w).irqEnable = irqMask w := rfl
@[simp] theorem Block.writeIrqEnable_codeSel (b : Block) (w : Word) : (b.writeIrqEnable w).codeSel = b.codeSel := rfl
@[simp] theorem Block.writeIrqEnable_enc (b : Block) (w : Word) : (b.writeIrqEnable w).enc = b.enc := rfl
@[simp] theorem Block.writeIrqEnable_dec (b : Block) (w : Word) : (b.writeIrqEnable w).dec = b.dec := rfl
@[simp] theorem Block.writeIrqEnable_cnt (b : Block) (w : Word) : (b.writeIrqEnable w).cnt = b.cnt := rfl
@[simp] theorem Block.writeIrqEnable_q (b : Block) (w : Word) : (b.writeIrqEnable w).q = b.q := rfl

/-! ### CODE_SEL write (40_command.md R80) -/

@[simp] theorem Block.writeCodeSel_depths (b : Block) (w : Word) : (b.writeCodeSel w).depths = b.depths := rfl
@[simp] theorem Block.writeCodeSel_mode (b : Block) (w : Word) : (b.writeCodeSel w).mode = b.mode := rfl
@[simp] theorem Block.writeCodeSel_freq (b : Block) (w : Word) : (b.writeCodeSel w).freq = b.freq := rfl
@[simp] theorem Block.writeCodeSel_tree (b : Block) (w : Word) : (b.writeCodeSel w).tree = b.tree := rfl
@[simp] theorem Block.writeCodeSel_err (b : Block) (w : Word) : (b.writeCodeSel w).err = b.err := rfl
@[simp] theorem Block.writeCodeSel_irqStatus (b : Block) (w : Word) : (b.writeCodeSel w).irqStatus = b.irqStatus := rfl
@[simp] theorem Block.writeCodeSel_irqEnable (b : Block) (w : Word) : (b.writeCodeSel w).irqEnable = b.irqEnable := rfl
@[simp] theorem Block.writeCodeSel_codeSel (b : Block) (w : Word) : (b.writeCodeSel w).codeSel = selector w := rfl
@[simp] theorem Block.writeCodeSel_enc (b : Block) (w : Word) : (b.writeCodeSel w).enc = b.enc := rfl
@[simp] theorem Block.writeCodeSel_dec (b : Block) (w : Word) : (b.writeCodeSel w).dec = b.dec := rfl
@[simp] theorem Block.writeCodeSel_cnt (b : Block) (w : Word) : (b.writeCodeSel w).cnt = b.cnt := rfl
@[simp] theorem Block.writeCodeSel_q (b : Block) (w : Word) : (b.writeCodeSel w).q = b.q := rfl

end Sys2Proof.Machine
end

