-- ==== Sys2Proof/Laws/Ops.lean ====
section
/-! SUPPORT. One lemma per shared operation and per engine step: everything it can do. -/

namespace Sys2Proof.Machine

/-! ### Depths and queues -/

theorem Depth.cap_pos (d : Depth) : 1 ≤ d.cap := by simp [Depth.cap]

theorem Depth.cap_le (d : Depth) : d.cap ≤ 255 := by
  have := d.below.isLt
  simp only [Depth.cap]; omega

@[simp] theorem qFull_eq_false {α : Type} {d : Depth} {q : List α} : qFull d q = false ↔ q.length < d.cap := by
  simp [qFull]

@[simp] theorem qPush_length {α : Type} (q : List α) (v : α) : (qPush q v).length = q.length + 1 := by
  simp [qPush]

/-! ### The frequency table -/

@[simp] theorem freqAt_eof (f : Vector Word 256) : freqAt f EOF = 1 := by simp [freqAt]

theorem freqAt_byte (f : Vector Word 256) (s : Fin 256) : freqAt f s.val = f[s] := by
  have h := s.isLt
  have hne : ¬ s.val = EOF := by simp only [EOF]; omega
  simp [freqAt, hne]

theorem freqAt_set_same (f : Vector Word 256) (s : Fin 256) (w : Word) :
    freqAt (f.set s.val w s.isLt) s.val = w := by
  rw [freqAt_byte]; simp

theorem freqAt_set_other (f : Vector Word 256) (s : Fin 256) (w : Word) {k : Nat} (h : k ≠ s.val) :
    freqAt (f.set s.val w s.isLt) k = freqAt f k := by
  simp [freqAt, Ne.symm h]

/-- The exact total is the sum over all 257 symbols. -/
theorem freqTotal_pos (f : Vector Word 256) : 1 ≤ freqTotal f := by simp [freqTotal]

/-! ### The interrupt flags -/

theorem setIrq_getLsbD (v : BitVec 4) (src : IrqSource) (k : Nat) :
    (setIrq v src).getLsbD k = (v.getLsbD k || src.mask.getLsbD k) := by
  simp [setIrq]

/-! ### Commands -/

/-- A command is ignored in ERROR, performed where it is permitted, rejected elsewhere. -/
theorem Block.command_cases (b : Block) (op : BitVec 8) (ms : List Mode) (e : Block → Block) :
    (b.mode = .error ∧ b.command op ms e = b) ∨
      (b.mode ≠ .error ∧ b.mode ∈ ms ∧ b.command op ms e = e b) ∨
      (b.mode ≠ .error ∧ b.mode ∉ ms ∧ b.command op ms e = b.raise .badState (op.setWidth 16)) := by
  unfold Block.command
  by_cases h : b.mode = .error
  · exact .inl ⟨h, if_pos h⟩
  · by_cases hm : b.mode ∈ ms
    · exact .inr (.inl ⟨h, hm, by rw [if_neg h, if_pos hm]⟩)
    · exact .inr (.inr ⟨h, hm, by rw [if_neg h, if_neg hm]⟩)

/-- A FREQ[s] write is ignored in ERROR, rejected while an engine runs, performed elsewhere. -/
theorem Block.writeFreq_cases (b : Block) (s : Fin 256) (w : Word) :
    (b.mode = .error ∧ b.writeFreq s w = b) ∨
      (b.mode ∈ [Mode.building, .encoding, .decoding] ∧ b.writeFreq s w = b.raise .badState (freqInfo s)) ∨
      (b.mode ∈ restingModes ∧ b.writeFreq s w = { b with freq := b.freq.set s.val w s.isLt }.dropTree) := by
  unfold Block.writeFreq restingModes
  cases b.mode <;> simp

/-- An illegal word is ignored in ERROR and raises ILLEGAL_CMD elsewhere. -/
theorem Block.illegalCmd_cases (b : Block) (w : Word) :
    (b.mode = .error ∧ b.illegalCmd w = b) ∨
      (b.mode ≠ .error ∧ b.illegalCmd w = b.raise .illegalCmd (w.extractLsb' 0 16)) := by
  unfold Block.illegalCmd
  by_cases h : b.mode = .error
  · exact .inl ⟨h, if_pos h⟩
  · exact .inr ⟨h, if_neg h⟩

/-! ### The builder -/

theorem Block.builderStep_cases {b b' : Block} (h : b.builderStep = some b') :
    b.mode = .building ∧
      ((WMAX < freqTotal b.freq ∧ b' = b.raise .weightOvf 0) ∨
        (freqTotal b.freq ≤ WMAX ∧ b' = { b with
          tree := (buildTree b.freq).toTree b.tree.node, mode := .ready, irqStatus := setIrq b.irqStatus .buildDone })) := by
  unfold Block.builderStep at h
  split at h
  · rename_i hm
    split at h
    · rename_i hw; cases h; exact ⟨hm, .inl ⟨hw, rfl⟩⟩
    · rename_i hw; cases h; exact ⟨hm, .inr ⟨Nat.le_of_not_lt hw, rfl⟩⟩
  · cases h

/-! ### The encoder -/

theorem Block.encLoad_cases {b b' : Block} (h : b.encLoad = some b') :
    b.mode = .encoding ∧ b.enc.sr = [] ∧ b.enc.final = false ∧ ∃ s rest, b.q.symIn = s :: rest ∧
      ((b.tree.inTree s = false ∧ b' = { b with q := { b.q with symIn := rest } }.raise .badSymbol (symInfo s)) ∨
        (b.tree.inTree s = true ∧ s.toNat = EOF ∧ b' = { b with
          q := { b.q with symIn := rest }, enc := { b.enc with sr := b.tree.codeOf s, final := true } }) ∨
        (b.tree.inTree s = true ∧ s.toNat ≠ EOF ∧ b' = { b with
          q := { b.q with symIn := rest }, enc := { b.enc with sr := b.tree.codeOf s }
          cnt := { b.cnt with encSym := b.cnt.encSym + 1 } })) := by
  unfold Block.encLoad at h
  split at h
  · rename_i hg
    split at h
    · cases h
    · rename_i s rest hq
      refine ⟨hg.1, hg.2.1, hg.2.2, s, rest, hq, ?_⟩
      simp only at h
      split at h
      · rename_i ht
        split at h
        · rename_i he; cases h; exact .inr (.inl ⟨ht, he, rfl⟩)
        · rename_i he; cases h; exact .inr (.inr ⟨ht, he, rfl⟩)
      · rename_i ht; cases h; exact .inl ⟨by simpa using ht, rfl⟩
  · cases h

theorem Block.encEmit_cases {b b' : Block} (h : b.encEmit = some b') :
    b.mode = .encoding ∧ b.q.bitOut.length < b.depths.bitOut.cap ∧ ∃ x rest, b.enc.sr = x :: rest ∧
      b' = { b with
        q := { b.q with bitOut := b.q.bitOut ++ [x] }, enc := { b.enc with sr := rest }
        cnt := { b.cnt with encBit := b.cnt.encBit + 1 } } := by
  unfold Block.encEmit at h
  split at h
  · cases h
  · rename_i x rest hs
    split at h
    · rename_i hg; cases h; exact ⟨hg.1, by simpa using hg.2, x, rest, hs, rfl⟩
    · cases h

theorem Block.encFinish_cases {b b' : Block} (h : b.encFinish = some b') :
    b.mode = .encoding ∧ b.enc.sr = [] ∧ b.enc.final = true ∧
      b' = { b with mode := .encDone, irqStatus := setIrq b.irqStatus .encDone } := by
  unfold Block.encFinish at h
  split at h
  · rename_i hg; cases h; exact ⟨hg.1, hg.2.1, hg.2.2, rfl⟩
  · cases h

/-- The encoder's step is one of its three. -/
theorem Block.encoderStep_cases {b b' : Block} (h : b.encoderStep = some b') :
    b.encLoad = some b' ∨ b.encEmit = some b' ∨ b.encFinish = some b' := by
  unfold Block.encoderStep at h
  cases h₁ : b.encLoad with
  | some c => simp [h₁] at h; exact .inl (by rw [h])
  | none =>
    cases h₂ : b.encEmit with
    | some c => simp [h₁, h₂] at h; exact .inr (.inl (by rw [h]))
    | none => simp [h₁, h₂] at h; exact .inr (.inr h)

/-! ### The decoder -/

theorem Block.decAt_eq_some {b : Block} {n : Node} :
    b.decAt = some n ↔ b.mode = .decoding ∧ b.tree.nodeAt b.dec.node = some n := by
  unfold Block.decAt; split <;> simp_all

theorem Block.decDescend_cases {b b' : Block} (h : b.decDescend = some b') :
    ∃ zero one w x rest, b.decAt = some (.internal zero one w) ∧ b.q.bitIn = x :: rest ∧
      b' = { b with
        q := { b.q with bitIn := rest }, dec := { b.dec with node := if x then one else zero }
        cnt := { b.cnt with decBit := b.cnt.decBit + 1 } } := by
  unfold Block.decDescend at h
  split at h
  · rename_i zero one w x rest hn hq; cases h; exact ⟨zero, one, w, x, rest, hn, hq, rfl⟩
  · cases h

theorem Block.decEmit_cases {b b' : Block} (h : b.decEmit = some b') :
    ∃ s w, b.decAt = some (.leaf s w) ∧ s.toNat ≠ EOF ∧ b.q.symOut.length < b.depths.symOut.cap ∧
      b' = { b with
        q := { b.q with symOut := b.q.symOut ++ [symByte s] }, dec := { b.dec with node := b.tree.root }
        cnt := { b.cnt with decSym := b.cnt.decSym + 1 } } := by
  unfold Block.decEmit at h
  split at h
  · rename_i s w hn
    split at h
    · rename_i hg; cases h; exact ⟨s, w, hn, hg.1, by simpa using hg.2, rfl⟩
    · cases h
  · cases h

theorem Block.decFinish_cases {b b' : Block} (h : b.decFinish = some b') :
    ∃ s w, b.decAt = some (.leaf s w) ∧ s.toNat = EOF ∧
      b' = { b with mode := .decDone, irqStatus := setIrq b.irqStatus .decDone } := by
  unfold Block.decFinish at h
  split at h
  · rename_i s w hn
    split at h
    · rename_i hg; cases h; exact ⟨s, w, hn, hg, rfl⟩
    · cases h
  · cases h

theorem Block.decTruncate_cases {b b' : Block} (h : b.decTruncate = some b') :
    ∃ zero one w, b.decAt = some (.internal zero one w) ∧ b.q.bitIn = [] ∧ b.dec.inEnd = true ∧
      b' = b.raise .truncated (nodeInfo16 b.dec.node) := by
  unfold Block.decTruncate at h
  split at h
  · rename_i zero one w hn
    split at h
    · rename_i hg; cases h; exact ⟨zero, one, w, hn, hg.1, hg.2, rfl⟩
    · cases h
  · cases h

/-- The decoder's step is one of its four. -/
theorem Block.decoderStep_cases {b b' : Block} (h : b.decoderStep = some b') :
    b.decDescend = some b' ∨ b.decEmit = some b' ∨ b.decFinish = some b' ∨ b.decTruncate = some b' := by
  unfold Block.decoderStep at h
  cases h₁ : b.decDescend with
  | some c => simp [h₁] at h; exact .inl (by rw [h])
  | none =>
    cases h₂ : b.decEmit with
    | some c => simp [h₁, h₂] at h; exact .inr (.inl (by rw [h]))
    | none =>
      cases h₃ : b.decFinish with
      | some c => simp [h₁, h₂, h₃] at h; exact .inr (.inr (.inl (by rw [h])))
      | none => simp [h₁, h₂, h₃] at h; exact .inr (.inr (.inr h))

/-! ### The ports -/

theorem Block.takeSymIn_cases {b b' : Block} {d : Sym} (h : b.takeSymIn d = some b') :
    b.mode = .encoding ∧ b.enc.eofIn = false ∧ b.q.symIn.length < b.depths.symIn.cap ∧
      b' = { b with q := { b.q with symIn := b.q.symIn ++ [d] }, enc := { b.enc with eofIn := decide (d.toNat = EOF) } } := by
  unfold Block.takeSymIn at h
  split at h
  · rename_i hr
    simp only [Block.symReady, Bool.and_eq_true, decide_eq_true_eq, Bool.not_eq_true', qFull_eq_false] at hr
    cases h
    exact ⟨hr.1.1, hr.1.2, hr.2, by simp [hr.1.2, qPush]⟩
  · cases h

theorem Block.giveBitOut_cases {b b' : Block} {x : Bool} (h : b.giveBitOut = some (x, b')) :
    ∃ rest, b.q.bitOut = x :: rest ∧ b' = { b with q := { b.q with bitOut := rest } } := by
  unfold Block.giveBitOut at h
  split at h
  · cases h
  · rename_i y rest hq; cases h; exact ⟨rest, hq, rfl⟩

theorem Block.takeBitIn_cases {b b' : Block} {x : Bool} (h : b.takeBitIn x = some b') :
    b.mode = .decoding ∧ b.dec.inEnd = false ∧ b.q.bitIn.length < b.depths.bitIn.cap ∧
      b' = { b with q := { b.q with bitIn := b.q.bitIn ++ [x] } } := by
  unfold Block.takeBitIn at h
  split at h
  · rename_i hr
    simp only [Block.bitReady, Bool.and_eq_true, decide_eq_true_eq, Bool.not_eq_true', qFull_eq_false] at hr
    cases h
    exact ⟨hr.1.1, hr.1.2, hr.2, rfl⟩
  · cases h

theorem Block.latchEnd_cases {b b' : Block} {level : Bool} (h : b.latchEnd level = some b') :
    level = true ∧ b.mode = .decoding ∧ b.dec.inEnd = false ∧ b' = { b with dec := { b.dec with inEnd := true } } := by
  unfold Block.latchEnd at h
  split at h
  · rename_i hg; cases h; exact ⟨hg.1, hg.2.1, hg.2.2, rfl⟩
  · cases h

theorem Block.giveSymOut_cases {b b' : Block} {v : Byte} (h : b.giveSymOut = some (v, b')) :
    ∃ rest, b.q.symOut = v :: rest ∧ b' = { b with q := { b.q with symOut := rest } } := by
  unfold Block.giveSymOut at h
  split at h
  · cases h
  · rename_i y rest hq; cases h; exact ⟨rest, hq, rfl⟩

/-! ### Writing the arena and the code table -/

/-- The arena after a build: below the written nodes their own, above them the old slots (10_state.md R34). -/
theorem writeArena_get (ns : List Node) : ∀ (k : Nat) (a : Vector Node NODE_MAX) (i : Nat),
    (writeArena k ns a)[i]? =
      if k ≤ i ∧ i < NODE_MAX ∧ i < k + ns.length then ns[i - k]? else a[i]? := by
  induction ns with
  | nil => intro k a i; simp [writeArena]; omega
  | cons x xs ih =>
    intro k a i
    simp only [writeArena, ih, List.length_cons]
    by_cases hk : k = i
    · subst hk
      by_cases hi : k < NODE_MAX
      · have h1 : ¬ (k + 1 ≤ k) := by omega
        simp [hi]
      · simp [hi]
    · have hset : (a.setIfInBounds k x)[i]? = a[i]? := by simp [hk]
      rw [hset]
      by_cases h : k + 1 ≤ i ∧ i < NODE_MAX ∧ i < k + 1 + xs.length
      · have h' : k ≤ i ∧ i < NODE_MAX ∧ i < k + (xs.length + 1) := by omega
        rw [if_pos h, if_pos h']
        obtain ⟨d, rfl⟩ : ∃ d, i = k + 1 + d := ⟨i - (k + 1), by omega⟩
        have e1 : k + 1 + d - (k + 1) = d := by omega
        have e2 : k + 1 + d - k = d + 1 := by omega
        rw [e1, e2, List.getElem?_cons_succ]
      · have h' : ¬ (k ≤ i ∧ i < NODE_MAX ∧ i < k + (xs.length + 1)) := by omega
        rw [if_neg h, if_neg h']

/-- The code table after a build: a symbol the walk does not give keeps its entry. -/
theorem writeCodes_other (cs : List (Sym × Code)) : ∀ (t : Vector (Option Code) NSYM) (k : Nat),
    (∀ c ∈ cs, c.1.toNat ≠ k) → (writeCodes cs t)[k]? = t[k]? := by
  induction cs with
  | nil => intro t k _; rfl
  | cons c cs ih =>
    intro t k h
    obtain ⟨s, p⟩ := c
    have hs : s.toNat ≠ k := h (s, p) (by simp)
    simp only [writeCodes]
    rw [ih _ _ fun d hd => h d (by simp [hd])]
    simp [hs]

/-- The code table after a build: a symbol given once, within the table, gets its code. -/
theorem writeCodes_mem (cs : List (Sym × Code)) (hn : (cs.map (·.1.toNat)).Nodup) :
    ∀ (t : Vector (Option Code) NSYM) (s : Sym) (p : Code), (s, p) ∈ cs → s.toNat < NSYM →
      (writeCodes cs t)[s.toNat]? = some (some p) := by
  induction cs with
  | nil => intro t s p h; cases h
  | cons c cs ih =>
    intro t s p h hs
    obtain ⟨s₀, p₀⟩ := c
    simp only [List.map_cons, List.nodup_cons] at hn
    rcases List.mem_cons.mp h with h | h
    · cases h
      simp only [writeCodes]
      rw [writeCodes_other cs _ _ fun d hd he => hn.1 (List.mem_map.mpr ⟨d, hd, he⟩)]
      simp [hs]
    · exact ih hn.2 _ s p h hs

end Sys2Proof.Machine
end

