-- ==== Sys2Proof/Laws/Build.lean ====
section
/-! SUPPORT. The pieces of the build: extraction takes a smallest key, and an induction principle for the merging loop. -/

namespace Sys2Proof.Machine

/-! ### Keys (42_tree_build.md R89) -/

theorem keyLt_iff {ns : List Node} {i j : Nat} :
    keyLt ns i j = true ↔ weightAt ns i < weightAt ns j ∨ (weightAt ns i = weightAt ns j ∧ i < j) := by
  simp [keyLt]

theorem keyLt_trans {ns : List Node} {i j k : Nat} (h : keyLt ns i j = true) (g : keyLt ns j k = true) :
    keyLt ns i k = true := by
  rw [keyLt_iff] at *; omega

/-- Two different nodes have different keys. -/
theorem keyLt_total {ns : List Node} {i j : Nat} (h : i ≠ j) (hn : keyLt ns i j = false) : keyLt ns j i = true := by
  have hn' : ¬ keyLt ns i j = true := by simp [hn]
  rw [keyLt_iff] at *; omega

/-! ### Extraction (R89) -/

theorem argmin_mem (ns : List Node) : ∀ (q : List Nat) (j : Nat), argmin ns j q ∈ j :: q := by
  intro q
  induction q with
  | nil => intro j; simp [argmin]
  | cons i q ih =>
    intro j
    simp only [argmin]
    split
    · exact List.mem_cons_of_mem _ (ih i)
    · rcases List.mem_cons.mp (ih j) with h | h
      · rw [h]; exact List.mem_cons_self
      · exact List.mem_cons_of_mem _ (List.mem_cons_of_mem _ h)

/-- No member of the queue has a smaller key than the one extracted. -/
theorem argmin_le (ns : List Node) : ∀ (q : List Nat) (j i : Nat), i ∈ j :: q →
    i = argmin ns j q ∨ keyLt ns (argmin ns j q) i = true := by
  intro q
  induction q with
  | nil => intro j i h; simp only [List.mem_singleton] at h; exact .inl h
  | cons c q ih =>
    intro j i h
    simp only [argmin]
    have hsub : ∀ m, keyLt ns m i = true ∨ m = i → m ∈ (if keyLt ns c j then c else j) :: q →
        i = argmin ns (if keyLt ns c j then c else j) q ∨
          keyLt ns (argmin ns (if keyLt ns c j then c else j) q) i = true := by
      intro m hm hmem
      rcases ih _ m hmem with h' | h'
      · rcases hm with hm | hm
        · exact .inr (h' ▸ hm)
        · exact .inl (hm ▸ h')
      · rcases hm with hm | hm
        · exact .inr (keyLt_trans h' hm)
        · exact .inr (hm ▸ h')
    rcases List.mem_cons.mp h with rfl | h
    · by_cases hc : keyLt ns c i = true
      · exact hsub c (.inl hc) (by simp [hc])
      · exact hsub i (.inr rfl) (by simp [hc])
    · rcases List.mem_cons.mp h with rfl | h
      · by_cases hc : keyLt ns i j = true
        · exact hsub i (.inr rfl) (by simp [hc])
        · by_cases hij : i = j
          · exact hsub j (.inr hij.symm) (by simp [hc])
          · exact hsub j (.inl (keyLt_total hij (by simpa using hc))) (by simp [hc])
      · exact hsub i (.inr rfl) (List.mem_cons_of_mem _ h)

/-- Extraction takes out a member of the queue, no other member having a smaller key. -/
theorem extract_some {ns : List Node} {q q' : List Nat} {x : Nat} (h : extract ns q = some (x, q')) :
    x ∈ q ∧ q' = q.erase x ∧ ∀ i ∈ q, i = x ∨ keyLt ns x i = true := by
  cases q with
  | nil => cases h
  | cons j q =>
    simp only [extract, Option.some.injEq, Prod.mk.injEq] at h
    obtain ⟨rfl, rfl⟩ := h
    exact ⟨argmin_mem ns q j, rfl, fun i hi => argmin_le ns q j i hi⟩

theorem extract_none {ns : List Node} {q : List Nat} : extract ns q = none ↔ q = [] := by
  cases q <;> simp [extract]

theorem extract_length {ns : List Node} {q q' : List Nat} {x : Nat} (h : extract ns q = some (x, q')) :
    q.length = q'.length + 1 := by
  obtain ⟨hx, rfl, _⟩ := extract_some h
  have := List.length_erase_of_mem hx
  have := List.length_pos_of_mem hx
  omega

/-! ### The merging loop (R90) -/

/-- What holds of the arena and the queue at first, and is kept by one merge, holds when the loop ends. -/
theorem mergeLoop_keeps {P : List Node → List Nat → Prop}
    (hstep : ∀ ns q x q₁ y q₂, P ns q → extract ns q = some (x, q₁) → extract ns q₁ = some (y, q₂) →
      P (ns ++ [mergeNode ns x y]) (q₂ ++ [ns.length])) :
    ∀ (fuel : Nat) (ns : List Node) (q : List Nat), P ns q → P (mergeLoop fuel ns q).1 (mergeLoop fuel ns q).2 := by
  intro fuel
  induction fuel with
  | zero => intro ns q h; exact h
  | succ fuel ih =>
    intro ns q h
    simp only [mergeLoop]
    split
    · exact h
    · rename_i x q₁ h₁
      split
      · exact h
      · rename_i y q₂ h₂
        exact ih _ _ (hstep _ _ _ _ _ _ h h₁ h₂)

/-- With one round for each node but one, the loop ends with one node in the queue. -/
theorem mergeLoop_ends : ∀ (fuel : Nat) (ns : List Node) (q : List Nat), q ≠ [] → q.length ≤ fuel + 1 →
    (mergeLoop fuel ns q).2.length = 1 := by
  intro fuel
  induction fuel with
  | zero =>
    intro ns q hq hl
    have := List.length_pos_of_ne_nil hq
    simp only [mergeLoop]; omega
  | succ fuel ih =>
    intro ns q hq hl
    simp only [mergeLoop]
    split
    · rename_i h; exact absurd (extract_none.mp h) hq
    · rename_i x q₁ h₁
      have hl₁ := extract_length h₁
      split
      · rename_i h₂; simp [hl₁, extract_none.mp h₂]
      · rename_i y q₂ h₂
        have hl₂ := extract_length h₂
        exact ih _ _ (by simp) (by simp; omega)

end Sys2Proof.Machine
end

