-- ==== Sys2Proof/Laws/PerInstr.lean ====
section
/-! SUPPORT. Facts about every command as syntax, one lemma per constructor. -/

namespace Sys2Proof.Laws.EncodeFields

/-- The word of a command has its opcode in OP and zeros in RSV (30_encoding.md R66), and the command is well formed. -/
def Statement (i : Instr) : Prop := opField (encode i) = opcode i ∧ rsvField (encode i) = 0 ∧ i.wf = true

theorem freqClear : Statement .freqClear := by unfold Statement; decide
theorem build : Statement .build := by unfold Statement; decide
theorem encStart : Statement .encStart := by unfold Statement; decide
theorem decStart : Statement .decStart := by unfold Statement; decide
theorem abort : Statement .abort := by unfold Statement; decide

end Sys2Proof.Laws.EncodeFields
end

