-- ==== Sys2Proof/Laws/Step.lean ====
section
/-! SUPPORT. What a step can do, said once: every step leaves the block alone, or is a host write, an engine step, a
port transfer, the latch of the end signal, or a reset, and the records of the ports grow only by what is transferred. -/

namespace Sys2Proof.Machine

/-- The block after a legal command word. -/
def cmdEffect : Instr → Block → Block
  | .freqClear, b => b.command (opcode .freqClear) restingModes Block.clearFreq
  | .build, b => b.command (opcode .build) restingModes Block.startBuild
  | .encStart, b => b.command (opcode .encStart) startModes Block.startEncode
  | .decStart, b => b.command (opcode .decStart) startModes Block.startDecode
  | .abort, b => b.abort

theorem exec_eq_cmdEffect (i : Instr) (s : State) : exec i s = .next (s.withBlk (cmdEffect i s.blk)) := by
  cases i <;> rfl

/-- What a legal command word does, by the mode it finds (40_command.md R75). -/
theorem cmdEffect_cases (i : Instr) (b : Block) :
    (i = .abort ∧ cmdEffect i b = b.abort) ∨
    (i ≠ .abort ∧ b.mode = .error ∧ cmdEffect i b = b) ∨
    (i ≠ .abort ∧ b.mode ≠ .error ∧ (i = .freqClear ∨ i = .build → b.mode ∉ restingModes) ∧
      (i = .encStart ∨ i = .decStart → b.mode ≠ .ready) ∧
      cmdEffect i b = b.raise .badState ((opcode i).setWidth 16)) ∨
    (i = .freqClear ∧ b.mode ∈ restingModes ∧ cmdEffect i b = b.clearFreq) ∨
    (i = .build ∧ b.mode ∈ restingModes ∧ cmdEffect i b = b.startBuild) ∨
    (i = .encStart ∧ b.mode = .ready ∧ cmdEffect i b = b.startEncode) ∨
    (i = .decStart ∧ b.mode = .ready ∧ cmdEffect i b = b.startDecode) := by
  cases i with
  | abort => exact .inl ⟨rfl, rfl⟩
  | freqClear =>
    rcases b.command_cases (opcode .freqClear) restingModes Block.clearFreq with ⟨h, e⟩ | ⟨_, hm, e⟩ | ⟨h, hn, e⟩
    · exact .inr (.inl ⟨by decide, h, e⟩)
    · exact .inr (.inr (.inr (.inl ⟨rfl, hm, e⟩)))
    · exact .inr (.inr (.inl ⟨by decide, h, fun _ => hn, by simp, e⟩))
  | build =>
    rcases b.command_cases (opcode .build) restingModes Block.startBuild with ⟨h, e⟩ | ⟨_, hm, e⟩ | ⟨h, hn, e⟩
    · exact .inr (.inl ⟨by decide, h, e⟩)
    · exact .inr (.inr (.inr (.inr (.inl ⟨rfl, hm, e⟩))))
    · exact .inr (.inr (.inl ⟨by decide, h, fun _ => hn, by simp, e⟩))
  | encStart =>
    rcases b.command_cases (opcode .encStart) startModes Block.startEncode with ⟨h, e⟩ | ⟨_, hm, e⟩ | ⟨h, hn, e⟩
    · exact .inr (.inl ⟨by decide, h, e⟩)
    · exact .inr (.inr (.inr (.inr (.inr (.inl ⟨rfl, by simpa [startModes] using hm, e⟩)))))
    · exact .inr (.inr (.inl ⟨by decide, h, by simp, fun _ => by simpa [startModes] using hn, e⟩))
  | decStart =>
    rcases b.command_cases (opcode .decStart) startModes Block.startDecode with ⟨h, e⟩ | ⟨_, hm, e⟩ | ⟨h, hn, e⟩
    · exact .inr (.inl ⟨by decide, h, e⟩)
    · exact .inr (.inr (.inr (.inr (.inr (.inr ⟨rfl, by simpa [startModes] using hm, e⟩)))))
    · exact .inr (.inr (.inl ⟨by decide, h, by simp, fun _ => by simpa [startModes] using hn, e⟩))

/-- The effects a host write of a register can have on the block. -/
inductive WriteEffect (r : Reg) (w : Word) (b : Block) : Block → Prop where
  | cmd (hr : r = .cmd) (i : Instr) (hd : decode w = .ok i) : WriteEffect r w b (cmdEffect i b)
  | illegal (hr : r = .cmd) (e : DecodeError) (hd : decode w = .error e) : WriteEffect r w b (b.illegalCmd w)
  | irqStatus (hr : r = .irqStatus) : WriteEffect r w b (b.writeIrqStatus w)
  | irqEnable (hr : r = .irqEnable) : WriteEffect r w b (b.writeIrqEnable w)
  | codeSel (hr : r = .codeSel) : WriteEffect r w b (b.writeCodeSel w)
  | freq (j : Fin 256) (hr : r = .freq j) : WriteEffect r w b (b.writeFreq j w)
  | ignored : WriteEffect r w b b

/-- The records of the four ports are the same. -/
structure SamePorts (s s' : State) : Prop where
  symTaken : s'.env.symTaken = s.env.symTaken
  bitsOut : s'.env.bitsOut = s.env.bitsOut
  bitsTaken : s'.env.bitsTaken = s.env.bitsTaken
  symsOut : s'.env.symsOut = s.env.symsOut

theorem SamePorts.refl (s : State) : SamePorts s s := ⟨rfl, rfl, rfl, rfl⟩

theorem SamePorts.withBlk (s : State) (b : Block) : SamePorts s (s.withBlk b) := ⟨rfl, rfl, rfl, rfl⟩

theorem SamePorts.trans {a b c : State} (h : SamePorts a b) (g : SamePorts b c) : SamePorts a c :=
  ⟨g.1.trans h.1, g.2.trans h.2, g.3.trans h.3, g.4.trans h.4⟩

/-- What one step can do to the block and to the records of the ports; T says which turns it may have taken. -/
inductive Moved (T : Turn → Prop) (s s' : State) : Prop where
  | stay (hb : s'.blk = s.blk) (hp : SamePorts s s')
  | write (r : BusReq) (ht : T (.host r)) (hr : r.wf = true ∧ r.write = true)
      (hb : WriteEffect (regAt r.off) r.wdata s.blk s'.blk) (hp : SamePorts s s')
  | builder (hb : s.blk.builderStep = some s'.blk) (hp : SamePorts s s')
  | encoder (hb : s.blk.encoderStep = some s'.blk) (hp : SamePorts s s')
  | decoder (hb : s.blk.decoderStep = some s'.blk) (hp : SamePorts s s')
  | latch (hb : s.blk.latchEnd s.env.bitEnd = some s'.blk) (hp : SamePorts s s')
  | symSrc (d : Sym) (hb : s.blk.takeSymIn d = some s'.blk) (h₁ : s'.env.symTaken = s.env.symTaken ++ [d])
      (h₂ : s'.env.bitsOut = s.env.bitsOut) (h₃ : s'.env.bitsTaken = s.env.bitsTaken)
      (h₄ : s'.env.symsOut = s.env.symsOut)
  | bitSnk (x : Bool) (hb : s.blk.giveBitOut = some (x, s'.blk)) (h₁ : s'.env.symTaken = s.env.symTaken)
      (h₂ : s'.env.bitsOut = s.env.bitsOut ++ [x]) (h₃ : s'.env.bitsTaken = s.env.bitsTaken)
      (h₄ : s'.env.symsOut = s.env.symsOut)
  | bitSrc (x : Bool) (hb : s.blk.takeBitIn x = some s'.blk) (h₁ : s'.env.symTaken = s.env.symTaken)
      (h₂ : s'.env.bitsOut = s.env.bitsOut) (h₃ : s'.env.bitsTaken = s.env.bitsTaken ++ [x])
      (h₄ : s'.env.symsOut = s.env.symsOut)
  | symSnk (v : Byte) (hb : s.blk.giveSymOut = some (v, s'.blk)) (h₁ : s'.env.symTaken = s.env.symTaken)
      (h₂ : s'.env.bitsOut = s.env.bitsOut) (h₃ : s'.env.bitsTaken = s.env.bitsTaken)
      (h₄ : s'.env.symsOut = s.env.symsOut ++ [v])
  | reset (ht : T .reset) (hb : s'.blk = Block.reset s.blk.depths) (hp : SamePorts s s')

/-- What moves a state with the same block, records and end level moves this one. -/
theorem Moved.of_same {T U : Turn → Prop} {a s s' : State} (hT : ∀ t, T t → U t) (hb : a.blk = s.blk)
    (he : a.env.bitEnd = s.env.bitEnd) (hp : SamePorts s a) (h : Moved T a s') : Moved U s s' := by
  cases h with
  | stay h p => exact .stay (h.trans hb) (hp.trans p)
  | write r ht hr h p => exact .write r (hT _ ht) hr (hb ▸ h) (hp.trans p)
  | builder h p => exact .builder (hb ▸ h) (hp.trans p)
  | encoder h p => exact .encoder (hb ▸ h) (hp.trans p)
  | decoder h p => exact .decoder (hb ▸ h) (hp.trans p)
  | latch h p => exact .latch (he ▸ hb ▸ h) (hp.trans p)
  | symSrc d h h₁ h₂ h₃ h₄ =>
    exact .symSrc d (hb ▸ h) (by rw [h₁, hp.1]) (h₂.trans hp.2) (h₃.trans hp.3) (h₄.trans hp.4)
  | bitSnk x h h₁ h₂ h₃ h₄ =>
    exact .bitSnk x (hb ▸ h) (h₁.trans hp.1) (by rw [h₂, hp.2]) (h₃.trans hp.3) (h₄.trans hp.4)
  | bitSrc x h h₁ h₂ h₃ h₄ =>
    exact .bitSrc x (hb ▸ h) (h₁.trans hp.1) (h₂.trans hp.2) (by rw [h₃, hp.3]) (h₄.trans hp.4)
  | symSnk v h h₁ h₂ h₃ h₄ =>
    exact .symSnk v (hb ▸ h) (h₁.trans hp.1) (h₂.trans hp.2) (h₃.trans hp.3) (by rw [h₄, hp.4])
  | reset ht h p => exact .reset (hT _ ht) (h.trans (by rw [hb])) (hp.trans p)

/-- A register write has one of the effects of WriteEffect, and touches no record. -/
theorem regWrite_effect {r : Reg} {w : Word} {s s' : State} (h : regWrite r w s = .next s') :
    WriteEffect r w s.blk s'.blk ∧ s'.env = s.env := by
  cases r with
  | cmd =>
    simp only [regWrite, cmdWrite] at h
    split at h
    · rename_i i hd; rw [exec_eq_cmdEffect] at h; cases h; exact ⟨.cmd rfl i hd, rfl⟩
    · rename_i e hd; cases h; exact ⟨.illegal rfl e hd, rfl⟩
  | irqStatus => cases h; exact ⟨.irqStatus rfl, rfl⟩
  | irqEnable => cases h; exact ⟨.irqEnable rfl, rfl⟩
  | codeSel => cases h; exact ⟨.codeSel rfl, rfl⟩
  | freq j => cases h; exact ⟨.freq j rfl, rfl⟩
  | _ => cases h; exact ⟨.ignored, rfl⟩

/-- A bus request reads, writes or is refused; the records of the ports and the end level are untouched. -/
theorem hostStep_moved {r : BusReq} {s s' : State} (h : hostStep r s = .next s') : Moved (· = .host r) s s' := by
  simp only [hostStep, Bool.and_eq_true] at h
  split at h
  · rename_i hw
    obtain ⟨hb, he⟩ := regWrite_effect h
    exact .write r rfl hw hb ⟨by rw [he]; rfl, by rw [he]; rfl, by rw [he]; rfl, by rw [he]; rfl⟩
  · cases h; exact .stay rfl ⟨rfl, rfl, rfl, rfl⟩

/-- An enabled turn of an agent moves the block by that agent's step. -/
theorem agentTurn_moved {t : Turn} {s s' : State} (h : agentTurn t s = some (.next s')) : Moved (· = t) s s' := by
  cases t with
  | host r => exact hostStep_moved (Option.some.inj h)
  | builder =>
    simp only [agentTurn, Option.map_map, Option.map_eq_some_iff, Function.comp] at h
    obtain ⟨b, hb, h⟩ := h; cases h; exact .builder hb (.withBlk _ _)
  | encoder =>
    simp only [agentTurn, Option.map_map, Option.map_eq_some_iff, Function.comp] at h
    obtain ⟨b, hb, h⟩ := h; cases h; exact .encoder hb (.withBlk _ _)
  | decoder =>
    simp only [agentTurn, Option.map_map, Option.map_eq_some_iff, Function.comp] at h
    obtain ⟨b, hb, h⟩ := h; cases h; exact .decoder hb (.withBlk _ _)
  | symSrc d =>
    simp only [agentTurn, symSrcTurn, Option.map_map, Option.map_eq_some_iff, Function.comp] at h
    obtain ⟨b, hb, h⟩ := h; cases h; exact .symSrc d hb rfl rfl rfl rfl
  | bitSnk =>
    simp only [agentTurn, bitSnkTurn, Option.map_map, Option.map_eq_some_iff, Function.comp] at h
    obtain ⟨p, hb, h⟩ := h; cases h; exact .bitSnk p.1 hb rfl rfl rfl rfl
  | bitSrc x =>
    simp only [agentTurn, bitSrcTurn, Option.map_map, Option.map_eq_some_iff, Function.comp] at h
    obtain ⟨b, hb, h⟩ := h; cases h; exact .bitSrc x hb rfl rfl rfl rfl
  | bitEnd level => cases h; exact .stay rfl ⟨rfl, rfl, rfl, rfl⟩
  | latchEnd =>
    simp only [agentTurn, latchTurn, Option.map_map, Option.map_eq_some_iff, Function.comp] at h
    obtain ⟨b, hb, h⟩ := h; cases h; exact .latch hb (.withBlk _ _)
  | symSnk =>
    simp only [agentTurn, symSnkTurn, Option.map_map, Option.map_eq_some_iff, Function.comp] at h
    obtain ⟨p, hb, h⟩ := h; cases h; exact .symSnk p.1 hb rfl rfl rfl rfl
  | reset => cases h; exact .reset rfl rfl ⟨rfl, rfl, rfl, rfl⟩
  | prog => cases h

theorem engineTurn_moved {T : Turn → Prop} {s s' : State} (h : engineTurn s = some s') : Moved T s s' := by
  simp only [engineTurn, Option.map_eq_some_iff] at h
  obtain ⟨b, hb, rfl⟩ := h
  cases h₁ : s.blk.builderStep with
  | some c => simp [h₁] at hb; exact .builder (by simpa [hb] using h₁) (.withBlk _ _)
  | none =>
    cases h₂ : s.blk.encoderStep with
    | some c => simp [h₁, h₂] at hb; exact .encoder (by simpa [hb] using h₂) (.withBlk _ _)
    | none =>
      cases h₃ : s.blk.decoderStep with
      | some c => simp [h₁, h₂, h₃] at hb; exact .decoder (by simpa [hb] using h₃) (.withBlk _ _)
      | none => simp [h₁, h₂, h₃] at hb; exact .latch (by simpa using hb) (.withBlk _ _)

/-- The program's turn moves the block by the step of the agent its next statement names. -/
theorem progTurn_moved {s s' : State} (h : progTurn s = some (.next s')) :
    ∃ st rest, s.env.prog = st :: rest ∧ Moved (· = stmtTurn st) s s' := by
  unfold progTurn at h
  split at h
  · cases h
  · rename_i st rest hst
    exact ⟨st, rest, hst, Moved.of_same (fun _ hu => hu) (by rfl) (by rfl) ⟨by rfl, by rfl, by rfl, by rfl⟩
      (agentTurn_moved h)⟩

/-- The turn a turn stands for: an agent's for itself, the program's for the one its next statement is. -/
def TurnIs (t : Turn) (s : State) (u : Turn) : Prop :=
  (t ≠ .prog ∧ u = t) ∨ (t = .prog ∧ ∃ st rest, s.env.prog = st :: rest ∧ stmtTurn st = u)

/-- A turn moves the block by its agent's step, or passes. -/
theorem takeTurn_moved {t : Turn} {s s' : State} (h : takeTurn t s = .next s') : Moved (TurnIs t s) s s' := by
  unfold takeTurn at h
  cases ht : turn t s with
  | none => rw [ht] at h; cases h; exact .stay rfl (.refl _)
  | some o =>
    rw [ht] at h
    rw [show o = .next s' from h] at ht
    unfold turn at ht
    split at ht
    · obtain ⟨st, rest, hst, hm⟩ := progTurn_moved ht
      exact hm.of_same (fun u hu => .inr ⟨rfl, st, rest, hst, hu.symm⟩) rfl rfl (.refl _)
    · rename_i hne
      exact (agentTurn_moved ht).of_same (fun u hu => .inl ⟨hne, hu⟩) rfl rfl (.refl _)

@[simp] theorem tick_blk (s : State) : s.tick.blk = s.blk := rfl
@[simp] theorem tick_prog (s : State) : s.tick.env.prog = s.env.prog := rfl
@[simp] theorem tick_turns (s : State) : s.tick.env.turns = s.env.turns.tail := rfl
@[simp] theorem tick_answers (s : State) : s.tick.env.answers = s.env.answers := rfl
@[simp] theorem tick_bitEnd (s : State) : s.tick.env.bitEnd = s.env.bitEnd := rfl
@[simp] theorem tick_symTaken (s : State) : s.tick.env.symTaken = s.env.symTaken := rfl
@[simp] theorem tick_bitsOut (s : State) : s.tick.env.bitsOut = s.env.bitsOut := rfl
@[simp] theorem tick_bitsTaken (s : State) : s.tick.env.bitsTaken = s.env.bitsTaken := rfl
@[simp] theorem tick_symsOut (s : State) : s.tick.env.symsOut = s.env.symsOut := rfl

/-- When the program's step comes, it is the program's turn with the turn used up. -/
theorem step_of_progNext {s : State} (h : s.ProgNext) : step s = takeTurn .prog s.tick := by
  rcases h with ⟨ts, h⟩ | ⟨h, hn⟩
  · simp [step, h, State.tick]
  · have hs : s.tick = s := by rw [State.tick, h]; show s.withTurns [] = s; rw [← h]; rfl
    rw [hs]; simp [step, h, hn]

/-- A write the bus does not refuse is the request of a `WR` statement (20_memory.md R49, 30_encoding.md R74). -/
theorem eq_writeReq {r : BusReq} (h : r.wf = true ∧ r.write = true) : r = writeReq r.off r.wdata := by
  obtain ⟨o, n, w, d⟩ := r
  simp only [BusReq.wf, Bool.and_eq_true, decide_eq_true_eq] at h
  obtain ⟨⟨rfl, _⟩, rfl⟩ := h
  rfl

/-- The turn a step takes is one that `Takes` names. -/
theorem takes_of_turnIs {t u : Turn} {ts : List Turn} {s : State} (hts : s.env.turns = t :: ts)
    (h : TurnIs t (s.withTurns ts) u) : s.Takes u := by
  rcases h with ⟨_, rfl⟩ | ⟨rfl, st, rest, hst, hu⟩
  · exact .inl ⟨ts, hts⟩
  · exact .inr ⟨.inl ⟨ts, hts⟩, st, rest, hst, hu⟩

/-- Every step of the machine is one of the moves. -/
theorem step_moved {s s' : State} (h : step s = .next s') : Moved s.Takes s s' := by
  unfold step at h
  split at h
  · rename_i t ts hts
    exact (takeTurn_moved h).of_same (fun u hu => takes_of_turnIs hts hu) (by rfl) (by rfl)
      ⟨by rfl, by rfl, by rfl, by rfl⟩
  · rename_i hts
    split at h
    next hs => cases h; exact engineTurn_moved hs
    next hn =>
      refine (takeTurn_moved h).of_same (fun u hu => ?_) rfl rfl (.refl _)
      rcases hu with ⟨hne, _⟩ | ⟨_, st, rest, hst, hu⟩
      · exact absurd rfl hne
      · exact .inr ⟨.inr ⟨hts, hn⟩, st, rest, hst, hu⟩

end Sys2Proof.Machine
end

