-- ==== Sys2Proof/Tests/Slice0.lean ====
section
/-! SUPPORT. Own tests: command words and checks, vectors of 95_test_vectors.md on single steps, and for each statement
with hypotheses a state that meets them. Expected results are those of the spec's vectors and rules. -/

namespace Sys2Proof.Tests

set_option Elab.async false

open Sys2Proof.Machine

/-! ### Small states -/

/-- The block after reset, every queue of depth 1. -/
def b0 : Block := Block.reset ⟨⟨0⟩, ⟨0⟩, ⟨0⟩, ⟨0⟩⟩

/-- That block in a mode. -/
def inMode (m : Mode) : Block := { b0 with mode := m }

/-- The table of "aaab" (95_test_vectors.md W1). -/
def freqAB : Vector Word 256 := ((Vector.replicate 256 0).set 0x61 3).set 0x62 1

/-- BUILD of "aaab" issued (T-B1). -/
def buildingAB : Block := { b0 with freq := freqAB, mode := .building }

/-- The tree and the codes of "aaab", written out from T-B1. -/
def treeAB : Tree where
  valid := true
  nleaf := 3
  root := 4
  node := writeArena 0 [.leaf 0x61 3, .leaf 0x62 1, .leaf 256 1, .internal 1 2 2, .internal 3 0 5] b0.tree.node
  code := writeCodes [(0x62, [false, false]), (256, [false, true]), (0x61, [true])] b0.tree.code

/-- The block once that build is done. -/
def readyAB : Block := { buildingAB with mode := .ready, tree := treeAB, irqStatus := 1 }

/-- The degenerate tree, written out from T-B2. -/
def treeEmpty : Tree where
  valid := true
  nleaf := 1
  root := 0
  node := writeArena 0 [.leaf 256 1] b0.tree.node
  code := writeCodes [(256, [])] b0.tree.code

def readyEmpty : Block := { b0 with mode := .ready, tree := treeEmpty, irqStatus := 1 }

/-- Sessions on the tree of "aaab". -/
def encodingAB : Block := readyAB.startEncode
def decodingAB : Block := readyAB.startDecode

/-- A state with the given block and turns. -/
def st (b : Block) (ts : List Turn) : State := ⟨b, { Env.empty with turns := ts }⟩

/-- A state with the given block and program. -/
def pr (b : Block) (p : List Stmt) : State := ⟨b, { Env.empty with prog := p }⟩

/-- A view of the next state. -/
def out {α : Type} (r : Result) (f : State → α) : Option α :=
  match r with
  | .next s => some (f s)
  | .fault _ => none
  | .refused _ => none

/-- The turn that writes a register, and the turn that reads one. -/
def wr (off : BitVec 14) (v : Word) : Turn := .host (writeReq off v)
def rd (off : BitVec 14) : Turn := .host (readReq off)

/-- The answer a single read gives. -/
def readOf (b : Block) (off : BitVec 14) : Option (List BusResp) := out (step (st b [rd off])) fun s => s.env.answers

/-! ### Decoding and well-formedness -/

/-- The words of R67, bit by bit: OP in bits [7:0]. -/
theorem test_decode_freqClear : decode 0b00000000000000000000000000000001 = .ok .freqClear := by decide
theorem test_decode_build : decode 0b00000000000000000000000000000010 = .ok .build := by decide
theorem test_decode_encStart : decode 0b00000000000000000000000000000011 = .ok .encStart := by decide
theorem test_decode_decStart : decode 0b00000000000000000000000000000100 = .ok .decStart := by decide
theorem test_decode_abort : decode 0b00000000000000000000000000000101 = .ok .abort := by decide
theorem test_decode_zero_is_illegal : decode 0 = .error .illegalOpcode := by decide
theorem test_decode_reserved_bit_is_illegal : decode 0x00000105 = .error .reservedBits := by decide
theorem test_table_word : decodeTableWord 32 4 = some .decStart := by decide
theorem test_table_word_wider_is_none : decodeTableWord 64 0x100000005 = none := by decide

/-- The bus refuses another size and a misaligned offset (T-R5, T-R6), and 257 is no symbol. -/
theorem test_wf_size : BusReq.wf ⟨0x000, 1, false, 0⟩ = false := by decide
theorem test_wf_alignment : BusReq.wf ⟨0x002, 4, false, 0⟩ = false := by decide
theorem test_wf_good : BusReq.wf ⟨0x004, 4, false, 0⟩ = true := by decide
theorem test_symbol_257 : isSymbol 257 = false := by decide
theorem test_symbol_eof : isSymbol 256 = true := by decide

/-- The ends of the ranges of the map (10_state.md R16). -/
theorem test_map_edges : [0x060, 0x064, 0x7FC, 0x800, 0xBFC, 0xC00, 0xC04, 0x1800, 0x1804, 0x2800, 0x2804].map regAt =
    [.codeBits 7, .reserved, .reserved, .freq 0, .freq 255, .freqEof, .reserved, .nodeInfo 512, .reserved,
      .nodeWeight 512, .reserved] := by decide

/-! ### Vectors of 95_test_vectors.md -/

/-- T-R1, T-R2, T-F1. -/
theorem test_reset_status : readOf b0 0x00C = some [⟨0x7C0, false⟩] := by decide +kernel
theorem test_reset_id : readOf b0 0x000 = some [⟨0x48425343, false⟩] := by decide +kernel
theorem test_reset_freq_eof : readOf b0 0xC00 = some [⟨1, false⟩] := by decide +kernel

/-- T-B1, T-B2: the builder makes the trees written out above. -/
theorem test_buildTree : buildTree freqAB =
    ⟨3, [.leaf 0x61 3, .leaf 0x62 1, .leaf 256 1, .internal 1 2 2, .internal 3 0 5], 4,
      [(0x62, [false, false]), (256, [false, true]), (0x61, [true])]⟩ := by decide +kernel
theorem test_buildTree_degenerate : buildTree (Vector.replicate 256 0) = ⟨1, [.leaf 256 1], 0, [(256, [])]⟩ := by
  decide +kernel
theorem test_totals : freqTotal freqAB = 5 ∧ freqTotal (Vector.replicate 256 0) = 1 := by decide +kernel
theorem test_builder : buildingAB.builderStep = some readyAB := by
  simp only [Block.builderStep, buildingAB, test_buildTree, test_totals]; rfl
theorem test_builder_degenerate : (inMode .building).builderStep = some readyEmpty := by
  simp only [Block.builderStep, inMode, b0, Block.reset, test_buildTree_degenerate, test_totals]; rfl

/-- T-B1: the readback of the tree of "aaab". -/
theorem test_build_nodes : (List.range 6).map (fun i => readOf readyAB (BitVec.ofNat 14 (0x1000 + 4 * i))) =
    [0x80000061, 0x80000062, 0x80000100, 0x00020001, 0x00000003, 0].map fun v => some [⟨v, false⟩] := by decide +kernel
theorem test_build_code_of_eof :
    (readOf { readyAB with codeSel := 0x100 } 0x040, readOf { readyAB with codeSel := 0x100 } 0x044) =
      (some [⟨0x80000002, false⟩], some [⟨0x40000000, false⟩]) := by decide +kernel

/-- T-B2: the degenerate tree. -/
theorem test_build_empty : readOf readyEmpty 0x1000 = some [⟨0x80000100, false⟩] := by decide +kernel

/-- T-B7 "abcd": two internal nodes of equal weight. -/
theorem test_build_abcd :
    (buildTree ((((freqAB.set 0x61 1).set 0x62 1).set 0x63 1).set 0x64 1)).codes =
      [(0x63, [false, false]), (0x64, [false, true]), (0x100, [true, false]), (0x61, [true, true, false]),
        (0x62, [true, true, true])] := by decide +kernel

/-- T-B11: the total is one too large. -/
theorem test_weight_overflow :
    out (step (st { buildingAB with freq := (Vector.replicate 256 0).set 0 0xFFFFFFFF } [.builder]))
      (fun s => (s.blk.errWord, s.blk.irqStatus)) = some (0x00000003, 0x8) := by decide +kernel

/-- T-F5, T-F2. -/
theorem test_freq_write_while_building :
    out (step (st buildingAB [wr 0x984 1])) (fun s => (s.blk.errWord, s.blk.mode)) = some (0x80610002, .error) := by
  decide +kernel
theorem test_freq_write_in_ready :
    out (step (st readyAB [wr 0x988 7])) (fun s => (s.blk.statusWord, freqAt s.blk.freq 0x62)) = some (0x7C0, 7) := by
  decide +kernel

/-- T-F8, T-F9. -/
theorem test_freq_clear : out (exec .freqClear (st readyAB [])) (fun s => freqAt s.blk.freq 0x62) = some 0 := by
  decide +kernel
theorem test_freq_clear_while_decoding :
    out (exec .freqClear (st (inMode .decoding) [])) (fun s => s.blk.errWord) = some 0x00010002 := by decide +kernel

/-- T-C11, T-C8. -/
theorem test_build : out (exec .build (st (inMode .encDone) [])) (fun s => s.blk.mode) = some .building := by
  decide +kernel
theorem test_build_while_encoding :
    out (exec .build (st (inMode .encoding) [])) (fun s => s.blk.errWord) = some 0x00020002 := by decide +kernel

/-- The example of R97, and T-C1. -/
theorem test_encStart : out (exec .encStart (st readyAB [])) (fun s => s.blk.statusWord) = some 0x7CB := by
  decide +kernel
theorem test_encStart_in_idle :
    out (step (State.reset.withFetchWord 32 3)) (fun s => (s.blk.errWord, s.blk.mode)) = some (0x00030002, .error) := by
  decide +kernel

/-- The example of R104, and T-D21. -/
theorem test_decStart : out (exec .decStart (st readyAB [])) (fun s => s.blk.readReg .decNode) = some 4 := by
  decide +kernel
theorem test_decStart_in_decDone :
    out (exec .decStart (st (inMode .decDone) [])) (fun s => s.blk.errWord) = some 0x00040002 := by decide +kernel

/-- T-C14, T-C16. -/
theorem test_abort_in_error :
    out (exec .abort (st ((inMode .decoding).raise .truncated 5) []))
      (fun s => (s.blk.mode, s.blk.errWord, s.blk.irqStatus)) = some (.idle, 0, 0x8) := by decide +kernel
theorem test_abort_while_building :
    out (exec .abort (st buildingAB [])) (fun s => s.blk.builderStep.isSome) = some false := by decide +kernel

/-- T-C7, T-C13. -/
theorem test_illegal_word :
    out (step (st b0 [wr 0x008 0x12345601])) (fun s => s.blk.errWord) = some 0x56010001 := by decide +kernel
theorem test_illegal_word_in_error :
    out (step (st (b0.raise .badState 3) [wr 0x008 0x105])) (fun s => s.blk.errWord) = some 0x00030002 := by
  decide +kernel

/-- T-I5, T-I2. -/
theorem test_irq_clear :
    out (step (st { b0 with irqStatus := 0xA } [wr 0x014 0x2])) (fun s => s.blk.irqStatus) = some 0x8 := by
  decide +kernel
theorem test_irq_enable :
    out (step (st readyAB [wr 0x018 0x1])) (fun s => s.blk.irq) = some true := by decide +kernel

/-- T-E9 (the load of 0x63), T-N4. -/
theorem test_load_bad_symbol :
    out (step (st { encodingAB with q := { encodingAB.q with symIn := [0x63] } } [.encoder])) (fun s => s.blk.errWord) =
      some 0x00630004 := by decide +kernel
theorem test_emit_counter_wraps :
    out (step (st { encodingAB with
      enc := ⟨[false, true], false, false⟩, cnt := { encodingAB.cnt with encBit := 0xFFFFFFFF } } [.encoder]))
      (fun s => (s.blk.q.bitOut, s.blk.enc.sr, s.blk.cnt.encBit)) = some ([false], [true], 0) := by decide +kernel

/-- T-D14, T-D15, T-D19. -/
theorem test_descend_zero :
    out (step (st { decodingAB with q := { decodingAB.q with bitIn := [false] } } [.decoder]))
      (fun s => (s.blk.dec.node, s.blk.cnt.decBit)) = some (3, 1) := by decide +kernel
theorem test_descend_one :
    out (step (st { decodingAB with q := { decodingAB.q with bitIn := [true] } } [.decoder]))
      (fun s => s.blk.dec.node) = some 0 := by decide +kernel
theorem test_truncation :
    out (step (st { decodingAB with dec := ⟨3, true⟩ } [.decoder])) (fun s => s.blk.errWord) = some 0x00030005 := by
  decide +kernel

/-- P5: ENC_START written before the BUILDER step is BAD_STATE, after it a session begins. -/
theorem test_P5_before_builder :
    out (step ((pr buildingAB [.cmd .encStart]).withTurns [.prog])) (fun s => s.blk.errWord) = some 0x00030002 := by
  decide +kernel
theorem test_P5_after_builder :
    out (step ((pr readyAB [.cmd .encStart]).withTurns [.prog])) (fun s => s.blk.mode) = some .encoding := by
  decide +kernel
/-- R50, R74: the read of a `WAIT` at an offset the bus refuses returns 0, whatever FREQ[0] holds. -/
theorem test_wait_refused :
    let b := { b0 with freq := b0.freq.set 0 1 }
    (out (step (pr b [.wait 0x801 1 0])) (fun s => (s.env.prog, s.env.answers)) = some ([], [⟨0, true⟩])) ∧
      out (step (pr b [.wait 0x801 1 1])) (fun s => s.env.prog) = some [.wait 0x801 1 1] := by decide +kernel

/-! ### Witnesses: states that meet the hypotheses of the statements -/

/-- A run that stays in a mode, computed. -/
def stay (m : Mode) : Nat → State → Option State
  | 0, s => some s
  | k + 1, s =>
    if s.blk.mode = m then
      match step s with
      | .next u => stay m k u
      | .fault _ => none
      | .refused _ => none
    else none

theorem stay_sound {m : Mode} : ∀ {k : Nat} {s t : State}, stay m k s = some t → StaysIn m k s t := by
  intro k
  induction k with
  | zero => intro s t h; exact Option.some.inj h
  | succ k ih =>
    intro s t h
    simp only [stay] at h
    split at h
    · rename_i hm
      split at h
      · rename_i u hu; exact ⟨hm, u, hu, ih h⟩
      · cases h
      · cases h
    · cases h

theorem stay_witness {α : Type} {m : Mode} {k : Nat} {s : State} (f : State → α) {v : α}
    (h : (stay m k s).map f = some v) : ∃ t, StaysIn m k s t ∧ f t = v := by
  obtain ⟨t, ht, rfl⟩ := Option.map_eq_some_iff.mp h
  exact ⟨t, stay_sound ht, rfl⟩

/-- A built block meets the invariants. -/
theorem inv_of_ready {b : Block} (hm : b.mode = .ready) (hv : b.tree.valid = true) (he : b.err = ⟨.none, 0⟩)
    (hq : b.q = ⟨[], [], [], []⟩) (ht : b.tree.IsOf b.freq) : b.Inv where
  modeTree := by simp [Block.ModeTree, hm, hv]
  errRecord := by simp [Block.ErrRecord, hm, he]
  queueBounds := by simp [Block.QueueBounds, hq]
  treeCurrent := fun _ => ht
  decoderInTree := by simp [Block.DecoderInTree, hm]
  eofLast := by simp [Block.EofLast, hm]

theorem isOf_readyAB : readyAB.tree.IsOf readyAB.freq := by
  simp only [Tree.IsOf, readyAB, buildingAB, test_buildTree, test_totals]
  exact ⟨by decide, rfl, rfl, by decide +kernel, rfl⟩
theorem isOf_readyEmpty : readyEmpty.tree.IsOf readyEmpty.freq := by
  simp only [Tree.IsOf, readyEmpty, b0, Block.reset, test_buildTree_degenerate, test_totals]
  exact ⟨by decide, rfl, rfl, by decide +kernel, rfl⟩
theorem witness_inv_ready : readyAB.Inv :=
  inv_of_ready (by decide +kernel) (by decide +kernel) (by decide +kernel) (by decide +kernel) isOf_readyAB
theorem witness_inv_degenerate : readyEmpty.Inv :=
  inv_of_ready (by decide +kernel) (by decide +kernel) (by decide +kernel) (by decide +kernel) isOf_readyEmpty

/-- DecodeAcceptsExactlyTheCommandWords and RegisterMapIsUnambiguous: both sides of each clause are met. -/
theorem witness_decode_both_ways : decode 5 = .ok .abort ∧ decode 6 ≠ .ok .abort ∧ rsvField 0x100 ≠ 0 := by decide
theorem witness_register_map : regAt (Reg.nodeWeight 512).offset ≠ .reserved ∧ regAt 0x064 = .reserved ∧
    regAt 0x3FFC = .reserved := by decide

/-- The program's step comes with no turn given, or by its turn while an engine could step. -/
theorem progNext_default : (pr readyAB [.wr 0x008 4]).ProgNext :=
  .inr ⟨rfl, Option.isNone_iff_eq_none.mp (by decide +kernel)⟩
theorem progNext_turn (b : Block) (p : List Stmt) (ts : List Turn) :
    ((pr b p).withTurns (.prog :: ts)).ProgNext := .inl ⟨ts, rfl⟩
theorem witness_StepRunsDecodedCommand :
    ((st readyAB [wr 0x008 3]).env.turns = [.host (writeReq 0x008 3)] ∧ decode 3 = .ok .encStart) ∧
      ((pr readyAB [.wr 0x008 4]).ProgNext ∧ (pr readyAB [.wr 0x008 4]).env.prog = [.wr 0x008 4] ∧
        decode 4 = .ok .decStart) :=
  ⟨by decide, progNext_default, by decide⟩
theorem witness_MalformedAccess :
    (st b0 [.host ⟨0x008, 2, true, 5⟩]).env.turns = [.host ⟨0x008, 2, true, 5⟩] ∧ (2 ≠ 4 ∨ (0x008 : Nat) % 4 ≠ 0) := by
  decide
/-- A read the bus serves, and one it refuses. -/
theorem witness_ReadsHaveNoSideEffect : (st b0 [rd 0x00C]).env.turns = [.host (readReq 0x00C)] ∧
    (st b0 [rd 0x00E]).env.turns = [.host (readReq 0x00E)] ∧ (0x00E : BitVec 14).toNat % 4 ≠ 0 := by decide
theorem witness_ReservedOffsets : (st b0 [rd 0x064]).env.turns = [.host (readReq 0x064)] ∧
    (0x064 : BitVec 14).toNat % 4 = 0 ∧ 0x064 ≤ (0x064 : BitVec 14).toNat ∧ (0x3FFC : BitVec 14).toNat ≤ 0x3FFC := by
  decide
theorem witness_ReadOnlyWrites : (st b0 [wr (Reg.nodeInfo 512).offset 7]).env.turns =
    [.host (writeReq (Reg.nodeInfo 512).offset 7)] := rfl
/-- Both forms of the program's step, ports ready and not, and a `WAIT` that ends, one that does not, and both where the
bus refuses the read. -/
theorem witness_ProgramStatementsWait :
    (pr readyAB [.wr 0x008 4]).ProgNext ∧ ((pr buildingAB [.sym 0x61]).withTurns [.prog]).ProgNext ∧
      b0.symReady = false ∧ encodingAB.symReady = true ∧ b0.bitReady = false ∧ decodingAB.bitReady = true ∧
      b0.q.bitOut = [] ∧ b0.q.symOut = [] ∧ b0.readReg (regAt 0x00C) &&& 0x7 = 0 ∧
      b0.readReg (regAt 0x00C) &&& 0x7 ≠ 1 ∧ (0x801 : BitVec 14).toNat % 4 ≠ 0 :=
  ⟨progNext_default, progNext_turn _ _ _, by decide +kernel⟩
theorem witness_NoTree : b0.tree.valid = false := by decide +kernel
theorem witness_NodeReadback : readyAB.tree.valid = true ∧ (4 : Fin 513).val + 2 ≤ 2 * readyAB.tree.nleaf.toNat ∧
    2 * readyAB.tree.nleaf.toNat < (5 : Fin 513).val + 2 ∧ readyAB.tree.node[(2 : Fin 513)] = .leaf 256 1 ∧
    readyAB.tree.node[(4 : Fin 513)] = .internal 3 0 5 := by decide +kernel
theorem witness_CodeReadback : (readyAB.tree.codeOf 0x100).length ≤ 256 ∧ readyAB.tree.inTree 0x100 = true := by
  decide +kernel
theorem witness_TreeSummary : readyAB.TreeCurrent ∧ readyAB.tree.valid = true :=
  ⟨fun _ => isOf_readyAB, by decide +kernel⟩
theorem witness_IrqWrites : (st readyAB [wr 0x014 1]).env.turns = [.host (writeReq 0x014 1)] ∧
    (st readyAB [wr 0x018 1]).env.turns = [.host (writeReq 0x018 1)] ∧
    (st readyAB [wr 0x03C 0x1FF]).env.turns = [.host (writeReq 0x03C 0x1FF)] := ⟨rfl, rfl, rfl⟩
/-- A bit is cleared by a write of 1, one by reset, and one is set by the builder. -/
theorem witness_IrqStatusIsSticky :
    readyAB.irqStatus.getLsbD 0 = true ∧
      out (step (st readyAB [wr 0x014 1])) (fun s => s.blk.irqStatus.getLsbD 0) = some false ∧
      out (step (st readyAB [.reset])) (fun s => s.blk.irqStatus.getLsbD 0) = some false ∧
      buildingAB.irqStatus.getLsbD 0 = false ∧
      out (step (st buildingAB [.builder])) (fun s => s.blk.irqStatus.getLsbD 0) = some true := by decide +kernel
theorem witness_FreqWrite :
    (st b0 [wr 0xBFC 1]).env.turns = [.host (writeReq (BitVec.ofNat 14 (0x800 + 4 * 255)) 1)] ∧ b0.mode = .idle ∧
      buildingAB.mode = .building ∧ (b0.raise .badState 3).mode = .error := by decide +kernel
theorem witness_FreqReads : (st b0 [rd 0x800]).env.turns = [.host (readReq (BitVec.ofNat 14 (0x800 + 4 * 0)))] := by
  decide
/-- The three clauses of the commands: a mode that permits it, one that does not, ERROR. -/
theorem witness_commands : readyAB.mode = .ready ∧ encodingAB.mode = .encoding ∧ b0.mode = .idle ∧
    (b0.raise .badState 3).mode = .error := by decide +kernel
theorem witness_CmdWriteDispatch : (st b0 [wr 0x008 6]).env.turns = [.host (writeReq 0x008 6)] ∧
    5 < (6 : Word).toNat ∧ (0 : Word).toNat = 0 := by decide
/-- In ERROR: a write of 0 is ignored, ABORT and reset leave. -/
theorem witness_ErrorIsLeft : (b0.raise .badState 3).mode = .error ∧
    out (step (st (b0.raise .badState 3) [wr 0x008 0])) (fun s => s.blk.mode) = some .error ∧
    out (step (st (b0.raise .badState 3) [wr 0x008 5])) (fun s => (s.blk.mode, s.blk.irqStatus)) = some (.idle, 0x8) ∧
    out (step (st (b0.raise .badState 3) [.reset])) (fun s => (s.blk.mode, s.blk.irqStatus)) = some (.idle, 0) := by
  decide +kernel
theorem witness_BuilderMakesTheTree : (st buildingAB [.builder]).env.turns = [.builder] ∧
    buildingAB.mode = .building ∧ freqTotal buildingAB.freq ≤ 0xFFFFFFFF := by decide +kernel
/-- The smallest total that overflows (T-B11). -/
theorem witness_WeightOverflow : ((List.finRange 256).map fun k : Fin 256 =>
    (((Vector.replicate 256 0).set 0 0xFFFFFFFF : Vector Word 256)[k]).toNat).sum + 1 = 0x100000000 := by decide +kernel
/-- The largest total accepted (T-B13). -/
theorem witness_total_at_WMAX : freqTotal ((Vector.replicate 256 0).set 0 0xFFFFFFFE) = 0xFFFFFFFF := by decide +kernel
theorem witness_MergesTakeTheSmallestKeys : freqTotal freqAB ≤ 0xFFFFFFFF ∧
    (buildTree freqAB).nodes[3]? = some (.internal 1 2 2) := by decide +kernel
theorem witness_EmptyTable : ∀ k : Fin 256, (Vector.replicate 256 (0 : Word))[k] = 0 := by intro k; simp
theorem witness_EqualTables : readyAB.TreeCurrent ∧ { readyAB with codeSel := 7 }.TreeCurrent :=
  ⟨fun _ => isOf_readyAB, fun _ => isOf_readyAB⟩
theorem witness_SymbolPort : (st encodingAB [.symSrc 0x61]).env.turns = [.symSrc 0x61] ∧
    encodingAB.mode = .encoding ∧ encodingAB.enc.eofIn = false ∧
    encodingAB.q.symIn.length < encodingAB.depths.symIn.cap ∧ readyAB.mode ≠ .encoding := by decide +kernel
/-- A queue with one symbol: of the tree, EOF, and none of the tree. -/
theorem witness_EncoderLoads :
    (∀ d ∈ [(0x61 : Sym), 256, 0x63],
      let s := st { encodingAB with q := { encodingAB.q with symIn := [d] } } [.encoder]
      s.env.turns = [.encoder] ∧ s.blk.mode = .encoding ∧ s.blk.enc.sr = [] ∧ s.blk.enc.final = false ∧
        s.blk.q.symIn = [d]) ∧
    encodingAB.tree.inTree 0x61 = true ∧ encodingAB.tree.inTree 256 = true ∧ encodingAB.tree.inTree 0x63 = false := by
  decide +kernel
/-- Room for one bit, none (T-E14), and EOF's code all out. -/
theorem witness_EncoderEmits :
    (∀ q ∈ [[], [false]],
      let s := st { encodingAB with enc := ⟨[true], false, false⟩, q := { encodingAB.q with bitOut := q } } [.encoder]
      s.env.turns = [.encoder] ∧ s.blk.mode = .encoding ∧ s.blk.enc.sr = [true] ∧
        (s.blk.q.bitOut.length < s.blk.depths.bitOut.cap ↔ q = [])) ∧
    (∀ s ∈ [st { encodingAB with enc := ⟨[], true, true⟩ } [.encoder]],
      s.env.turns = [.encoder] ∧ s.blk.mode = .encoding ∧ s.blk.enc.sr = [] ∧ s.blk.enc.final = true) := by
  decide +kernel
theorem witness_OutputPorts :
    (∀ s ∈ [st { readyAB with q := { readyAB.q with bitOut := [true] } } [.bitSnk]],
      s.env.turns = [.bitSnk] ∧ s.blk.q.bitOut = [true]) ∧ (st readyAB [.bitSnk]).blk.q.bitOut = [] ∧
    (∀ s ∈ [st { readyAB with q := { readyAB.q with symOut := [0x61] } } [.symSnk]],
      s.env.turns = [.symSnk] ∧ s.blk.q.symOut = [0x61]) ∧ (st readyAB [.symSnk]).blk.q.symOut = [] := by
  decide +kernel
/-- A bit already pushed survives an error, and ABORT and reset discard it. -/
theorem witness_pushed_bits : ∀ s ∈ [st { readyAB with q := { readyAB.q with bitOut := [true] } } [wr 0x008 3]],
    s.bitStream = [true] ∧
      out (step (s.withTurns [wr 0x008 6])) (fun u => (u.blk.mode, u.bitStream)) = some (.error, [true]) ∧
      out (step (s.withTurns [wr 0x008 5])) State.bitStream = some [] ∧
      out (step (s.withTurns [.reset])) State.bitStream = some [] := by decide +kernel
theorem witness_EncoderEmitsAWholeCode :
    let b := { encodingAB with enc := ⟨[true], false, false⟩ }
    (pr b []).env.turns = [] ∧ b.mode = .encoding ∧ b.q.bitOut.length + b.enc.sr.length ≤ b.depths.bitOut.cap := by
  decide +kernel
/-- R106, R73: END asserts the level, and nothing is latched before the latch's own step. -/
theorem test_end_asserts_the_level :
    out (step (st decodingAB [.bitEnd true])) (fun s => (s.env.bitEnd, s.blk.dec.inEnd)) = some (true, false) := by
  decide +kernel
theorem witness_BitPort : (st decodingAB [.bitSrc true]).env.turns = [.bitSrc true] ∧
    decodingAB.mode = .decoding ∧ decodingAB.dec.inEnd = false ∧
    decodingAB.q.bitIn.length < decodingAB.depths.bitIn.cap ∧ readyAB.mode ≠ .decoding ∧
    (∀ s ∈ [(⟨decodingAB, { Env.empty with turns := [.latchEnd], bitEnd := true }⟩ : State)],
      s.env.turns = [.latchEnd] ∧ s.env.bitEnd = true ∧ s.blk.mode = .decoding ∧ s.blk.dec.inEnd = false) := by
  decide +kernel
/-- The decoder at an internal node with a bit and with none, at a leaf of a byte with room for it and with none, at the
EOF leaf. -/
theorem witness_DecoderSteps :
    (∀ i ∈ [(4 : NodeIdx), 0, 2],
      let s := st { decodingAB with dec := ⟨i, true⟩ } [.decoder]
      s.env.turns = [.decoder] ∧ s.blk.mode = .decoding ∧ s.blk.dec.node = i ∧ s.blk.dec.inEnd = true ∧
        s.blk.q.bitIn = []) ∧
    decodingAB.tree.node[(4 : NodeIdx).toNat]? = some (.internal 3 0 5) ∧
    decodingAB.tree.node[(0 : NodeIdx).toNat]? = some (.leaf 0x61 3) ∧
    decodingAB.tree.node[(2 : NodeIdx).toNat]? = some (.leaf 256 1) ∧
    decodingAB.q.symOut.length < decodingAB.depths.symOut.cap ∧ decodingAB.depths.symOut.cap ≤ [(0x61 : Byte)].length := by
  decide +kernel

/-- The state after a command, for the session statements. -/
def afterCmd (i : Instr) (s : State) : State := s.withBlk (cmdEffect i s.blk)

theorem exec_afterCmd (i : Instr) (s : State) : exec i s = .next (afterCmd i s) := exec_eq_cmdEffect i s

/-- An encode session that ends, and one that meets a bad symbol. -/
theorem witness_EncodeSession_done : (st readyEmpty []).blk.mode = .ready ∧
    ∃ t, StaysIn .encoding 3 (afterCmd .encStart (st readyEmpty [.symSrc 256, .encoder, .encoder])) t ∧
      t.blk.mode = .encDone :=
  ⟨by decide +kernel, stay_witness (fun t => t.blk.mode) (by decide +kernel)⟩
theorem witness_EncodeSession_bad :
    ∃ t, StaysIn .encoding 2 (afterCmd .encStart (st readyEmpty [.symSrc 0x61, .encoder])) t ∧
      (t.blk.mode, t.blk.err.code) = (.error, .badSymbol) :=
  stay_witness (fun t => (t.blk.mode, t.blk.err.code)) (by decide +kernel)
/-- A decode session that ends, and one that is truncated. -/
theorem witness_DecodeSession_done :
    ∃ t, StaysIn .decoding 1 (afterCmd .decStart (st readyEmpty [.decoder])) t ∧ t.blk.mode = .decDone :=
  stay_witness (fun t => t.blk.mode) (by decide +kernel)
theorem witness_DecodeSession_truncated :
    ∃ t, StaysIn .decoding 3 (afterCmd .decStart (st readyAB [.bitEnd true, .latchEnd, .decoder])) t ∧
      (t.blk.mode, t.blk.err.code) = (.error, .truncated) :=
  stay_witness (fun t => (t.blk.mode, t.blk.err.code)) (by decide +kernel)
/-- Both sessions of the round trip of "a" (payload "101"), and a decode of its first bit alone. -/
theorem witness_roundTrip_encode :
    ∃ t, StaysIn .encoding 10 (afterCmd .encStart (st readyAB [.symSrc 0x61, .encoder, .encoder, .bitSnk, .symSrc 256,
        .encoder, .encoder, .bitSnk, .encoder, .encoder])) t ∧
      (t.blk.mode, t.env.symTaken, t.bitStream) = (.encDone, [0x61] ++ [256], [true, false, true]) :=
  stay_witness (fun t => (t.blk.mode, t.env.symTaken, t.bitStream)) (by decide +kernel)
theorem witness_roundTrip_decode :
    ∃ t, StaysIn .decoding 8 (afterCmd .decStart (st readyAB [.bitSrc true, .decoder, .decoder, .bitSrc false, .decoder,
        .bitSrc true, .decoder, .decoder])) t ∧
      (t.blk.mode, t.env.bitsTaken, t.symStream) = (.decDone, [true, false, true], [0x61]) :=
  stay_witness (fun t => (t.blk.mode, t.env.bitsTaken, t.symStream)) (by decide +kernel)
theorem witness_roundTrip_prefix :
    ∃ t, StaysIn .decoding 1 (afterCmd .decStart (st readyAB [.bitSrc true])) t ∧ t.env.bitsTaken = [true] :=
  stay_witness (fun u => u.env.bitsTaken) (by decide +kernel)
/-- The hypotheses of the round trip, all together. -/
theorem witness_DecodingInvertsEncoding : ∃ a a₁ a₂ d d₁ d₂ : State, ∃ j k : Nat,
    a.blk.Inv ∧ d.blk.Inv ∧ a.blk.mode = .ready ∧ d.blk.mode = .ready ∧ a.blk.freq = d.blk.freq ∧
    exec .encStart a = .next a₁ ∧ StaysIn .encoding j a₁ a₂ ∧ a₂.blk.mode = .encDone ∧
    exec .decStart d = .next d₁ ∧ StaysIn .decoding k d₁ d₂ ∧
    a₂.env.symTaken = a₁.env.symTaken ++ [0x61] ++ [256] ∧ a₂.bitStream = a₁.bitStream ++ [true, false, true] ∧
    d₂.env.bitsTaken = d₁.env.bitsTaken ++ [true, false, true] ∧ d₂.blk.mode = .decDone := by
  obtain ⟨a₂, ha, he⟩ := witness_roundTrip_encode
  obtain ⟨d₂, hd, hf⟩ := witness_roundTrip_decode
  simp only [Prod.mk.injEq] at he hf
  refine ⟨_, _, a₂, _, _, d₂, _, _, ?_, ?_, ?_, ?_, ?_, exec_afterCmd _ _, ha, he.1, exec_afterCmd _ _, hd, he.2.1, he.2.2,
    hf.2.1, hf.1⟩
  · exact witness_inv_ready
  · exact witness_inv_ready
  all_goals rfl
/-- Statements about every step: a step from a state that meets the invariants. -/
theorem witness_step_from_inv : (st readyAB [wr 0x008 3]).blk.Inv ∧
    out (step (st readyAB [wr 0x008 3])) (fun s => s.blk.mode) = some .encoding :=
  ⟨witness_inv_ready, by decide +kernel⟩
/-- A step into each mode that a host write enters, and into ERROR from each cause a host write is. -/
theorem witness_ModeChanges :
    [(readyAB, wr 0x008 5), (readyAB, wr 0x984 2), (readyAB, wr 0x008 1), (readyAB, wr 0x008 2), (readyAB, wr 0x008 3),
      (readyAB, wr 0x008 4), (encodingAB, .reset), (readyAB, wr 0x008 6), (encodingAB, wr 0x008 2),
      (encodingAB, wr 0x984 2), (b0, wr 0x008 3)].map
        (fun p => out (step (st p.1 [p.2])) fun s => (s.blk.mode, s.blk.err.code)) =
      ([(.idle, .none), (.idle, .none), (.idle, .none), (.building, .none), (.encoding, .none), (.decoding, .none),
        (.idle, .none), (.error, .illegalCmd), (.error, .badState), (.error, .badState), (.error, .badState)] :
          List (Mode × ErrCode)).map some := by decide +kernel
theorem witness_reset_turn : (st encodingAB [.reset]).env.turns = [.reset] := rfl

end Sys2Proof.Tests
end

section
/-! What the merging loop makes of the leaves: the number of nodes, the last one as root, and a constant sum of weights
in the queue (42_tree_build.md R88 to R91). -/

namespace Sys2Proof.Machine

/-! ### Weights in a growing arena -/

@[simp] theorem weightAt_append_left {ns ms : List Node} {j : Nat} (h : j < ns.length) :
    weightAt (ns ++ ms) j = weightAt ns j := by
  simp [weightAt, List.getElem?_append_left h]

@[simp] theorem weightAt_append_singleton (ns : List Node) (x : Node) :
    weightAt (ns ++ [x]) ns.length = x.weight.toNat := by
  simp [weightAt]

/-- The sum of the weights of the nodes in a queue. -/
def queueWeight (ns : List Node) (q : List Nat) : Nat := (q.map (weightAt ns)).sum

theorem queueWeight_perm {ns : List Node} {q q' : List Nat} (h : q.Perm q') :
    queueWeight ns q = queueWeight ns q' := (h.map _).sum_eq

theorem queueWeight_append_left {ns ms : List Node} {q : List Nat} (h : ∀ i ∈ q, i < ns.length) :
    queueWeight (ns ++ ms) q = queueWeight ns q := by
  simp only [queueWeight, List.map_congr_left fun i hi => weightAt_append_left (h i hi)]

/-! ### One merge (R89, R90) -/

/-- The two extracted nodes and what is left are the queue. -/
theorem extract_twice_perm {ns : List Node} {q q₁ q₂ : List Nat} {x y : Nat} (h₁ : extract ns q = some (x, q₁))
    (h₂ : extract ns q₁ = some (y, q₂)) : q.Perm (x :: y :: q₂) := by
  obtain ⟨hx, rfl, _⟩ := extract_some h₁
  obtain ⟨hy, rfl, _⟩ := extract_some h₂
  exact (List.perm_cons_erase hx).trans ((List.perm_cons_erase hy).cons x)

/-- A merge node weighs what its children weigh, when that fits a weight. -/
theorem mergeNode_weight {ns : List Node} {x y : Nat} (h : weightAt ns x + weightAt ns y ≤ WMAX) :
    (mergeNode ns x y).weight.toNat = weightAt ns x + weightAt ns y := by
  simp only [mergeNode, Node.weight, BitVec.toNat_ofNat]
  exact Nat.mod_eq_of_lt (Nat.lt_succ_of_le h)

/-! ### The invariant of the merging loop -/

/-- What holds of the arena and the queue in every round, for n leaves of total weight W: the queue names different nodes
of the arena, the last made among them at its end; each merge makes one node and shortens the queue by one; the queue
weighs W. -/
structure MergeInv (n W : Nat) (ns : List Node) (q : List Nat) : Prop where
  nodup : q.Nodup
  bound : ∀ i ∈ q, i < ns.length
  count : ns.length + q.length = 2 * n
  last : q.getLast? = some (ns.length - 1)
  weight : queueWeight ns q = W

/-- One merge keeps the invariant. -/
theorem MergeInv.merge {n W : Nat} {ns : List Node} {q q₁ q₂ : List Nat} {x y : Nat} (hW : W ≤ WMAX)
    (h : MergeInv n W ns q) (h₁ : extract ns q = some (x, q₁)) (h₂ : extract ns q₁ = some (y, q₂)) :
    MergeInv n W (ns ++ [mergeNode ns x y]) (q₂ ++ [ns.length]) := by
  have hp := extract_twice_perm h₁ h₂
  have hb : ∀ i ∈ x :: y :: q₂, i < ns.length := fun i hi => h.bound i (hp.mem_iff.mpr hi)
  have hb₂ : ∀ i ∈ q₂, i < ns.length := fun i hi => hb i (by simp [hi])
  have hw : weightAt ns x + (weightAt ns y + queueWeight ns q₂) = W := by
    rw [← h.weight, queueWeight_perm hp]; rfl
  refine ⟨?nodup, ?bound, ?count, ?last, ?weight⟩
  case nodup =>
    have hn : q₂.Nodup := (hp.nodup_iff.mp h.nodup).of_cons.of_cons
    exact hn.append (by simp) (by simpa using fun hm => Nat.lt_irrefl _ (hb₂ _ hm))
  case bound =>
    intro i hi
    rcases List.mem_append.mp hi with hi | hi
    · exact Nat.lt_of_lt_of_le (hb₂ i hi) (by simp)
    · simp_all
  case count =>
    have := hp.length_eq
    have := h.count
    simp_all; omega
  case last => simp
  case weight =>
    have hadd : queueWeight (ns ++ [mergeNode ns x y]) (q₂ ++ [ns.length]) =
        queueWeight ns q₂ + (mergeNode ns x y).weight.toNat := by
      rw [← queueWeight_append_left (ms := [mergeNode ns x y]) hb₂]; simp [queueWeight]
    rw [hadd, mergeNode_weight (by omega)]; omega

/-! ### The leaves (R88) -/

@[simp] theorem leafNodes_length (f : Vector Word 256) : (leafNodes f).length = (leafSyms f).length := by
  simp [leafNodes]

theorem buildTree_n (f : Vector Word 256) : (buildTree f).n = (leafSyms f).length := leafNodes_length f

theorem mem_leafSyms {f : Vector Word 256} {s : Nat} : s ∈ leafSyms f ↔ s < NSYM ∧ freqAt f s ≠ 0 := by
  simp [leafSyms]

/-- EOF is always present. -/
theorem eof_mem_leafSyms (f : Vector Word 256) : EOF ∈ leafSyms f :=
  mem_leafSyms.mpr ⟨by decide, by rw [freqAt_eof]; decide⟩

@[simp] theorem leafSyms_ne_nil (f : Vector Word 256) : leafSyms f ≠ [] := List.ne_nil_of_mem (eof_mem_leafSyms f)

theorem leafSyms_length_pos (f : Vector Word 256) : 1 ≤ (leafSyms f).length :=
  List.length_pos_of_mem (eof_mem_leafSyms f)

/-- Leaving out the symbols of count 0 does not change the sum of the counts. -/
theorem sum_filter_freqAt (f : Vector Word 256) (l : List Nat) :
    ((l.filter fun s => decide (freqAt f s ≠ 0)).map fun s => (freqAt f s).toNat).sum =
      (l.map fun s => (freqAt f s).toNat).sum := by
  induction l with
  | nil => rfl
  | cons s l ih =>
    rw [List.filter_cons]
    split
    next => simpa using ih
    next h => simpa [show freqAt f s = 0 by simpa using h] using ih

/-- The leaves weigh the total count, EOF's 1 included (R87). -/
theorem sum_leafSyms (f : Vector Word 256) : ((leafSyms f).map fun s => (freqAt f s).toNat).sum = freqTotal f := by
  rw [leafSyms, sum_filter_freqAt, NSYM, List.range_succ, List.map_append, List.sum_append, freqTotal]
  simp [freqAt]

theorem queueWeight_leafNodes (f : Vector Word 256) :
    queueWeight (leafNodes f) (List.range (leafNodes f).length) = freqTotal f := by
  have hmap : (List.range (leafNodes f).length).map (weightAt (leafNodes f)) =
      (leafNodes f).map fun x => x.weight.toNat := by
    apply List.ext_getElem
    · simp
    · intro i hi _
      have hi' : i < (leafNodes f).length := by simpa using hi
      simp [weightAt, List.getElem?_eq_getElem hi']
  rw [queueWeight, hmap, ← sum_leafSyms]
  simp [leafNodes, Node.weight, Function.comp_def]

theorem MergeInv.leaves (f : Vector Word 256) :
    MergeInv (leafSyms f).length (freqTotal f) (leafNodes f) (List.range (leafNodes f).length) where
  nodup := List.nodup_range
  bound := by simp
  count := by simp; omega
  last := by simp [List.getLast?_range]
  weight := queueWeight_leafNodes f

/-! ### The tree (R91) -/

/-- The merging loop of a build leaves the root alone in the queue, and it is the last node made. -/
theorem mergeLoop_leafNodes {f : Vector Word 256} (hW : freqTotal f ≤ WMAX) :
    ∃ ns, mergeLoop (leafNodes f).length (leafNodes f) (List.range (leafNodes f).length) = (ns, [ns.length - 1]) ∧
      MergeInv (leafSyms f).length (freqTotal f) ns [ns.length - 1] := by
  have hlen := mergeLoop_ends (leafNodes f).length (leafNodes f) (List.range (leafNodes f).length) (by simp) (by simp)
  have hinv := mergeLoop_keeps (fun _ _ _ _ _ _ => MergeInv.merge hW) (leafNodes f).length _ _ (MergeInv.leaves f)
  generalize mergeLoop (leafNodes f).length (leafNodes f) (List.range (leafNodes f).length) = r at hlen hinv
  obtain ⟨ns, q⟩ := r
  obtain ⟨i, rfl⟩ := List.length_eq_one_iff.mp hlen
  have hi : i = ns.length - 1 := by simpa using hinv.last
  subst hi
  exact ⟨ns, rfl, hinv⟩

/-- n leaves make 2n − 1 nodes, the root is the last of them, and it weighs the total. -/
theorem buildTree_summary {f : Vector Word 256} (hW : freqTotal f ≤ WMAX) :
    (buildTree f).nodes.length + 1 = 2 * (leafSyms f).length ∧
      (buildTree f).root + 2 = 2 * (leafSyms f).length ∧
      weightAt (buildTree f).nodes (buildTree f).root = freqTotal f := by
  obtain ⟨ns, hns, hinv⟩ := mergeLoop_leafNodes hW
  have hnodes : (buildTree f).nodes = ns := congrArg Prod.fst hns
  have hroot : (buildTree f).root = ns.length - 1 := congrArg (fun r => r.2.headD 0) hns
  have hcount := hinv.count
  have hpos := leafSyms_length_pos f
  rw [List.length_singleton] at hcount
  rw [hnodes, hroot]
  exact ⟨hcount, by omega, by simpa [queueWeight] using hinv.weight⟩

/-- Settles O16: the registers show n, the root's index and its weight, and a valid tree is that of its table. -/
theorem treeSummaryOfTheTable : Obligations.TreeSummaryOfTheTable := by
  unfold Obligations.TreeSummaryOfTheTable
  intro b hcur hv
  obtain ⟨hW, hn, hr, hnode, _⟩ := hcur hv
  obtain ⟨_, hroot, hweight⟩ := buildTree_summary hW
  rw [buildTree_n] at hn hnode
  have hslot := hnode (buildTree b.freq).root (by omega)
  refine ⟨?nleaf, ?root, ?total⟩
  case nleaf =>
    show b.nleafWord.toNat = _
    rw [Block.nleafWord, if_pos hv, BitVec.toNat_setWidth_of_le (by decide), hn]
  case root =>
    show b.rootWord.toNat + 2 = _
    rw [Block.rootWord, if_pos hv, BitVec.toNat_setWidth_of_le (by decide), hr, hroot]
  case total => simp [Block.readReg, Block.totalWord, hv, Tree.nodeAt, hr, hslot, ← hweight, weightAt]

end Sys2Proof.Machine
end

section
/-! The register map (10_state.md R16, 20_memory.md R51). -/

namespace Sys2Proof

/-! ### Offsets of the register arrays -/

@[simp] theorem Reg.offset_codeBits_toNat (j : Fin 8) : (Reg.codeBits j).offset.toNat = 0x044 + 4 * j.val := by
  simp only [Reg.offset, BitVec.toNat_ofNat]; omega

@[simp] theorem Reg.offset_freq_toNat (k : Fin 256) : (Reg.freq k).offset.toNat = 0x800 + 4 * k.val := by
  simp only [Reg.offset, BitVec.toNat_ofNat]; omega

@[simp] theorem Reg.offset_nodeInfo_toNat (i : Fin NODE_MAX) :
    (Reg.nodeInfo i).offset.toNat = 0x1000 + 4 * i.val := by
  have := i.isLt
  simp only [Reg.offset, BitVec.toNat_ofNat, NODE_MAX] at *; omega

@[simp] theorem Reg.offset_nodeWeight_toNat (i : Fin NODE_MAX) :
    (Reg.nodeWeight i).offset.toNat = 0x2000 + 4 * i.val := by
  have := i.isLt
  simp only [Reg.offset, BitVec.toNat_ofNat, NODE_MAX] at *; omega

/-! ### From a register to its offset and back -/

theorem regAt_codeBits {off : BitVec 14} (j : Fin 8) (h : off.toNat = 0x044 + 4 * j.val) : regAt off = .codeBits j := by
  simp (disch := omega) only [regAt, if_neg, dif_pos]
  congr 1; ext; simp only; omega

theorem regAt_freq {off : BitVec 14} (k : Fin 256) (h : off.toNat = 0x800 + 4 * k.val) : regAt off = .freq k := by
  simp (disch := omega) only [regAt, if_neg, dif_neg, dif_pos]
  congr 1; ext; simp only; omega

theorem regAt_nodeInfo {off : BitVec 14} (i : Fin NODE_MAX) (h : off.toNat = 0x1000 + 4 * i.val) :
    regAt off = .nodeInfo i := by
  have hi := i.isLt
  simp only [NODE_MAX] at hi
  simp (disch := omega) only [regAt, if_neg, dif_neg, dif_pos]
  congr 1; ext; simp only; omega

theorem regAt_nodeWeight {off : BitVec 14} (i : Fin NODE_MAX) (h : off.toNat = 0x2000 + 4 * i.val) :
    regAt off = .nodeWeight i := by
  have hi := i.isLt
  simp only [NODE_MAX] at hi
  simp (disch := omega) only [regAt, if_neg, dif_neg, dif_pos]
  congr 1; ext; simp only; omega

@[simp] theorem regAt_offset (r : Reg) : regAt r.offset = r := by
  cases r with
  | codeBits j => exact regAt_codeBits j (Reg.offset_codeBits_toNat j)
  | freq k => exact regAt_freq k (Reg.offset_freq_toNat k)
  | nodeInfo i => exact regAt_nodeInfo i (Reg.offset_nodeInfo_toNat i)
  | nodeWeight i => exact regAt_nodeWeight i (Reg.offset_nodeWeight_toNat i)
  | _ => rfl

theorem Reg.offset_aligned (r : Reg) : r.offset.toNat % 4 = 0 := by
  cases r with
  | codeBits j => rw [Reg.offset_codeBits_toNat]; omega
  | freq k => rw [Reg.offset_freq_toNat]; omega
  | nodeInfo i => rw [Reg.offset_nodeInfo_toNat]; omega
  | nodeWeight i => rw [Reg.offset_nodeWeight_toNat]; omega
  | _ => rfl

/-- The offsets the map marks reserved (R51). -/
def InReservedRange (a : Nat) : Prop :=
  (0x064 ≤ a ∧ a ≤ 0x7FC) ∨ (0xC04 ≤ a ∧ a ≤ 0xFFC) ∨ (0x1804 ≤ a ∧ a ≤ 0x1FFC) ∨ (0x2804 ≤ a ∧ a ≤ 0x3FFC)

theorem regAt_of_inReservedRange {off : BitVec 14} (h : InReservedRange off.toNat) : regAt off = .reserved := by
  unfold InReservedRange at h
  simp (disch := omega) only [regAt, if_neg, dif_neg]

/-- The registers below CODE_BITS, in the order of the map (R16). -/
def lowRegs : List Reg :=
  [.id, .config, .cmd, .status, .err, .irqStatus, .irqEnable, .nleaf, .root, .total, .encSymcnt, .encBitcnt, .decSymcnt,
    .decBitcnt, .decNode, .codeSel, .codeLen]

theorem exists_lowRegs_offset : ∀ k : Fin 17, ∃ r ∈ lowRegs, r ≠ .reserved ∧ r.offset.toNat = 4 * k.val := by decide

/-- Every aligned offset outside the reserved ranges is some register's. -/
theorem exists_reg_of_aligned {off : BitVec 14} (h : off.toNat % 4 = 0) (hr : ¬ InReservedRange off.toNat) :
    ∃ r : Reg, r ≠ .reserved ∧ r.offset = off := by
  have hlt := off.isLt
  suffices ∃ r : Reg, r ≠ .reserved ∧ r.offset.toNat = off.toNat by
    obtain ⟨r, hne, heq⟩ := this
    exact ⟨r, hne, BitVec.eq_of_toNat_eq heq⟩
  have hranges : off.toNat < 0x044 ∨ (0x044 ≤ off.toNat ∧ off.toNat < 0x064) ∨
      (0x800 ≤ off.toNat ∧ off.toNat < 0xC00) ∨ off.toNat = 0xC00 ∨ (0x1000 ≤ off.toNat ∧ off.toNat < 0x1804) ∨
      (0x2000 ≤ off.toNat ∧ off.toNat < 0x2804) := by
    unfold InReservedRange at hr; omega
  rcases hranges with hlow | hbits | hfreq | heof | hinfo | hweight
  · obtain ⟨r, _, hne, heq⟩ := exists_lowRegs_offset ⟨off.toNat / 4, by omega⟩
    exact ⟨r, hne, by simp only at heq; omega⟩
  · exact ⟨.codeBits ⟨(off.toNat - 0x044) / 4, by omega⟩, by simp, by simp only [Reg.offset_codeBits_toNat]; omega⟩
  · exact ⟨.freq ⟨(off.toNat - 0x800) / 4, by omega⟩, by simp, by simp only [Reg.offset_freq_toNat]; omega⟩
  · exact ⟨.freqEof, by simp, heof.symm⟩
  · exact ⟨.nodeInfo ⟨(off.toNat - 0x1000) / 4, by simp only [NODE_MAX]; omega⟩, by simp,
      by simp only [Reg.offset_nodeInfo_toNat]; omega⟩
  · exact ⟨.nodeWeight ⟨(off.toNat - 0x2000) / 4, by simp only [NODE_MAX]; omega⟩, by simp,
      by simp only [Reg.offset_nodeWeight_toNat]; omega⟩

theorem regAt_eq_reserved_iff {off : BitVec 14} (h : off.toNat % 4 = 0) :
    regAt off = .reserved ↔ InReservedRange off.toNat := by
  refine ⟨fun hres => ?_, regAt_of_inReservedRange⟩
  by_contra hr
  obtain ⟨r, hne, rfl⟩ := exists_reg_of_aligned h hr
  exact hne (by rwa [regAt_offset] at hres)

/-- An aligned offset is the offset of the register found there, unless it is reserved. -/
theorem offset_regAt {off : BitVec 14} (h : off.toNat % 4 = 0) (hne : regAt off ≠ .reserved) :
    (regAt off).offset = off := by
  obtain ⟨r, _, rfl⟩ := exists_reg_of_aligned h (mt regAt_of_inReservedRange hne)
  rw [regAt_offset]

/-- Settles O3: an offset outside the reserved ranges is some register's, and each register is found at its own. -/
theorem registerMapIsUnambiguous : Obligations.RegisterMapIsUnambiguous := by
  unfold Obligations.RegisterMapIsUnambiguous
  refine ⟨fun r _ => ⟨regAt_offset r, r.offset_aligned⟩, fun _ => offset_regAt, fun _ => regAt_eq_reserved_iff, by decide,
    Reg.offset_codeBits_toNat, Reg.offset_freq_toNat, Reg.offset_nodeInfo_toNat, Reg.offset_nodeWeight_toNat⟩

end Sys2Proof
end

section
/-! What a step can do to the block, said once: the elementary changes, each with its guard and, for a write, the request
that makes it. Statements about every step are case splits over them. -/

namespace Sys2Proof

/-! ### Command words -/

theorem toNat_eq_of_fields (w : Word) : w.toNat = 256 * (rsvField w).toNat + (opField w).toNat := by
  have := w.isLt
  simp only [rsvField, opField, BitVec.extractLsb'_toNat, Nat.shiftRight_eq_div_pow]
  omega

theorem encode_toNat (i : Instr) : (encode i).toNat = (opcode i).toNat := by cases i <;> rfl

/-- A word that decodes is the word of its command (30_encoding.md R67). -/
theorem eq_encode_of_decode {w : Word} {i : Instr} (h : decode w = .ok i) : w = encode i := by
  suffices rsvField w = 0 ∧ opField w = opcode i by
    apply BitVec.eq_of_toNat_eq
    rw [toNat_eq_of_fields, this.1, this.2, encode_toNat]
    simp
  unfold decode at h
  split at h
  · cases h
  next hr =>
    refine ⟨by simpa using hr, ?_⟩
    split_ifs at h <;> cases h <;> assumption

theorem decode_encode (i : Instr) : decode (encode i) = .ok i := by cases i <;> rfl

/-- The words 1 to 5 are commands (30_encoding.md R67). -/
theorem exists_encode_toNat : ∀ n : Fin 5,
    ∃ i ∈ [Instr.freqClear, .build, .encStart, .decStart, .abort], (encode i).toNat = n.val + 1 := by decide

/-- A word that does not decode is none of 1 to 5 (30_encoding.md R68). -/
theorem toNat_of_decode_error {w : Word} {e : DecodeError} (h : decode w = .error e) : w.toNat = 0 ∨ 5 < w.toNat := by
  by_contra hw
  obtain ⟨i, _, hi⟩ := exists_encode_toNat ⟨w.toNat - 1, by omega⟩
  have hwi : w = encode i := BitVec.eq_of_toNat_eq (by simp only at hi; omega)
  rw [hwi, decode_encode] at h
  cases h

end Sys2Proof

namespace Sys2Proof.Machine

/-! ### The elementary changes of the block -/

/-- What one step can do to the block; T says which turns the step may have taken. -/
inductive BlockChange (T : Turn → Prop) (b : Block) : Block → Prop where
  | same : BlockChange T b b
  -- commands and illegal words (40_command.md R75 to R77)
  | abort (ht : T (.host (writeReq 0x008 (encode .abort)))) : BlockChange T b b.abort
  | illegal (w : Word) (ht : T (.host (writeReq 0x008 w))) (hm : b.mode ≠ .error) (hw : w.toNat = 0 ∨ 5 < w.toNat) :
      BlockChange T b (b.raise .illegalCmd (w.extractLsb' 0 16))
  | rejected (i : Instr) (ht : T (.host (writeReq 0x008 (encode i)))) (hm : b.mode ≠ .error) (ha : i ≠ .abort)
      (hrest : i = .freqClear ∨ i = .build → b.mode ∉ restingModes)
      (hstart : i = .encStart ∨ i = .decStart → b.mode ≠ .ready) :
      BlockChange T b (b.raise .badState ((opcode i).setWidth 16))
  | clearFreq (ht : T (.host (writeReq 0x008 (encode .freqClear)))) (hm : b.mode ∈ restingModes) :
      BlockChange T b b.clearFreq
  | startBuild (ht : T (.host (writeReq 0x008 (encode .build)))) (hm : b.mode ∈ restingModes) :
      BlockChange T b b.startBuild
  | startEncode (ht : T (.host (writeReq 0x008 (encode .encStart)))) (hm : b.mode = .ready) :
      BlockChange T b b.startEncode
  | startDecode (ht : T (.host (writeReq 0x008 (encode .decStart)))) (hm : b.mode = .ready) :
      BlockChange T b b.startDecode
  -- the other register writes (40_command.md R78 to R80, 41_freq_table.md R81)
  | writeIrqStatus (w : Word) (ht : T (.host (writeReq 0x014 w))) : BlockChange T b (b.writeIrqStatus w)
  | writeIrqEnable (w : Word) (ht : T (.host (writeReq 0x018 w))) : BlockChange T b (b.writeIrqEnable w)
  | writeCodeSel (w : Word) (ht : T (.host (writeReq 0x03C w))) : BlockChange T b (b.writeCodeSel w)
  | freqRejected (k : Fin 256) (w : Word) (ht : T (.host (writeReq (Reg.freq k).offset w)))
      (hm : b.mode ∈ [Mode.building, .encoding, .decoding]) : BlockChange T b (b.raise .badState (freqInfo k))
  | freqStored (k : Fin 256) (w : Word) (ht : T (.host (writeReq (Reg.freq k).offset w))) (hm : b.mode ∈ restingModes) :
      BlockChange T b { b with freq := b.freq.set k.val w k.isLt }.dropTree
  -- the builder (42_tree_build.md R86, R87)
  | weightOvf (hm : b.mode = .building) (hw : WMAX < freqTotal b.freq) : BlockChange T b (b.raise .weightOvf 0)
  | built (hm : b.mode = .building) (hw : freqTotal b.freq ≤ WMAX) :
      BlockChange T b { b with
        tree := (buildTree b.freq).toTree b.tree.node, mode := .ready, irqStatus := setIrq b.irqStatus .buildDone }
  -- the encoder (43_encoder.md R99 to R101)
  | badSymbol (s : Sym) (rest : List Sym) (hm : b.mode = .encoding) (hsr : b.enc.sr = []) (hf : b.enc.final = false)
      (hq : b.q.symIn = s :: rest) (ht : b.tree.inTree s = false) :
      BlockChange T b ({ b with q := { b.q with symIn := rest } }.raise .badSymbol (symInfo s))
  | loadEof (s : Sym) (rest : List Sym) (hm : b.mode = .encoding) (hsr : b.enc.sr = []) (hf : b.enc.final = false)
      (hq : b.q.symIn = s :: rest) (ht : b.tree.inTree s = true) (hs : s.toNat = EOF) :
      BlockChange T b { b with
        q := { b.q with symIn := rest }, enc := { b.enc with sr := b.tree.codeOf s, final := true } }
  | loadSym (s : Sym) (rest : List Sym) (hm : b.mode = .encoding) (hsr : b.enc.sr = []) (hf : b.enc.final = false)
      (hq : b.q.symIn = s :: rest) (ht : b.tree.inTree s = true) (hs : s.toNat ≠ EOF) :
      BlockChange T b { b with
        q := { b.q with symIn := rest }, enc := { b.enc with sr := b.tree.codeOf s }
        cnt := { b.cnt with encSym := b.cnt.encSym + 1 } }
  | encEmit (x : Bool) (rest : Code) (hm : b.mode = .encoding) (hsr : b.enc.sr = x :: rest)
      (hroom : b.q.bitOut.length < b.depths.bitOut.cap) :
      BlockChange T b { b with
        q := { b.q with bitOut := b.q.bitOut ++ [x] }, enc := { b.enc with sr := rest }
        cnt := { b.cnt with encBit := b.cnt.encBit + 1 } }
  | encFinish (hm : b.mode = .encoding) (hsr : b.enc.sr = []) (hf : b.enc.final = true) :
      BlockChange T b { b with mode := .encDone, irqStatus := setIrq b.irqStatus .encDone }
  -- the decoder (44_decoder.md R107 to R110)
  | decDescend (zero one : NodeIdx) (w : Word) (x : Bool) (rest : List Bool) (hm : b.mode = .decoding)
      (hn : b.tree.nodeAt b.dec.node = some (.internal zero one w)) (hq : b.q.bitIn = x :: rest) :
      BlockChange T b { b with
        q := { b.q with bitIn := rest }, dec := { b.dec with node := if x then one else zero }
        cnt := { b.cnt with decBit := b.cnt.decBit + 1 } }
  | decEmit (s : Sym) (w : Word) (hm : b.mode = .decoding) (hn : b.tree.nodeAt b.dec.node = some (.leaf s w))
      (hs : s.toNat ≠ EOF) (hroom : b.q.symOut.length < b.depths.symOut.cap) :
      BlockChange T b { b with
        q := { b.q with symOut := b.q.symOut ++ [symByte s] }, dec := { b.dec with node := b.tree.root }
        cnt := { b.cnt with decSym := b.cnt.decSym + 1 } }
  | decFinish (s : Sym) (w : Word) (hm : b.mode = .decoding) (hn : b.tree.nodeAt b.dec.node = some (.leaf s w))
      (hs : s.toNat = EOF) : BlockChange T b { b with mode := .decDone, irqStatus := setIrq b.irqStatus .decDone }
  | decTruncate (zero one : NodeIdx) (w : Word) (hm : b.mode = .decoding)
      (hn : b.tree.nodeAt b.dec.node = some (.internal zero one w)) (hq : b.q.bitIn = []) (he : b.dec.inEnd = true) :
      BlockChange T b (b.raise .truncated (nodeInfo16 b.dec.node))
  -- the ports (43_encoder.md R98, R102, 44_decoder.md R105, R106, R111) and the reset step
  | takeSymIn (d : Sym) (hm : b.mode = .encoding) (he : b.enc.eofIn = false)
      (hroom : b.q.symIn.length < b.depths.symIn.cap) :
      BlockChange T b { b with
        q := { b.q with symIn := b.q.symIn ++ [d] }, enc := { b.enc with eofIn := decide (d.toNat = EOF) } }
  | giveBitOut (x : Bool) (rest : List Bool) (hq : b.q.bitOut = x :: rest) :
      BlockChange T b { b with q := { b.q with bitOut := rest } }
  | takeBitIn (x : Bool) (hm : b.mode = .decoding) (he : b.dec.inEnd = false)
      (hroom : b.q.bitIn.length < b.depths.bitIn.cap) :
      BlockChange T b { b with q := { b.q with bitIn := b.q.bitIn ++ [x] } }
  | latchEnd (hm : b.mode = .decoding) (he : b.dec.inEnd = false) :
      BlockChange T b { b with dec := { b.dec with inEnd := true } }
  | giveSymOut (v : Byte) (rest : List Byte) (hq : b.q.symOut = v :: rest) :
      BlockChange T b { b with q := { b.q with symOut := rest } }
  | reset (ht : T .reset) : BlockChange T b (Block.reset b.depths)

section
variable {T : Turn → Prop} {b b' : Block}

theorem BlockChange.of_cmdEffect (i : Instr) (ht : T (.host (writeReq 0x008 (encode i)))) :
    BlockChange T b (cmdEffect i b) := by
  rcases cmdEffect_cases i b with ⟨rfl, e⟩ | ⟨_, _, e⟩ | ⟨ha, hm, hrest, hstart, e⟩ | ⟨rfl, hm, e⟩ | ⟨rfl, hm, e⟩ |
    ⟨rfl, hm, e⟩ | ⟨rfl, hm, e⟩ <;> rw [e]
  · exact .abort ht
  · exact .same
  · exact .rejected i ht hm ha hrest hstart
  · exact .clearFreq ht hm
  · exact .startBuild ht hm
  · exact .startEncode ht hm
  · exact .startDecode ht hm

/-- A register write, at the offset the map gives the register. -/
theorem BlockChange.of_writeEffect {r : Reg} {w : Word} (h : WriteEffect r w b b')
    (ht : r ≠ .reserved → T (.host (writeReq r.offset w))) : BlockChange T b b' := by
  cases h with
  | cmd hr i hd =>
    subst hr
    obtain rfl := eq_encode_of_decode hd
    exact .of_cmdEffect i (ht (by simp))
  | illegal hr e hd =>
    subst hr
    rcases b.illegalCmd_cases w with ⟨_, heq⟩ | ⟨hm, heq⟩ <;> rw [heq]
    · exact .same
    · exact .illegal w (ht (by simp)) hm (toNat_of_decode_error hd)
  | irqStatus hr => subst hr; exact .writeIrqStatus w (ht (by simp))
  | irqEnable hr => subst hr; exact .writeIrqEnable w (ht (by simp))
  | codeSel hr => subst hr; exact .writeCodeSel w (ht (by simp))
  | freq k hr =>
    subst hr
    rcases b.writeFreq_cases k w with ⟨_, heq⟩ | ⟨hm, heq⟩ | ⟨hm, heq⟩ <;> rw [heq]
    · exact .same
    · exact .freqRejected k w (ht (by simp)) hm
    · exact .freqStored k w (ht (by simp)) hm
  | ignored => exact .same

theorem BlockChange.of_builderStep (h : b.builderStep = some b') : BlockChange T b b' := by
  obtain ⟨hm, ⟨hw, rfl⟩ | ⟨hw, rfl⟩⟩ := Block.builderStep_cases h
  · exact .weightOvf hm hw
  · exact .built hm hw

theorem BlockChange.of_encoderStep (h : b.encoderStep = some b') : BlockChange T b b' := by
  rcases Block.encoderStep_cases h with h | h | h
  · obtain ⟨hm, hsr, hf, s, rest, hq, ⟨ht, rfl⟩ | ⟨ht, hs, rfl⟩ | ⟨ht, hs, rfl⟩⟩ := Block.encLoad_cases h
    · exact .badSymbol s rest hm hsr hf hq ht
    · exact .loadEof s rest hm hsr hf hq ht hs
    · exact .loadSym s rest hm hsr hf hq ht hs
  · obtain ⟨hm, hroom, x, rest, hsr, rfl⟩ := Block.encEmit_cases h
    exact .encEmit x rest hm hsr hroom
  · obtain ⟨hm, hsr, hf, rfl⟩ := Block.encFinish_cases h
    exact .encFinish hm hsr hf

theorem BlockChange.of_decoderStep (h : b.decoderStep = some b') : BlockChange T b b' := by
  rcases Block.decoderStep_cases h with h | h | h | h
  · obtain ⟨zero, one, w, x, rest, hn, hq, rfl⟩ := Block.decDescend_cases h
    obtain ⟨hm, hn⟩ := Block.decAt_eq_some.mp hn
    exact .decDescend zero one w x rest hm hn hq
  · obtain ⟨s, w, hn, hs, hroom, rfl⟩ := Block.decEmit_cases h
    obtain ⟨hm, hn⟩ := Block.decAt_eq_some.mp hn
    exact .decEmit s w hm hn hs hroom
  · obtain ⟨s, w, hn, hs, rfl⟩ := Block.decFinish_cases h
    obtain ⟨hm, hn⟩ := Block.decAt_eq_some.mp hn
    exact .decFinish s w hm hn hs
  · obtain ⟨zero, one, w, hn, hq, he, rfl⟩ := Block.decTruncate_cases h
    obtain ⟨hm, hn⟩ := Block.decAt_eq_some.mp hn
    exact .decTruncate zero one w hm hn hq he

end

/-- A write the bus serves goes to the register at its offset. -/
theorem takes_writeReq_offset {T : Turn → Prop} {r : BusReq} (ht : T (.host r)) (hr : r.wf = true ∧ r.write = true)
    (hne : regAt r.off ≠ .reserved) : T (.host (writeReq (regAt r.off).offset r.wdata)) := by
  have ha : r.off.toNat % 4 = 0 := by
    obtain ⟨hwf, _⟩ := hr
    simp only [BusReq.wf, Bool.and_eq_true, decide_eq_true_eq] at hwf
    exact hwf.2
  rwa [offset_regAt ha hne, ← eq_writeReq hr]

/-- Every step makes one of the elementary changes. -/
theorem step_blockChange {s s' : State} (h : step s = .next s') : BlockChange s.Takes s.blk s'.blk := by
  cases step_moved h with
  | stay hb _ => rw [hb]; exact .same
  | write r ht hr hb _ => exact .of_writeEffect hb (takes_writeReq_offset ht hr)
  | builder hb _ => exact .of_builderStep hb
  | encoder hb _ => exact .of_encoderStep hb
  | decoder hb _ => exact .of_decoderStep hb
  | latch hb _ =>
    obtain ⟨_, hm, he, hb⟩ := Block.latchEnd_cases hb
    rw [hb]; exact .latchEnd hm he
  | symSrc d hb _ _ _ _ =>
    obtain ⟨hm, he, hroom, hb⟩ := Block.takeSymIn_cases hb
    rw [hb]; exact .takeSymIn d hm he hroom
  | bitSnk x hb _ _ _ _ =>
    obtain ⟨rest, hq, hb⟩ := Block.giveBitOut_cases hb
    rw [hb]; exact .giveBitOut x rest hq
  | bitSrc x hb _ _ _ _ =>
    obtain ⟨hm, he, hroom, hb⟩ := Block.takeBitIn_cases hb
    rw [hb]; exact .takeBitIn x hm he hroom
  | symSnk v hb _ _ _ _ =>
    obtain ⟨rest, hq, hb⟩ := Block.giveSymOut_cases hb
    rw [hb]; exact .giveSymOut v rest hq
  | reset ht hb _ => rw [hb]; exact .reset ht

end Sys2Proof.Machine
end

section
/-! What every step keeps of the block (10_state.md R18, R21, R23, R41, R45, 60_exceptions.md R115, R118). -/

namespace Sys2Proof.Machine

section
variable {T : Turn → Prop} {b b' : Block}

theorem mem_restingModes {m : Mode} :
    m ∈ restingModes ↔ m = .idle ∨ m = .ready ∨ m = .encDone ∨ m = .decDone := by simp [restingModes]

/-! ### The depths (R18) -/

@[simp] theorem Block.reset_depths (d : Depths) : (Block.reset d).depths = d := rfl

theorem BlockChange.depths (h : BlockChange T b b') : b'.depths = b.depths := by cases h <;> rfl

theorem Depth.toNat_ofNat_cap (d : Depth) : (BitVec.ofNat 8 d.cap).toNat = d.cap := by
  have := Depth.cap_le d
  rw [BitVec.toNat_ofNat]; omega

/-! ### MODE and TREE_VALID (R21) -/

/-- A change of neither MODE nor TREE_VALID keeps the invariant between them. -/
theorem Block.ModeTree.congr (h : b.ModeTree) (hm : b'.mode = b.mode) (hv : b'.tree.valid = b.tree.valid) :
    b'.ModeTree := by
  simpa only [Block.ModeTree, hm, hv] using h

theorem Block.ModeTree.raise (b : Block) (c : ErrCode) (i : BitVec 16) : (b.raise c i).ModeTree := by
  simp [Block.ModeTree, Mode.hasTree]

/-- A step into IDLE or BUILDING that drops the tree establishes the invariant. -/
theorem Block.modeTree_of_dropped (hm : b.mode = .idle ∨ b.mode = .building) (hv : b.tree.valid = false) :
    b.ModeTree := by
  refine ⟨fun _ => hv, ?_⟩
  rcases hm with hm | hm <;> simp [hm, Mode.hasTree]

/-- A step between modes that have a tree keeps the invariant. -/
theorem Block.ModeTree.of_hasTree (h : b.ModeTree) (hm : b.mode.hasTree = true) (hm' : b'.mode.hasTree = true)
    (hv : b'.tree.valid = b.tree.valid) : b'.ModeTree := by
  refine ⟨fun hmode => ?_, fun _ => hv.trans (h.2 hm)⟩
  rcases hmode with hmode | hmode <;> simp [hmode, Mode.hasTree] at hm'

theorem BlockChange.modeTree (h : BlockChange T b b') (hinv : b.ModeTree) : b'.ModeTree := by
  cases h with
  | illegal | rejected | freqRejected | weightOvf | badSymbol | decTruncate => exact .raise _ _ _
  | abort | clearFreq | freqStored | reset => exact Block.modeTree_of_dropped (.inl rfl) rfl
  | startBuild => exact Block.modeTree_of_dropped (.inr rfl) rfl
  | built => exact ⟨by simp, fun _ => rfl⟩
  | startEncode _ hm | startDecode _ hm | encFinish hm | decFinish _ _ hm =>
    exact hinv.of_hasTree (by rw [hm]; rfl) rfl rfl
  | _ => exact hinv.congr rfl rfl

/-! ### ERR and ERROR (60_exceptions.md R115, R118) -/

theorem Block.ErrRecord.congr (h : b.ErrRecord) (hm : b'.mode = b.mode) (he : b'.err = b.err) : b'.ErrRecord := by
  simpa only [Block.ErrRecord, hm, he] using h

theorem Block.ErrRecord.raise (b : Block) {c : ErrCode} (hc : c ≠ .none) (i : BitVec 16) : (b.raise c i).ErrRecord := by
  simp [Block.ErrRecord, hc]

theorem Block.errRecord_cleared (hm : b.mode ≠ .error) (he : b.err = ⟨.none, 0⟩) : b.ErrRecord := by
  simp [Block.ErrRecord, hm, he]

/-- A step between other modes than ERROR that leaves ERR alone keeps the invariant. -/
theorem Block.ErrRecord.of_ne_error (h : b.ErrRecord) (hm : b.mode ≠ .error) (hm' : b'.mode ≠ .error)
    (he : b'.err = b.err) : b'.ErrRecord := by
  obtain ⟨hiff, hinfo⟩ := h
  rw [Block.ErrRecord, he]
  exact ⟨by simpa [hm, hm'] using hiff, hinfo⟩

theorem ne_error_of_mem_restingModes {m : Mode} (h : m ∈ restingModes) : m ≠ .error := by
  rintro rfl; simp [restingModes] at h

theorem BlockChange.errRecord (h : BlockChange T b b') (hinv : b.ErrRecord) : b'.ErrRecord := by
  cases h with
  | illegal | rejected | freqRejected | weightOvf | badSymbol | decTruncate => exact .raise _ (by decide) _
  | abort | reset => exact Block.errRecord_cleared nofun rfl
  | clearFreq _ hm | freqStored _ _ _ hm | startBuild _ hm =>
    exact hinv.of_ne_error (ne_error_of_mem_restingModes hm) (by simp) rfl
  | startEncode _ hm | startDecode _ hm | built hm | encFinish hm | decFinish _ _ hm =>
    exact hinv.of_ne_error (by simp [hm]) (by simp) rfl
  | _ => exact hinv.congr rfl rfl

/-! ### The queues (R41) -/

theorem BlockChange.queueBounds (h : BlockChange T b b') (hinv : b.QueueBounds) : b'.QueueBounds := by
  obtain ⟨hsi, hbo, hbi, hso⟩ := hinv
  cases h with
  | abort | reset => exact ⟨Nat.zero_le _, Nat.zero_le _, Nat.zero_le _, Nat.zero_le _⟩
  | startEncode => exact ⟨Nat.zero_le _, hbo, hbi, hso⟩
  | startDecode => exact ⟨hsi, hbo, Nat.zero_le _, hso⟩
  | badSymbol s rest _ _ _ hq | loadEof s rest _ _ _ hq | loadSym s rest _ _ _ hq =>
    rw [hq, List.length_cons] at hsi
    exact ⟨Nat.le_of_succ_le hsi, hbo, hbi, hso⟩
  | takeSymIn d _ _ hroom => exact ⟨by simpa using hroom, hbo, hbi, hso⟩
  | encEmit x _ _ _ hroom => exact ⟨hsi, by simpa using hroom, hbi, hso⟩
  | giveBitOut x rest hq =>
    rw [hq, List.length_cons] at hbo
    exact ⟨hsi, Nat.le_of_succ_le hbo, hbi, hso⟩
  | takeBitIn x _ _ hroom => exact ⟨hsi, hbo, by simpa using hroom, hso⟩
  | decDescend _ _ _ _ _ _ _ hq =>
    rw [hq, List.length_cons] at hbi
    exact ⟨hsi, hbo, Nat.le_of_succ_le hbi, hso⟩
  | decEmit _ _ _ _ _ hroom => exact ⟨hsi, hbo, hbi, by simpa using hroom⟩
  | giveSymOut v rest hq =>
    rw [hq, List.length_cons] at hso
    exact ⟨hsi, hbo, hbi, Nat.le_of_succ_le hso⟩
  | _ => exact ⟨hsi, hbo, hbi, hso⟩

/-! ### IRQ_STATUS (R23, R45) -/

/-- The change of MODE that is the event of an interrupt source (60_exceptions.md R120). -/
def IrqSource.Event : IrqSource → Mode → Mode → Prop
  | .buildDone, m, m' => m = .building ∧ m' = .ready
  | .encDone, m, m' => m = .encoding ∧ m' = .encDone
  | .decDone, m, m' => m = .decoding ∧ m' = .decDone
  | .error, m, m' => m ≠ .error ∧ m' = .error

/-- IRQ_STATUS stays, or a source's event sets its bit, or a write or the reset step clears bits. -/
theorem BlockChange.irqStatus (h : BlockChange T b b') :
    b'.irqStatus = b.irqStatus ∨
      (∃ src : IrqSource, b'.irqStatus = setIrq b.irqStatus src ∧ src.Event b.mode b'.mode) ∨
      (∃ w, T (.host (writeReq 0x014 w)) ∧ b'.irqStatus = b.irqStatus &&& ~~~ irqMask w) ∨
      (T .reset ∧ b'.irqStatus = 0) := by
  cases h with
  | illegal _ _ hm | rejected _ _ hm => exact .inr (.inl ⟨.error, rfl, hm, rfl⟩)
  | freqRejected _ _ _ hm =>
    refine .inr (.inl ⟨.error, rfl, ?_, rfl⟩)
    intro he; simp [he] at hm
  | weightOvf hm | badSymbol _ _ hm | decTruncate _ _ _ hm => exact .inr (.inl ⟨.error, rfl, by simp [hm], rfl⟩)
  | built hm => exact .inr (.inl ⟨.buildDone, rfl, hm, rfl⟩)
  | encFinish hm => exact .inr (.inl ⟨.encDone, rfl, hm, rfl⟩)
  | decFinish _ _ hm => exact .inr (.inl ⟨.decDone, rfl, hm, rfl⟩)
  | writeIrqStatus w ht => exact .inr (.inr (.inl ⟨w, ht, rfl⟩))
  | reset ht => exact .inr (.inr (.inr ⟨ht, rfl⟩))
  | _ => exact .inl rfl

end

/-- The position of a source's bit (60_exceptions.md R120). -/
def IrqSource.bit : IrqSource → Nat
  | .buildDone => 0
  | .encDone => 1
  | .decDone => 2
  | .error => 3

theorem IrqSource.mask_getLsbD (src : IrqSource) {k : Nat} (hk : k < 4) :
    src.mask.getLsbD k = decide (k = src.bit) := by
  have hall : ∀ j : Fin 4, src.mask.getLsbD j.val = decide (j.val = src.bit) := by cases src <;> decide
  exact hall ⟨k, hk⟩

theorem irqMask_getLsbD (w : Word) {k : Nat} (hk : k < 4) : (irqMask w).getLsbD k = w.getLsbD k := by
  simp [irqMask, hk]

theorem writeReq_wf {off : BitVec 14} (w : Word) (h : off.toNat % 4 = 0) : (writeReq off w).wf = true := by
  simp [BusReq.wf, writeReq, h]

/-! ### The changes of MODE (R21) -/

/-- Outside the modes that permit BUILD, and ERROR, an engine runs. -/
theorem engineRuns_of_not_mem_restingModes {m : Mode} (hm : m ≠ .error) (h : m ∉ restingModes) :
    m = .building ∨ m = .encoding ∨ m = .decoding := by
  rw [mem_restingModes] at h
  cases m <;> simp_all

/-- Leaving a resting mode other than IDLE. -/
theorem resting_ne_idle {m : Mode} (h : m ∈ restingModes) (hne : Mode.idle ≠ m) :
    m = .ready ∨ m = .encDone ∨ m = .decDone :=
  (mem_restingModes.mp h).resolve_left hne.symm

/-! ### Every step -/

/-- Settles O56: each elementary change keeps each of the three invariants. -/
theorem stepKeepsControlInvariants : Obligations.StepKeepsControlInvariants := by
  unfold Obligations.StepKeepsControlInvariants
  intro s s' h
  have hc := step_blockChange h
  exact ⟨hc.modeTree, hc.errRecord, hc.queueBounds⟩

/-- Settles O19: of the four things that can happen to IRQ_STATUS, only a write of 1 and reset clear a bit, and only a
source's event sets one. -/
theorem irqStatusIsSticky : Obligations.IrqStatusIsSticky := by
  unfold Obligations.IrqStatusIsSticky
  intro s s' k h hk
  rcases (step_blockChange h).irqStatus with he | ⟨src, he, hev⟩ | ⟨w, ht, he⟩ | ⟨ht, he⟩
  · rw [he]
    exact ⟨fun h₁ h₀ => by simp [h₁] at h₀, fun h₀ h₁ => by simp [h₀] at h₁⟩
  · rw [he, setIrq_getLsbD, src.mask_getLsbD hk]
    refine ⟨fun h₁ h₀ => by simp [h₁] at h₀, fun h₀ h₁ => ?_⟩
    have hbit : k = src.bit := by simpa [h₀] using h₁
    subst hbit
    cases src with
    | buildDone => exact .inl ⟨rfl, hev⟩
    | encDone => exact .inr (.inl ⟨rfl, hev⟩)
    | decDone => exact .inr (.inr (.inl ⟨rfl, hev⟩))
    | error => exact .inr (.inr (.inr ⟨rfl, hev⟩))
  · have hbit : s'.blk.irqStatus.getLsbD k = (s.blk.irqStatus.getLsbD k && !w.getLsbD k) := by
      rw [he, BitVec.getLsbD_and, BitVec.getLsbD_not, irqMask_getLsbD w hk]; simp [hk]
    rw [hbit]
    refine ⟨fun h₁ h₀ => .inr ⟨writeReq 0x014 w, ht, writeReq_wf w (by decide), rfl, rfl, ?_⟩,
      fun h₀ h₁ => by simp [h₀] at h₁⟩
    simpa only [h₁, Bool.true_and, Bool.not_eq_false', writeReq] using h₀
  · exact ⟨fun _ _ => .inl ht, fun _ h₁ => by simp [he] at h₁⟩

/-- Settles O58: each elementary change that changes MODE is one of those named. -/
theorem modeChangesOnlyAsNamed : Obligations.ModeChangesOnlyAsNamed := by
  unfold Obligations.ModeChangesOnlyAsNamed
  intro s s' h hne writes writesFreq engineRuns
  have hc := step_blockChange h
  generalize s'.blk = b' at hc hne
  cases hc with
  | abort ht => exact Or.inr (Or.inl ht)
  | illegal w ht _ hw => exact Or.inl ⟨rfl, w, ht, hw⟩
  | rejected i ht hm ha hrest hstart =>
    refine Or.inr (Or.inl ⟨rfl, ?_⟩)
    cases i with
    | abort => exact absurd rfl ha
    | freqClear => exact .inl ⟨engineRuns_of_not_mem_restingModes hm (hrest (.inl rfl)), .inl ht⟩
    | build => exact .inl ⟨engineRuns_of_not_mem_restingModes hm (hrest (.inr rfl)), .inr (.inl ht)⟩
    | encStart => exact .inr ⟨hstart (.inl rfl), .inl ht⟩
    | decStart => exact .inr ⟨hstart (.inr rfl), .inr ht⟩
  | clearFreq ht hm => exact Or.inr (Or.inr ⟨resting_ne_idle hm hne, .inl ht⟩)
  | freqStored k w ht hm => exact Or.inr (Or.inr ⟨resting_ne_idle hm hne, .inr ⟨k, w, ht⟩⟩)
  | startBuild ht hm => exact ⟨mem_restingModes.mp hm, ht⟩
  | startEncode ht hm => exact ⟨hm, ht⟩
  | startDecode ht hm => exact ⟨hm, ht⟩
  | freqRejected k w ht hm =>
    exact Or.inr (Or.inl ⟨rfl, .inl ⟨by simpa using hm, .inr (.inr ⟨k, w, ht⟩)⟩⟩)
  | weightOvf hm hw => exact Or.inr (Or.inr (Or.inl ⟨rfl, hm, hw⟩))
  | built hm hw => exact ⟨hm, hw⟩
  | badSymbol _ _ hm => exact Or.inr (Or.inr (Or.inr (Or.inl ⟨rfl, hm⟩)))
  | encFinish hm => exact hm
  | decFinish _ _ hm => exact hm
  | decTruncate _ _ _ hm => exact Or.inr (Or.inr (Or.inr (Or.inr ⟨rfl, hm⟩)))
  | reset ht => exact Or.inl ht
  | _ => exact absurd rfl hne

end Sys2Proof.Machine
end

section
/-! What a read of a register shows (10_state.md R17 to R36, 30_encoding.md R72, 92_eei_decisions.md D17). -/

namespace Sys2Proof.Machine

/-! ### CONFIG (R18) -/

/-- Settles O11: a depth fits its byte, and no elementary change touches the depths. -/
theorem configShowsConstantDepths : Obligations.ConfigShowsConstantDepths := by
  unfold Obligations.ConfigShowsConstantDepths
  refine ⟨fun b => ?fields, fun d => ⟨Depth.cap_pos d, Depth.cap_le d⟩, fun s s' h => ?constant⟩
  case fields =>
    simp (disch := decide) only [Block.readReg, Block.configWord, BitVec.extractLsb'_append_eq_of_add_le,
      BitVec.extractLsb'_append_eq_of_le, Nat.reduceSub, BitVec.extractLsb'_eq_self, Depth.toNat_ofNat_cap, and_self]
  case constant =>
    have hd := (step_blockChange h).depths
    exact ⟨hd, by simp only [Block.readReg, Block.configWord, hd]⟩

/-! ### STATUS and ERR (R20, R22) -/

@[simp] theorem bit1_getLsbD_zero (x : Bool) : (bit1 x).getLsbD 0 = x := by simp [bit1]

/-- Settles O10: the fields of STATUS are the parts of a concatenation, each at the sum of the widths below it. -/
theorem statusShowsItsFields : Obligations.StatusShowsItsFields := by
  unfold Obligations.StatusShowsItsFields
  refine ⟨fun b => ?fields, by decide, fun d => ?reset⟩
  case fields =>
    simp (disch := decide) only [Block.readReg, Block.statusWord, BitVec.extractLsb'_append_eq_of_add_le,
      BitVec.extractLsb'_append_eq_of_le, BitVec.extractLsb'_eq_self, BitVec.getLsbD_append, Nat.reduceSub, Nat.reduceLT,
      if_true, if_false, bit1_getLsbD_zero]
    trivial
  case reset =>
    simp only [Block.readReg, Block.statusWord, Block.reset, Mode.bits, List.isEmpty_nil]
    decide

/-- Settles O12: the fields of ERR are the parts of a concatenation, and widening keeps a value. -/
theorem errAndPlainRegisterViews : Obligations.ErrAndPlainRegisterViews := by
  unfold Obligations.ErrAndPlainRegisterViews
  intro b
  refine ⟨rfl, ?code, ?zeros, ?info, BitVec.toNat_setWidth_of_le (by decide), BitVec.toNat_setWidth_of_le (by decide),
    BitVec.toNat_setWidth_of_le (by decide), BitVec.toNat_setWidth_of_le (by decide), rfl, rfl, rfl, rfl, by decide⟩
  all_goals
    simp (disch := decide) only [Block.readReg, Block.errWord, BitVec.extractLsb'_append_eq_of_add_le,
      BitVec.extractLsb'_append_eq_of_le, Nat.reduceSub, BitVec.extractLsb'_eq_self]

/-! ### Readbacks of the tree and of a code (R25 to R36) -/

theorem Tree.inTree_of_not_valid {t : Tree} (hv : t.valid = false) (s : Sym) : t.inTree s = false := by
  simp [Tree.inTree, hv]

theorem Block.slotWord_of_inArena {b : Block} {i : Fin NODE_MAX} (view : Node → Word) (hv : b.tree.valid = true)
    (hi : i.val + 2 ≤ 2 * b.tree.nleaf.toNat) : b.slotWord i view = view b.tree.node[i] := by
  simp [Block.slotWord, Tree.inArena, hv, hi]

theorem Block.slotWord_eq_zero {b : Block} {i : Fin NODE_MAX} (view : Node → Word)
    (h : b.tree.valid = false ∨ 2 * b.tree.nleaf.toNat < i.val + 2) : b.slotWord i view = 0 := by
  rw [Block.slotWord, if_neg]
  rcases h with h | h <;> simp [h, Tree.inArena]

/-- Settles O13: every readback is gated by TREE_VALID, the readbacks of a code through INTREE. -/
theorem noTreeReadsZero : Obligations.NoTreeReadsZero := by
  unfold Obligations.NoTreeReadsZero
  intro b hv
  have hin := Tree.inTree_of_not_valid hv b.codeSel
  refine ⟨?nleaf, ?root, ?total, ?codeLen, fun j => ?codeBits, fun i => Block.slotWord_eq_zero _ (.inl hv),
    fun i => Block.slotWord_eq_zero _ (.inl hv)⟩
  case nleaf => simp [Block.readReg, Block.nleafWord, hv]
  case root => simp [Block.readReg, Block.rootWord, hv]
  case total => simp [Block.readReg, Block.totalWord, hv]
  case codeLen => simp [Block.readReg, Block.codeLenWord, hin]
  case codeBits => simp [Block.readReg, Block.codeBitsWord, hin]

theorem Node.infoWord_leaf (s : Sym) (w : Word) : (Node.leaf s w).infoWord = 0x80000000 ||| s.setWidth 32 := by
  apply BitVec.eq_of_toNat_eq
  rw [BitVec.toNat_or, BitVec.toNat_setWidth_of_le (by decide)]
  simp only [Node.infoWord, BitVec.toNat_append]
  rfl

/-- Zeros above each child index: the one-branch in bits [25:16], the zero-branch in bits [9:0]. -/
theorem Node.infoWord_internal (zero one : NodeIdx) (w : Word) :
    (Node.internal zero one w).infoWord = (one.setWidth 32 <<< 16) ||| zero.setWidth 32 := by
  have hone : one.toNat <<< 16 < 2 ^ 32 := by
    have := one.isLt
    rw [Nat.shiftLeft_eq]; omega
  apply BitVec.eq_of_toNat_eq
  rw [BitVec.toNat_or, BitVec.toNat_shiftLeft, BitVec.toNat_setWidth_of_le (by decide),
    BitVec.toNat_setWidth_of_le (by decide), Nat.mod_eq_of_lt hone]
  simp only [Node.infoWord, BitVec.toNat_append]
  simp [← Nat.shiftLeft_add]

/-- Settles O14: the readback shows the slot within the tree's indices and 0 elsewhere. -/
theorem nodeReadbackShowsTheArena : Obligations.NodeReadbackShowsTheArena := by
  unfold Obligations.NodeReadbackShowsTheArena
  intro b i
  refine ⟨fun hv hi => ⟨fun s w hn => ?leaf, fun zero one w hn => ?internal⟩,
    fun h => ⟨Block.slotWord_eq_zero _ h, Block.slotWord_eq_zero _ h⟩⟩
  all_goals simp only [Block.readReg, Block.slotWord_of_inArena _ hv hi, hn]
  case leaf => exact ⟨Node.infoWord_leaf s w, rfl⟩
  case internal => exact ⟨Node.infoWord_internal zero one w, rfl⟩

/-! ### The words of a code (R32) -/

theorem bit1_setWidth_getLsbD (x : Bool) (k : Nat) :
    ((bit1 x).setWidth 32 : Word).getLsbD k = (decide (k = 0) && x) := by
  cases k with
  | zero => simp [bit1]
  | succ k => simp [bit1]

/-- Shifting in n bits, the first of them first, leaves the last one in bit 0 and the first in bit n − 1. -/
theorem foldl_shiftIn_getLsbD (g : Nat → Bool) (n k : Nat) (hn : n ≤ 32) :
    ((List.range n).foldl (fun (acc : Word) t => (acc <<< 1) ||| (bit1 (g t)).setWidth 32) 0).getLsbD k =
      (decide (k < n) && g (n - 1 - k)) := by
  induction n generalizing k with
  | zero => simp
  | succ n ih =>
    rw [List.range_succ, List.foldl_append]
    simp only [List.foldl_cons, List.foldl_nil, BitVec.getLsbD_or, BitVec.getLsbD_shiftLeft, ih _ (by omega),
      bit1_setWidth_getLsbD]
    cases k with
    | zero => simp
    | succ k =>
      have hlt : k < n → k + 1 < 32 := by omega
      have hsub : n - 1 - k = n - (k + 1) := by omega
      by_cases hk : k < n <;> simp [hk, hlt, hsub]

theorem codeWord_getLsbD (p : Code) (j : Nat) {t : Nat} (ht : t < 32) :
    (codeWord p j).getLsbD (31 - t) = (p[32 * j + t]?).getD false := by
  rw [codeWord, foldl_shiftIn_getLsbD (fun t => (p[32 * j + t]?).getD false) 32 _ (Nat.le_refl 32)]
  have hlt : 31 - t < 32 := by omega
  have hsub : 32 - 1 - (31 - t) = t := by omega
  simp [hlt, hsub]

/-- Settles O15: with INTREE the words are the code's length and its bits as shifted in, without it they are 0. -/
theorem codeReadbackShowsTheCode : Obligations.CodeReadbackShowsTheCode := by
  unfold Obligations.CodeReadbackShowsTheCode
  intro b hlen
  cases hin : b.tree.inTree b.codeSel with
  | false => simp [Block.readReg, Block.codeLenWord, Block.codeBitsWord, hin]
  | true =>
    simp only [Block.readReg, Block.codeLenWord, Block.codeBitsWord, hin, if_true]
    refine ⟨?valid, ?zeros, ?length, fun j t ht => ?bits⟩
    case valid => rw [BitVec.getLsbD_append, BitVec.getLsbD_append]; rfl
    case zeros =>
      simp (disch := decide) only [BitVec.extractLsb'_append_eq_of_add_le,
        BitVec.extractLsb'_append_eq_of_le, Nat.reduceSub, BitVec.extractLsb'_eq_self]
    case length =>
      simp (disch := decide) only [BitVec.extractLsb'_append_eq_of_add_le,
        BitVec.extractLsb'_eq_self, BitVec.toNat_ofNat]
      omega
    case bits => simp [codeWord_getLsbD _ _ ht]

end Sys2Proof.Machine
end

section
/-! The modes of the engines, the state after reset, and command words written to CMD (10_state.md R19, R21, R46,
40_command.md R75, 60_exceptions.md R124). -/

namespace Sys2Proof.Machine

/-! ### The engines (R21, R124) -/

theorem Block.builderStep_isSome (b : Block) : b.builderStep.isSome = true ↔ b.mode = .building := by
  unfold Block.builderStep
  split_ifs <;> simp_all

theorem Block.mode_of_encoderStep {b b' : Block} (h : b.encoderStep = some b') : b.mode = .encoding := by
  rcases Block.encoderStep_cases h with h | h | h
  · exact (Block.encLoad_cases h).1
  · exact (Block.encEmit_cases h).1
  · exact (Block.encFinish_cases h).1

theorem Block.mode_of_decAt {b : Block} {n : Node} (h : b.decAt = some n) : b.mode = .decoding :=
  (Block.decAt_eq_some.mp h).1

theorem Block.mode_of_decoderStep {b b' : Block} (h : b.decoderStep = some b') : b.mode = .decoding := by
  rcases Block.decoderStep_cases h with h | h | h | h
  · obtain ⟨_, _, _, _, _, hn, _⟩ := Block.decDescend_cases h
    exact Block.mode_of_decAt hn
  · obtain ⟨_, _, hn, _⟩ := Block.decEmit_cases h
    exact Block.mode_of_decAt hn
  · obtain ⟨_, _, hn, _⟩ := Block.decFinish_cases h
    exact Block.mode_of_decAt hn
  · obtain ⟨_, _, _, hn, _⟩ := Block.decTruncate_cases h
    exact Block.mode_of_decAt hn

/-- Settles O32: each engine's step, where it is enabled, names its mode. -/
theorem enginesStepOnlyInTheirModes : Obligations.EnginesStepOnlyInTheirModes := by
  unfold Obligations.EnginesStepOnlyInTheirModes
  intro b
  refine ⟨b.builderStep_isSome, fun h => ?encoder, fun h => ?decoder⟩
  case encoder =>
    obtain ⟨_, hb⟩ := Option.isSome_iff_exists.mp h
    exact Block.mode_of_encoderStep hb
  case decoder =>
    obtain ⟨_, hb⟩ := Option.isSome_iff_exists.mp h
    exact Block.mode_of_decoderStep hb

/-! ### The state after reset (R46) -/

theorem Block.inv_reset (d : Depths) : (Block.reset d).Inv where
  modeTree := Block.modeTree_of_dropped (.inl rfl) rfl
  errRecord := Block.errRecord_cleared nofun rfl
  queueBounds := ⟨Nat.zero_le _, Nat.zero_le _, Nat.zero_le _, Nat.zero_le _⟩
  treeCurrent := nofun
  decoderInTree := by simp [Block.DecoderInTree, Block.reset]
  eofLast := by simp [Block.EofLast, Block.reset]

/-- Settles O55: the block after reset meets the invariants, whatever its depths. -/
theorem resetStateMeetsTheInvariants : Obligations.ResetStateMeetsTheInvariants := Block.inv_reset Config.depths

/-! ### A command word written to CMD (40_command.md R75) -/

/-- An aligned write of 4 bytes is answered 0 and writes the register at its offset (20_memory.md R49). -/
theorem hostStep_writeReq {off : BitVec 14} (w : Word) (h : off.toNat % 4 = 0) (s : State) :
    hostStep (writeReq off w) s = regWrite (regAt off) w (s.answer 0 false) := by
  simp only [hostStep, Block.busAnswer, writeReq_wf w h]
  rfl

/-- A bus write of a command's word is answered and runs the command. -/
theorem hostStep_command {w : Word} {i : Instr} (h : decode w = .ok i) (s : State) :
    hostStep (writeReq 0x008 w) s = exec i (s.answer 0 false) := by
  have hcmd : regAt 0x008 = .cmd := rfl
  rw [hostStep_writeReq w (by decide), hcmd]
  simp only [regWrite, cmdWrite, h]

/-- Settles O4: both ways to CMD end in the bus write. -/
theorem stepRunsDecodedCommand : Obligations.StepRunsDecodedCommand := by
  unfold Obligations.StepRunsDecodedCommand
  refine ⟨fun s ts w i hts hd => ?turn, fun s rest w i hnext hprog hd => ?prog⟩
  case turn =>
    rw [← hostStep_command hd]
    simp [step, hts, takeTurn, turn, agentTurn]
  case prog =>
    rw [step_of_progNext hnext, ← hostStep_command hd]
    simp [takeTurn, turn, progTurn, hprog, stmtTurn, stmtOver, agentTurn]

end Sys2Proof.Machine
end

section
/-! What the host bus answers and what it leaves unchanged (20_memory.md R49 to R54). -/

namespace Sys2Proof

theorem BusReq.wf_iff {r : BusReq} : r.wf = true ↔ r.size = 4 ∧ r.off.toNat % 4 = 0 := by
  simp [BusReq.wf]

/-- The registers a write can have an effect on (R55). -/
def Reg.writable : Reg → Bool
  | .cmd | .irqStatus | .irqEnable | .codeSel | .freq _ => true
  | _ => false

end Sys2Proof

namespace Sys2Proof.Machine

/-! ### Requests of the host's turn (R49, R50) -/

/-- A host's turn is its bus request. -/
theorem step_host {s : State} {ts : List Turn} {r : BusReq} (h : s.env.turns = .host r :: ts) :
    step s = hostStep r (s.withTurns ts) := by
  simp [step, h, takeTurn, turn, agentTurn]

/-- A request that the bus refuses, or that reads, is answered and does nothing else. -/
theorem hostStep_answers {r : BusReq} (h : r.wf = false ∨ r.write = false) (s : State) :
    hostStep r s = .next (s.answer (s.blk.busAnswer r).rdata (s.blk.busAnswer r).err) := by
  have hno : (r.wf && r.write) = false := by rcases h with h | h <;> simp [h]
  simp [hostStep, hno]

theorem Block.busAnswer_of_refused {r : BusReq} (h : r.wf = false) (b : Block) : b.busAnswer r = ⟨0, true⟩ := by
  simp [Block.busAnswer, h]

/-- A read is answered with its register's word where the bus serves it. -/
theorem Block.busAnswer_of_read {r : BusReq} (h : r.write = false) (b : Block) :
    b.busAnswer r =
      if r.size = 4 ∧ r.off.toNat % 4 = 0 then ⟨b.readReg (regAt r.off), false⟩ else ⟨0, true⟩ := by
  simp [Block.busAnswer, h, BusReq.wf_iff]

/-- Settles O5: a request of another size or alignment is one that the bus refuses. -/
theorem malformedAccessAnswersErrorAndChangesNothing : Obligations.MalformedAccessAnswersErrorAndChangesNothing := by
  unfold Obligations.MalformedAccessAnswersErrorAndChangesNothing
  intro s ts r hts hbad
  have hwf : r.wf = false := by
    rw [← Bool.not_eq_true, BusReq.wf_iff]; omega
  rw [step_host hts, hostStep_answers (.inl hwf), Block.busAnswer_of_refused hwf]

/-! ### Reads (R54) -/

/-- Settles O6: the answer to a read is a function of the block and the request. -/
theorem readsHaveNoSideEffect : Obligations.ReadsHaveNoSideEffect := by
  unfold Obligations.ReadsHaveNoSideEffect
  intro s ts r hts hread a
  have hstep : ∀ (s' : State) (ts' : List Turn), s'.blk = s.blk → s'.env.turns = .host r :: ts' →
      step s' = .next ((s'.withTurns ts').answer a.rdata a.err) := by
    intro s' ts' hblk hts'
    have ha : (s'.withTurns ts').blk.busAnswer r = a := by
      rw [State.withTurns_blk, hblk, Block.busAnswer_of_read hread]
    rw [step_host hts', hostStep_answers (.inr hread), ha]
  exact ⟨hstep s ts rfl hts, hstep⟩

/-! ### Writes that are ignored, and registers that read 0 (R51 to R53) -/

theorem regWrite_of_not_writable {r : Reg} (h : r.writable = false) (w : Word) (s : State) :
    regWrite r w s = .next s := by
  cases r with
  | cmd | irqStatus | irqEnable | codeSel | freq _ => cases h
  | _ => rfl

/-- An aligned write of 4 bytes at the offset of a register that takes no writes is answered 0 and does nothing else. -/
theorem hostStep_writeReq_of_not_writable {off : BitVec 14} (hoff : off.toNat % 4 = 0)
    (h : (regAt off).writable = false) (w : Word) (s : State) :
    hostStep (writeReq off w) s = .next (s.answer 0 false) := by
  rw [hostStep_writeReq w hoff, regWrite_of_not_writable h]

/-- A served read of a register that shows 0 is answered 0 and does nothing else. -/
theorem hostStep_read_of_zero {r : BusReq} {s : State} (hwf : r.wf = true) (hread : r.write = false)
    (hzero : s.blk.readReg (regAt r.off) = 0) : hostStep r s = .next (s.answer 0 false) := by
  rw [hostStep_answers (.inr hread), Block.busAnswer_of_read hread, if_pos (BusReq.wf_iff.mp hwf), hzero]

/-- Settles O7: no register is at a reserved offset, so nothing is shown and nothing written there; CMD shows 0. -/
theorem reservedOffsetsAndCmdRead : Obligations.ReservedOffsetsAndCmdRead := by
  unfold Obligations.ReservedOffsetsAndCmdRead
  refine ⟨fun s ts r hts hsize hoff hrange => ?reserved, fun s ts hts => ?cmd⟩
  case reserved =>
    have hreg : regAt r.off = .reserved := regAt_of_inReservedRange hrange
    have hwf : r.wf = true := BusReq.wf_iff.mpr ⟨hsize, hoff⟩
    rw [step_host hts]
    cases hw : r.write with
    | false => exact hostStep_read_of_zero hwf hw (by rw [hreg]; rfl)
    | true =>
      rw [eq_writeReq ⟨hwf, hw⟩]
      exact hostStep_writeReq_of_not_writable hoff (by rw [hreg]; rfl) _ _
  case cmd =>
    rw [step_host hts]
    exact hostStep_read_of_zero rfl rfl rfl

/-- Settles O8: no read-only register takes writes, and each stands at its own offset. -/
theorem readOnlyWritesAreIgnored : Obligations.ReadOnlyWritesAreIgnored := by
  unfold Obligations.ReadOnlyWritesAreIgnored
  intro s ts r w hts hr
  have hro : r.writable = false := by
    rcases hr with rfl | rfl | rfl | rfl | rfl | rfl | rfl | rfl | rfl | rfl | rfl | rfl | rfl | ⟨_, rfl⟩ | rfl |
      ⟨_, rfl⟩ | ⟨_, rfl⟩ <;> rfl
  rw [step_host hts, hostStep_writeReq_of_not_writable r.offset_aligned (by rwa [regAt_offset])]

end Sys2Proof.Machine
end

section
/-! The decoder of command words inverts the encoder (30_encoding.md R66 to R69). -/

namespace Sys2Proof

/-- A word is a command exactly when it is that command's word. -/
theorem decode_eq_ok_iff {w : Word} {i : Instr} : decode w = .ok i ↔ w = encode i :=
  ⟨eq_encode_of_decode, fun h => by rw [h, decode_encode]⟩

/-- The command words are 1 to 5 (R67). -/
theorem encode_toNat_bounds (i : Instr) : 1 ≤ (encode i).toNat ∧ (encode i).toNat ≤ 5 := by cases i <;> decide

theorem exists_decode_iff {w : Word} : (∃ i, decode w = .ok i) ↔ 1 ≤ w.toNat ∧ w.toNat ≤ 5 := by
  constructor
  · rintro ⟨i, hd⟩
    rw [eq_encode_of_decode hd]
    exact encode_toNat_bounds i
  · intro hw
    cases hd : decode w with
    | ok i => exact ⟨i, rfl⟩
    | error e => have := toNat_of_decode_error hd; omega

/-- The reserved bits are checked before the opcode, and nothing else is refused for them (R68). -/
theorem decode_eq_reservedBits_iff {w : Word} : decode w = .error .reservedBits ↔ rsvField w ≠ 0 := by
  unfold decode
  by_cases hr : rsvField w = 0
  · rw [if_neg (not_not_intro hr)]
    refine ⟨fun h => ?_, fun h => absurd hr h⟩
    split_ifs at h
    cases h
  · rw [if_pos hr]
    exact iff_of_true rfl hr

/-- Settles O1: the five words are the encodings of the commands. -/
theorem commandWordsDecode : Obligations.CommandWordsDecode :=
  ⟨decode_encode .freqClear, decode_encode .build, decode_encode .encStart, decode_encode .decStart,
    decode_encode .abort, by decide⟩

/-- Settles O2: the word of a command is the only one that decodes to it. -/
theorem decodeAcceptsExactlyTheCommandWords : Obligations.DecodeAcceptsExactlyTheCommandWords :=
  ⟨fun _ _ => decode_eq_ok_iff, fun _ => exists_decode_iff, fun _ => decode_eq_reservedBits_iff⟩

end Sys2Proof
end

section
/-! The statements of a host program: each is its agent's step when the transfer is enabled, and waits when it is not
(30_encoding.md R73, R74). -/

namespace Sys2Proof.Machine

/-! ### When a statement's transfer is enabled (R73) -/

/-- The transfer of the statement is enabled: a port statement's when its port is ready or has something to give, any other
statement's always. -/
def Block.stmtReady (b : Block) : Stmt → Bool
  | .sym _ => b.symReady
  | .bit _ => b.bitReady
  | .takeBit => decide (b.q.bitOut ≠ [])
  | .takeSym => decide (b.q.symOut ≠ [])
  | _ => true

theorem Block.takeSymIn_isSome (b : Block) (d : Sym) : (b.takeSymIn d).isSome = b.symReady := by
  unfold Block.takeSymIn
  cases b.symReady <;> rfl

theorem Block.takeBitIn_isSome (b : Block) (x : Bool) : (b.takeBitIn x).isSome = b.bitReady := by
  unfold Block.takeBitIn
  cases b.bitReady <;> rfl

theorem Block.giveBitOut_isSome (b : Block) : b.giveBitOut.isSome = decide (b.q.bitOut ≠ []) := by
  unfold Block.giveBitOut
  cases b.q.bitOut <;> rfl

theorem Block.giveSymOut_isSome (b : Block) : b.giveSymOut.isSome = decide (b.q.symOut ≠ []) := by
  unfold Block.giveSymOut
  cases b.q.symOut <;> rfl

/-- The agent a statement names has an enabled step exactly when the statement's transfer is enabled. -/
theorem agentTurn_stmtTurn_isSome (st : Stmt) (s : State) :
    (agentTurn (stmtTurn st) s).isSome = s.blk.stmtReady st := by
  cases st with
  | sym d => simp [stmtTurn, agentTurn, symSrcTurn, Block.stmtReady, Block.takeSymIn_isSome]
  | bit x => simp [stmtTurn, agentTurn, bitSrcTurn, Block.stmtReady, Block.takeBitIn_isSome]
  | takeBit => simp [stmtTurn, agentTurn, bitSnkTurn, Block.stmtReady, Block.giveBitOut_isSome]
  | takeSym => simp [stmtTurn, agentTurn, symSnkTurn, Block.stmtReady, Block.giveSymOut_isSome]
  | _ => rfl

/-! ### The program's step -/

theorem State.withProg_self {s : State} {p : List Stmt} (h : s.env.prog = p) : s.withProg p = s := by
  subst h; rfl

/-- No statement's turn is the program's own. -/
theorem takeTurn_stmtTurn (st : Stmt) (s : State) :
    takeTurn (stmtTurn st) s = (agentTurn (stmtTurn st) s).getD (.next s) := by
  cases st <;> rfl

section
variable {s : State} {st : Stmt} {rest : List Stmt}

/-- The program's step is its next statement's turn, and the statement is dropped when it is over. -/
theorem step_of_stmt (hnext : s.ProgNext) (hprog : s.env.prog = st :: rest) :
    step s = (agentTurn (stmtTurn st) (s.tick.withProg (if stmtOver s.blk st then rest else st :: rest))).getD
      (.next s.tick) := by
  have hp : s.tick.env.prog = st :: rest := hprog
  rw [step_of_progNext hnext]
  simp only [takeTurn, turn, progTurn, hp]
  rfl

/-- An enabled statement that is over with its turn is its agent's step. -/
theorem step_of_stmtReady (hnext : s.ProgNext) (hprog : s.env.prog = st :: rest) (hover : stmtOver s.blk st = true)
    (hready : s.blk.stmtReady st = true) :
    step s = step ((s.withProg rest).withTurns (stmtTurn st :: s.env.turns.tail)) := by
  obtain ⟨r, hr⟩ : ∃ r, agentTurn (stmtTurn st) (s.tick.withProg rest) = some r := by
    rw [← Option.isSome_iff_exists, agentTurn_stmtTurn_isSome]; exact hready
  have hturn : step ((s.withProg rest).withTurns (stmtTurn st :: s.env.turns.tail)) =
      takeTurn (stmtTurn st) (s.tick.withProg rest) := rfl
  rw [hturn, takeTurn_stmtTurn, step_of_stmt hnext hprog, if_pos hover, hr, Option.getD_some, Option.getD_some]

/-- A statement whose transfer is not enabled waits (log 15). -/
theorem step_of_not_stmtReady (hnext : s.ProgNext) (hprog : s.env.prog = st :: rest)
    (hready : s.blk.stmtReady st = false) : step s = .next s.tick := by
  have hheld (p : List Stmt) : agentTurn (stmtTurn st) (s.tick.withProg p) = none := by
    rw [← Option.not_isSome_iff_eq_none, agentTurn_stmtTurn_isSome, State.withProg_blk, tick_blk, hready]
    exact Bool.false_ne_true
  rw [step_of_stmt hnext hprog, hheld, Option.getD_none]

/-! ### WAIT (R74) -/

/-- A read is answered with its register's word, or with 0 and the bus error at a misaligned offset (20_memory.md R50). -/
theorem Block.busAnswer_readReq (b : Block) (off : BitVec 14) :
    b.busAnswer (readReq off) =
      ⟨if off.toNat % 4 = 0 then b.readReg (regAt off) else 0, decide (off.toNat % 4 ≠ 0)⟩ := by
  rw [Block.busAnswer_of_read rfl]
  by_cases h : off.toNat % 4 = 0 <;> simp [readReq, h]

/-- A `WAIT` reads, and stays the next statement until the value read answers it. -/
theorem step_of_wait {off : BitVec 14} {m v : Word} (hnext : s.ProgNext) (hprog : s.env.prog = .wait off m v :: rest) :
    step s = .next ((s.tick.withProg (if (s.blk.busAnswer (readReq off)).rdata &&& m = v then rest
      else .wait off m v :: rest)).answer (s.blk.busAnswer (readReq off)).rdata (s.blk.busAnswer (readReq off)).err) := by
  have hread : (readReq off).write = false := rfl
  rw [step_of_stmt hnext hprog]
  simp only [stmtTurn, agentTurn, stmtOver, decide_eq_true_eq, Option.getD_some, hostStep_answers (.inr hread),
    State.withProg_blk, tick_blk]

end

/-- Settles O9: each statement but `WAIT` is over with its turn, so it is its agent's step where that is enabled, and
waits where it is not. -/
theorem programStatementsWait : Obligations.ProgramStatementsWait := by
  unfold Obligations.ProgramStatementsWait
  intro s st rest hnext hprog done
  have hdone := step_of_stmtReady hnext hprog
  have hwait := step_of_not_stmtReady hnext hprog
  refine ⟨?wr, ?rd, ?sym, ?bit, ?endOfBits, ?takeBit, ?takeSym, ?reset, ?wait⟩
  case wr => rintro off v rfl; exact hdone rfl rfl
  case rd => rintro off v (rfl | rfl) <;> exact hdone rfl rfl
  case sym => rintro d rfl; exact ⟨hdone rfl, hwait⟩
  case bit => rintro x rfl; exact ⟨hdone rfl, hwait⟩
  case endOfBits => rintro rfl; exact hdone rfl rfl
  case takeBit =>
    rintro rfl
    exact ⟨fun h => hdone rfl (decide_eq_true h), fun h => hwait (decide_eq_false (not_not_intro h))⟩
  case takeSym =>
    rintro rfl
    exact ⟨fun h => hdone rfl (decide_eq_true h), fun h => hwait (decide_eq_false (not_not_intro h))⟩
  case reset => rintro rfl; exact hdone rfl rfl
  case wait =>
    rintro off m v rfl
    rw [step_of_wait hnext hprog, Block.busAnswer_readReq]
    refine ⟨fun hv => by rw [if_pos hv], fun hv => ?_⟩
    rw [if_neg hv, State.withProg_self (by rw [tick_prog, hprog])]

end Sys2Proof.Machine
end

section
/-! Writes of CMD and of the control registers (40_command.md R75 to R80). -/

namespace Sys2Proof.Machine

/-! ### The checks of a command (R75) -/

section
variable {b : Block} {op : BitVec 8} {ms : List Mode} {e : Block → Block}

theorem Block.command_of_error (hm : b.mode = .error) : b.command op ms e = b := if_pos hm

theorem Block.command_of_not_permitted (hm : b.mode ≠ .error) (hp : b.mode ∉ ms) :
    b.command op ms e = b.raise .badState (op.setWidth 16) := by
  rw [Block.command, if_neg hm, if_neg hp]

theorem Block.illegalCmd_of_error (hm : b.mode = .error) (w : Word) : b.illegalCmd w = b := if_pos hm

theorem Block.illegalCmd_of_ne_error (hm : b.mode ≠ .error) (w : Word) :
    b.illegalCmd w = b.raise .illegalCmd (w.extractLsb' 0 16) := if_neg hm

/-- Only ABORT has an effect in ERROR. -/
theorem cmdEffect_of_error {i : Instr} (hm : b.mode = .error) (ha : i ≠ .abort) : cmdEffect i b = b := by
  cases i with
  | abort => exact absurd rfl ha
  | freqClear | build | encStart | decStart => exact Block.command_of_error hm

/-- ERR.INFO of a rejected command is the low half of its word (60_exceptions.md R114). -/
theorem opcode_setWidth (i : Instr) : (opcode i).setWidth 16 = (encode i).extractLsb' 0 16 := by cases i <;> rfl

end

/-! ### The step of a register write -/

section
variable {s : State} {ts : List Turn} {w : Word}

/-- The step of a host write at a register's offset is that register's write, after the answer 0. -/
theorem step_writeReq (r : Reg) (hts : s.env.turns = .host (writeReq r.offset w) :: ts) :
    step s = regWrite r w ((s.withTurns ts).answer 0 false) := by
  rw [step_host hts, hostStep_writeReq w r.offset_aligned, regAt_offset]

/-- The step of a write of a command's word to CMD is the command. -/
theorem step_cmdWrite_of_encode (hts : s.env.turns = .host (writeReq 0x008 w) :: ts) {i : Instr} (hw : w = encode i) :
    step s = exec i ((s.withTurns ts).answer 0 false) :=
  stepRunsDecodedCommand.1 s ts w i hts (decode_eq_ok_iff.mpr hw)

/-- The step of a command changes the block as the command does, and nothing else but the turns and the answers. -/
theorem step_cmdWrite_eq_cmdEffect (hts : s.env.turns = .host (writeReq 0x008 w) :: ts) {i : Instr}
    (hw : w = encode i) : step s = .next (((s.withTurns ts).answer 0 false).withBlk (cmdEffect i s.blk)) :=
  (step_cmdWrite_of_encode hts hw).trans (exec_eq_cmdEffect i _)

theorem step_cmdWrite_of_illegal (hts : s.env.turns = .host (writeReq 0x008 w) :: ts) {e : DecodeError}
    (hd : decode w = .error e) :
    step s = .next (((s.withTurns ts).answer 0 false).withBlk (s.blk.illegalCmd w)) := by
  rw [step_writeReq .cmd hts]
  simp only [regWrite, cmdWrite, hd]
  rfl

/-- In ERROR a write of any other word than ABORT's is answered and ignored. -/
theorem step_cmdWrite_of_error (hts : s.env.turns = .host (writeReq 0x008 w) :: ts) (hm : s.blk.mode = .error)
    (hw : w ≠ encode .abort) : step s = .next ((s.withTurns ts).answer 0 false) := by
  cases hd : decode w with
  | ok i =>
    have hwi : w = encode i := eq_encode_of_decode hd
    have ha : i ≠ .abort := by rintro rfl; exact hw hwi
    rw [step_cmdWrite_eq_cmdEffect hts hwi, cmdEffect_of_error hm ha]
    rfl
  | error e =>
    rw [step_cmdWrite_of_illegal hts hd, Block.illegalCmd_of_error hm]
    rfl

/-- A command that the mode does not permit raises BAD_STATE with its word. -/
theorem step_cmdWrite_of_not_permitted (hts : s.env.turns = .host (writeReq 0x008 w) :: ts) {i : Instr}
    {ms : List Mode} {e : Block → Block} (hw : w = encode i)
    (hi : cmdEffect i s.blk = s.blk.command (opcode i) ms e) (hm : s.blk.mode ≠ .error) (hp : s.blk.mode ∉ ms) :
    step s = .next (((s.withTurns ts).answer 0 false).withBlk (s.blk.raise .badState (w.extractLsb' 0 16))) := by
  rw [step_cmdWrite_eq_cmdEffect hts hw, hi, Block.command_of_not_permitted hm hp, opcode_setWidth, hw]

end

/-- Settles O27: a word decodes to its command or to none; in ERROR only ABORT's has an effect, and outside ERROR a word
that is no command, or whose command the mode does not permit, raises. -/
theorem cmdWriteDispatch : Obligations.CmdWriteDispatch := by
  unfold Obligations.CmdWriteDispatch
  intro s ts w hts
  have hexec (i : Instr) (hw : w = encode i) := step_cmdWrite_of_encode hts hw
  refine ⟨step_cmdWrite_of_error hts, hexec .abort, fun hm hw => ?illegal, fun _ => ⟨hexec .freqClear, hexec .build⟩,
    fun _ => ⟨hexec .encStart, hexec .decStart⟩, ?rejected⟩
  case illegal =>
    cases hd : decode w with
    | ok i =>
      have := exists_decode_iff.mp ⟨i, hd⟩
      omega
    | error e =>
      rw [step_cmdWrite_of_illegal hts hd, Block.illegalCmd_of_ne_error hm]
      rfl
  case rejected =>
    have hrest (hm : s.blk.mode = .building ∨ s.blk.mode = .encoding ∨ s.blk.mode = .decoding) :
        s.blk.mode ≠ .error ∧ s.blk.mode ∉ restingModes := by
      rcases hm with hm | hm | hm <;> rw [hm] <;> decide
    have hstart (hm : s.blk.mode ≠ .ready) : s.blk.mode ∉ startModes := by simpa [startModes] using hm
    rintro (⟨rfl | rfl, hm⟩ | ⟨rfl | rfl, hready, hm⟩)
    · exact step_cmdWrite_of_not_permitted hts (i := .freqClear) rfl rfl (hrest hm).1 (hrest hm).2
    · exact step_cmdWrite_of_not_permitted hts (i := .build) rfl rfl (hrest hm).1 (hrest hm).2
    · exact step_cmdWrite_of_not_permitted hts (i := .encStart) rfl rfl hm (hstart hready)
    · exact step_cmdWrite_of_not_permitted hts (i := .decStart) rfl rfl hm (hstart hready)

/-- Settles O26: ABORT is checked against no mode. -/
theorem abortLeavesEveryMode : Obligations.AbortLeavesEveryMode := fun s => exec_eq_cmdEffect .abort s

/-! ### The control registers (R78 to R80) -/

theorem Block.writeIrqStatus_getLsbD (b : Block) (w : Word) {k : Nat} (hk : k < 4) :
    (b.writeIrqStatus w).irqStatus.getLsbD k = (b.irqStatus.getLsbD k && !w.getLsbD k) := by
  rw [Block.writeIrqStatus_irqStatus, BitVec.getLsbD_and, BitVec.getLsbD_not, irqMask_getLsbD w hk]
  simp [hk]

/-- `irq` is high exactly when a source's bit is both set and enabled (10_state.md R44). -/
theorem Block.irq_iff {b : Block} :
    b.irq = true ↔ ∃ k, k < 4 ∧ b.irqStatus.getLsbD k = true ∧ b.irqEnable.getLsbD k = true := by
  rw [Block.irq, decide_eq_true_eq, Ne, BitVec.eq_of_getLsbD_eq_iff]
  simp

theorem selector_toNat (w : Word) : (selector w).toNat = w.toNat % 512 := by
  simp [selector]

/-- Settles O17: the write is that of IRQ_STATUS, which clears bit by bit. -/
theorem irqStatusWriteOneToClear : Obligations.IrqStatusWriteOneToClear := by
  unfold Obligations.IrqStatusWriteOneToClear
  intro s ts w hts
  exact ⟨(s.blk.writeIrqStatus w).irqStatus, step_writeReq .irqStatus hts, fun _ => s.blk.writeIrqStatus_getLsbD w⟩

/-- Settles O18: the two writes store a field of the word, and `irq` is read off the block after the write. -/
theorem enableAndSelectorWrites : Obligations.EnableAndSelectorWrites := by
  unfold Obligations.EnableAndSelectorWrites
  refine ⟨fun s ts w hts => ?enable, fun s ts w hts => ?selector⟩
  case enable =>
    refine ⟨irqMask w, fun _ => irqMask_getLsbD w, step_writeReq .irqEnable hts, Block.irq_iff.trans ?irq⟩
    refine exists_congr fun k => and_congr_right fun hk => ?_
    rw [irqMask_getLsbD w hk]
  case selector => exact ⟨selector w, selector_toNat w, step_writeReq .codeSel hts⟩

end Sys2Proof.Machine
end

section
/-! The frequency table: its writes, its reads and FREQ_CLEAR (41_freq_table.md R81 to R83). -/

namespace Sys2Proof.Machine

/-! ### A command in a mode (40_command.md R75) -/

section
variable {m : Mode}

theorem mem_engineModes : m ∈ [Mode.building, .encoding, .decoding] ↔ m = .building ∨ m = .encoding ∨ m = .decoding := by
  simp

/-- While an engine runs the mode is no resting one, and not ERROR. -/
theorem not_resting_of_engineRuns (h : m = .building ∨ m = .encoding ∨ m = .decoding) :
    m ≠ .error ∧ m ∉ restingModes := by
  rcases h with rfl | rfl | rfl <;> decide

end

section
variable {s : State} {i : Instr} {ms : List Mode} {e : Block → Block}

theorem exec_of_permitted (hi : cmdEffect i s.blk = s.blk.command (opcode i) ms e) (hm : s.blk.mode ≠ .error)
    (hp : s.blk.mode ∈ ms) : exec i s = .next (s.withBlk (e s.blk)) := by
  rw [exec_eq_cmdEffect, hi, Block.command, if_neg hm, if_pos hp]

theorem exec_of_not_permitted (hi : cmdEffect i s.blk = s.blk.command (opcode i) ms e) (hm : s.blk.mode ≠ .error)
    (hp : s.blk.mode ∉ ms) : exec i s = .next (s.withBlk (s.blk.raise .badState ((opcode i).setWidth 16))) := by
  rw [exec_eq_cmdEffect, hi, Block.command_of_not_permitted hm hp]

/-- Every command but ABORT is ignored in ERROR. -/
theorem exec_of_error (hm : s.blk.mode = .error) (ha : i ≠ .abort) : exec i s = .next s := by
  rw [exec_eq_cmdEffect, cmdEffect_of_error hm ha]
  rfl

end

/-! ### Writes of FREQ[s] (R81) -/

section
variable {b : Block} (k : Fin 256) (w : Word)

theorem Block.writeFreq_of_error (hm : b.mode = .error) : b.writeFreq k w = b := if_pos hm

theorem Block.writeFreq_of_engineRuns (hm : b.mode = .building ∨ b.mode = .encoding ∨ b.mode = .decoding) :
    b.writeFreq k w = b.raise .badState (freqInfo k) := by
  rw [Block.writeFreq, if_neg (not_resting_of_engineRuns hm).1, if_pos (mem_engineModes.mpr hm)]

theorem Block.writeFreq_of_resting (hm : b.mode ∈ restingModes) :
    b.writeFreq k w = { b with freq := b.freq.set k.val w k.isLt }.dropTree := by
  have hidle : b.mode ∉ [Mode.building, .encoding, .decoding] :=
    fun h => (not_resting_of_engineRuns (mem_engineModes.mp h)).2 hm
  rw [Block.writeFreq, if_neg (ne_error_of_mem_restingModes hm), if_neg hidle]

end

/-- The step of a host write at FREQ[k] changes the block as that write does. -/
theorem step_freqWrite {s : State} {ts : List Turn} {k : Fin 256} {w : Word}
    (hts : s.env.turns = .host (writeReq (Reg.freq k).offset w) :: ts) :
    step s = .next (((s.withTurns ts).answer 0 false).withBlk (s.blk.writeFreq k w)) :=
  step_writeReq (.freq k) hts

/-- Settles O20: the three groups of modes are the three branches of the write. -/
theorem freqWriteStoresAndDropsTheTree : Obligations.FreqWriteStoresAndDropsTheTree := by
  unfold Obligations.FreqWriteStoresAndDropsTheTree
  intro s ts k w hts
  have hstep := step_freqWrite hts
  refine ⟨fun hm => ?stored, fun hm => ?rejected, fun hm => ?ignored⟩
  case stored =>
    rw [Block.writeFreq_of_resting k w (mem_restingModes.mpr hm)] at hstep
    refine ⟨s.blk.freq.set k.val w k.isLt, Vector.getElem_set_self _, fun j hj => ?other, hstep⟩
    exact Vector.getElem_set_ne _ _ (Fin.val_ne_of_ne hj.symm)
  case rejected => rwa [Block.writeFreq_of_engineRuns k w hm] at hstep
  case ignored => rwa [Block.writeFreq_of_error k w hm] at hstep

/-! ### Reads of FREQ[s] (R82) -/

/-- The step of a host read at a register's offset answers the register's word. -/
theorem step_readReq {s : State} {ts : List Turn} (r : Reg) (hts : s.env.turns = .host (readReq r.offset) :: ts) :
    step s = .next ((s.withTurns ts).answer (s.blk.readReg r) false) := by
  rw [step_host hts, hostStep_answers (.inr rfl), Block.busAnswer_readReq, if_pos r.offset_aligned, regAt_offset]
  simp [r.offset_aligned]

/-- Settles O21: FREQ[s] shows the table's entry at a byte, and the hardwired 1 at 256. -/
theorem freqReads : Obligations.FreqReads := by
  unfold Obligations.FreqReads
  refine fun s ts => ⟨fun k hts => ?byte, fun hts => ?eof⟩
  case byte =>
    rw [← freqAt_byte]
    exact step_readReq (.freq k) hts
  case eof =>
    rw [← freqAt_eof s.blk.freq]
    exact step_readReq .freqEof hts

/-! ### FREQ_CLEAR (R83) -/

/-- Settles O22: FREQ_CLEAR is permitted in the resting modes, and its effect stores a table of zeros. -/
theorem freqClearEmptiesTheTable : Obligations.FreqClearEmptiesTheTable := by
  unfold Obligations.FreqClearEmptiesTheTable
  refine fun s => ⟨fun hm => ?cleared, fun hm => ?rejected, fun hm => exec_of_error hm (by decide)⟩
  case cleared =>
    have hrest := mem_restingModes.mpr hm
    refine ⟨Vector.replicate 256 0, fun k => Vector.getElem_replicate k.isLt, ?_⟩
    exact exec_of_permitted (i := .freqClear) rfl (ne_error_of_mem_restingModes hrest) hrest
  case rejected =>
    obtain ⟨hne, hno⟩ := not_resting_of_engineRuns hm
    exact exec_of_not_permitted (i := .freqClear) rfl hne hno

end Sys2Proof.Machine
end

section
/-! The arena of a build: the leaves come first, and each internal node takes the two nodes with the smallest keys among
those not yet taken (42_tree_build.md R88 to R92). -/

namespace Sys2Proof.Machine

/-! ### The leaves (R88) -/

theorem leafSyms_pairwise_lt (f : Vector Word 256) : (leafSyms f).Pairwise (· < ·) := List.pairwise_lt_range.filter _

theorem leafSyms_getLast? (f : Vector Word 256) : (leafSyms f).getLast? = some EOF := by
  have hsplit : leafSyms f = ((List.range EOF).filter fun s => decide (freqAt f s ≠ 0)) ++ [EOF] := by
    rw [leafSyms, NSYM, List.range_succ, List.filter_append]
    simp [freqAt]
  rw [hsplit, List.getLast?_concat]

theorem leafSyms_length_le (f : Vector Word 256) : (leafSyms f).length ≤ NSYM :=
  (List.length_filter_le _ _).trans_eq List.length_range

theorem leafNodes_getElem? (f : Vector Word 256) (i : Nat) :
    (leafNodes f)[i]? = ((leafSyms f)[i]?).map fun s => .leaf (BitVec.ofNat 9 s) (freqAt f s) := List.getElem?_map

/-- The nodes of an arena are those of a later one. -/
theorem getElem?_of_prefix {ns ms : List Node} (h : ns <+: ms) {i : Nat} (hi : i < ns.length) : ms[i]? = ns[i]? := by
  obtain ⟨rest, rfl⟩ := h
  exact List.getElem?_append_left hi

/-! ### What a build keeps from the leaves on -/

/-- With the leaves alone in the arena a predicate holds, and each merge keeps it: then it holds of the arena built. -/
theorem buildTree_keeps {f : Vector Word 256} {P : List Node → List Nat → Prop}
    (hstep : ∀ ns q x q₁ y q₂, P ns q → extract ns q = some (x, q₁) → extract ns q₁ = some (y, q₂) →
      P (ns ++ [mergeNode ns x y]) (q₂ ++ [ns.length]))
    (hleaves : P (leafNodes f) (List.range (leafNodes f).length)) :
    P (buildTree f).nodes [(buildTree f).root] := by
  have hlen := mergeLoop_ends (leafNodes f).length (leafNodes f) (List.range (leafNodes f).length) (by simp) (by simp)
  obtain ⟨root, hq⟩ := List.length_eq_one_iff.mp hlen
  have hroot : (buildTree f).root = root := congrArg (List.headD · 0) hq
  have hP := mergeLoop_keeps hstep (leafNodes f).length _ _ hleaves
  rwa [hq, ← hroot] at hP

theorem leafNodes_prefix_nodes (f : Vector Word 256) : leafNodes f <+: (buildTree f).nodes :=
  buildTree_keeps (P := fun ns _ => leafNodes f <+: ns) (fun _ _ _ _ _ _ h _ _ => h.trans (List.prefix_append _ _))
    List.prefix_rfl

/-- Settles O33: the leaves are a filtered range, and a merge only appends to the arena. -/
theorem leavesAreAscendingWithEofLast : Obligations.LeavesAreAscendingWithEofLast := by
  unfold Obligations.LeavesAreAscendingWithEofLast
  intro f
  rw [buildTree_n]
  refine ⟨leafSyms_pairwise_lt f, fun s => ?mem, leafSyms_getLast? f, rfl, leafSyms_length_pos f, leafSyms_length_le f,
    fun i hi => ?slot⟩
  case mem => rw [mem_leafSyms, NSYM, Nat.lt_succ_iff]
  case slot => rw [getElem?_of_prefix (leafNodes_prefix_nodes f) (by rwa [leafNodes_length]), leafNodes_getElem?]

/-! ### Merges of the smallest keys (R89, R90) -/

/-- Node j is made before node k, and no internal node made before k took it. -/
def Untaken (ns : List Node) (k j : Nat) : Prop :=
  j < k ∧ ∀ k' x y w, k' < k → ns[k']? = some (.internal x y w) → j ≠ x.toNat ∧ j ≠ y.toNat

/-- Node k, of weight w, takes x and y: the untaken node with the smallest key, and then that with the next smallest. -/
structure SmallestMerge (ns : List Node) (k x y w : Nat) : Prop where
  zero : Untaken ns k x
  one : Untaken ns k y
  ordered : keyLt ns x y = true
  smallest : ∀ j, Untaken ns k j → j ≠ x → j ≠ y → keyLt ns y j = true
  weight : w = weightAt ns x + weightAt ns y

/-- Every internal node of the arena is a merge of the smallest keys. -/
def MergesSmallest (ns : List Node) : Prop :=
  ∀ k x y w, ns[k]? = some (.internal x y w) → SmallestMerge ns k x.toNat y.toNat w.toNat

/-- The children of an internal node are made before it. -/
theorem MergesSmallest.child_lt {ns : List Node} (h : MergesSmallest ns) {k : Nat} {x y : NodeIdx} {w : Word}
    (hk : ns[k]? = some (.internal x y w)) : x.toNat < k ∧ y.toNat < k :=
  ⟨(h k x y w hk).zero.1, (h k x y w hk).one.1⟩

section
variable {ns ms : List Node} {i j k x y w : Nat}

theorem keyLt_append_left (hi : i < ns.length) (hj : j < ns.length) : keyLt (ns ++ ms) i j = keyLt ns i j := by
  simp only [keyLt, weightAt_append_left hi, weightAt_append_left hj]

theorem untaken_append_left (hk : k ≤ ns.length) : Untaken (ns ++ ms) k j ↔ Untaken ns k j := by
  refine and_congr_right fun _ => forall_congr' fun k' => forall₃_congr fun a b v => forall_congr' fun hk' => ?_
  rw [List.getElem?_append_left (Nat.lt_of_lt_of_le hk' hk)]

theorem SmallestMerge.append (h : SmallestMerge ns k x y w) (hk : k ≤ ns.length) :
    SmallestMerge (ns ++ ms) k x y w := by
  have hlt {j : Nat} (hj : Untaken ns k j) : j < ns.length := Nat.lt_of_lt_of_le hj.1 hk
  have hx := hlt h.zero
  have hy := hlt h.one
  refine ⟨(untaken_append_left hk).mpr h.zero, (untaken_append_left hk).mpr h.one, ?ordered,
    fun j hj hjx hjy => ?smallest, ?weight⟩
  case ordered => rw [keyLt_append_left hx hy, h.ordered]
  case smallest =>
    rw [untaken_append_left hk] at hj
    rw [keyLt_append_left hy (hlt hj), h.smallest j hj hjx hjy]
  case weight => rw [weightAt_append_left hx, weightAt_append_left hy, h.weight]

end

/-! ### The invariant of the arena -/

/-- What holds of the arena and the queue in every round of a build of f, beside the counts: the leaves come first and
internal nodes after them, each a merge of the smallest keys, and the queue holds the nodes not yet taken. -/
structure ArenaInv (f : Vector Word 256) (ns : List Node) (q : List Nat) : Prop
    extends MergeInv (leafSyms f).length (freqTotal f) ns q where
  leaves : leafNodes f <+: ns
  internal : ∀ k, (leafSyms f).length ≤ k → k < ns.length → ∃ x y w, ns[k]? = some (.internal x y w)
  merges : MergesSmallest ns
  queue : ∀ j, j ∈ q ↔ Untaken ns ns.length j

/-- A node of an arena with one more node is one of the old nodes or the new one. -/
theorem getElem?_concat_cases {ns : List Node} {m n : Node} {k : Nat} (h : (ns ++ [m])[k]? = some n) :
    (k < ns.length ∧ ns[k]? = some n) ∨ (k = ns.length ∧ m = n) := by
  rcases Nat.lt_or_ge k ns.length with hk | hk
  · exact .inl ⟨hk, by rwa [List.getElem?_append_left hk] at h⟩
  · rw [List.getElem?_append_right hk, List.getElem?_singleton] at h
    split at h
    · exact .inr ⟨by omega, Option.some.inj h⟩
    · cases h

/-- With one more internal node, its children are taken and it is untaken itself. -/
theorem untaken_concat {ns : List Node} {a b : NodeIdx} {w : Word} {j : Nat} (h : MergesSmallest ns)
    (ha : a.toNat < ns.length) (hb : b.toNat < ns.length) :
    Untaken (ns ++ [.internal a b w]) (ns.length + 1) j ↔
      (Untaken ns ns.length j ∧ j ≠ a.toNat ∧ j ≠ b.toNat) ∨ j = ns.length := by
  constructor
  · rintro ⟨hj, htaken⟩
    refine (Nat.lt_succ_iff_lt_or_eq.mp hj).imp_left fun hlt => ⟨⟨hlt, fun k x y v hk hn => ?_⟩, ?_⟩
    · exact htaken k x y v (Nat.lt_succ_of_lt hk) (by rwa [List.getElem?_append_left hk])
    · exact htaken ns.length a b w (Nat.lt_succ_self _) List.getElem?_concat_length
  · rintro (⟨⟨hj, htaken⟩, hab⟩ | rfl)
    · refine ⟨Nat.lt_succ_of_lt hj, fun k x y v _ hn => ?_⟩
      rcases getElem?_concat_cases hn with ⟨hk, hn⟩ | ⟨_, hn⟩
      · exact htaken k x y v hk hn
      · cases hn; exact hab
    · refine ⟨Nat.lt_succ_self _, fun k x y v _ hn => ?_⟩
      rcases getElem?_concat_cases hn with ⟨hk, hn⟩ | ⟨_, hn⟩
      · have := h.child_lt hn; omega
      · cases hn; omega

section
variable {f : Vector Word 256} {ns : List Node} {q q₁ q₂ : List Nat} {x y : Nat}

theorem leafNodes_getElem?_ne_internal {k : Nat} {a b : NodeIdx} {w : Word} :
    (leafNodes f)[k]? ≠ some (.internal a b w) := by
  rw [leafNodes_getElem?]
  simp

theorem ArenaInv.of_leaves (f : Vector Word 256) :
    ArenaInv f (leafNodes f) (List.range (leafNodes f).length) where
  toMergeInv := MergeInv.leaves f
  leaves := List.prefix_rfl
  internal k hk hlt := absurd (leafNodes_length f ▸ hlt) (Nat.not_lt.mpr hk)
  merges _ _ _ _ hk := absurd hk leafNodes_getElem?_ne_internal
  queue j := by
    rw [List.mem_range]
    exact ⟨fun hj => ⟨hj, fun _ _ _ _ _ hk => absurd hk leafNodes_getElem?_ne_internal⟩, And.left⟩

/-- The index of a node fits an index field. -/
theorem ArenaInv.toNat_ofNat (h : ArenaInv f ns q) {i : Nat} (hi : i < ns.length) : (BitVec.ofNat 10 i).toNat = i := by
  have hcount := h.count
  have hn := leafSyms_length_le f
  rw [BitVec.toNat_ofNat]
  simp only [NSYM] at hn
  omega

/-- The two extracted nodes are a merge of the smallest keys, whose weight is exact. -/
theorem ArenaInv.smallestMerge (hW : freqTotal f ≤ WMAX) (h : ArenaInv f ns q) (h₁ : extract ns q = some (x, q₁))
    (h₂ : extract ns q₁ = some (y, q₂)) :
    SmallestMerge ns ns.length x y (BitVec.ofNat 32 (weightAt ns x + weightAt ns y)).toNat := by
  have hp := extract_twice_perm h₁ h₂
  obtain ⟨hx, hq₁, hxmin⟩ := extract_some h₁
  obtain ⟨hy, _, hymin⟩ := extract_some h₂
  have hmem₁ (j : Nat) : j ∈ q₁ ↔ j ≠ x ∧ j ∈ q := by rw [hq₁, h.nodup.mem_erase_iff]
  have hfits : weightAt ns x + weightAt ns y ≤ WMAX := by
    have hsum := h.weight.symm.trans (queueWeight_perm hp)
    simp only [queueWeight, List.map_cons, List.sum_cons] at hsum
    omega
  refine ⟨(h.queue x).mp hx, (h.queue y).mp ((hmem₁ y).mp hy).2, ?ordered, fun j hj hjx hjy => ?smallest,
    mergeNode_weight hfits⟩
  case ordered => exact (hxmin y ((hmem₁ y).mp hy).2).resolve_left ((hmem₁ y).mp hy).1
  case smallest => exact (hymin j ((hmem₁ j).mpr ⟨hjx, (h.queue j).mpr hj⟩)).resolve_left hjy

/-- One merge keeps the invariant. -/
theorem ArenaInv.merge (hW : freqTotal f ≤ WMAX) (h : ArenaInv f ns q) (h₁ : extract ns q = some (x, q₁))
    (h₂ : extract ns q₁ = some (y, q₂)) : ArenaInv f (ns ++ [mergeNode ns x y]) (q₂ ++ [ns.length]) := by
  have hp := extract_twice_perm h₁ h₂
  have hmerge := h.smallestMerge hW h₁ h₂
  have hx := hmerge.zero.1
  have hy := hmerge.one.1
  refine ⟨h.toMergeInv.merge hW h₁ h₂, h.leaves.trans (List.prefix_append _ _), fun k hk hlt => ?internal,
    fun k a b w hk => ?merges, fun j => ?queue⟩
  case internal =>
    rcases Nat.lt_or_ge k ns.length with hold | hnew
    · rw [List.getElem?_append_left hold]
      exact h.internal k hk hold
    · obtain rfl : k = ns.length := by simp at hlt; omega
      exact ⟨_, _, _, List.getElem?_concat_length⟩
  case merges =>
    rcases getElem?_concat_cases hk with ⟨hold, hk⟩ | ⟨rfl, hm⟩
    · exact (h.merges k a b w hk).append (Nat.le_of_lt hold)
    · cases hm
      rw [h.toNat_ofNat hx, h.toNat_ofNat hy]
      exact hmerge.append (Nat.le_refl _)
  case queue =>
    have hq₂ : j ∈ q₂ ↔ j ∈ q ∧ j ≠ x ∧ j ≠ y := by
      have hnodup := hp.nodup_iff.mp h.nodup
      rw [hp.mem_iff]
      simp only [List.nodup_cons, List.mem_cons, not_or] at hnodup ⊢
      grind
    rw [List.mem_append, List.mem_singleton, hq₂, h.queue, List.length_append, List.length_singleton, mergeNode,
      untaken_concat h.merges, h.toNat_ofNat hx, h.toNat_ofNat hy]
    · rwa [h.toNat_ofNat hx]
    · rwa [h.toNat_ofNat hy]

/-- The arena built, with the root alone in the queue. -/
theorem arenaInv_buildTree (hW : freqTotal f ≤ WMAX) : ArenaInv f (buildTree f).nodes [(buildTree f).root] :=
  buildTree_keeps (fun _ _ _ _ _ _ h => h.merge hW) (.of_leaves f)

end

/-- Settles O34: the counts of the merging loop, and each internal node as a merge of two different untaken nodes. -/
theorem treeHasItsShape : Obligations.TreeHasItsShape := by
  unfold Obligations.TreeHasItsShape
  intro f hW
  have h := arenaInv_buildTree hW
  obtain ⟨hlen, hroot, hweight⟩ := buildTree_summary hW
  rw [buildTree_n]
  refine ⟨hlen, hroot, hweight, fun k hk hlt => ?_⟩
  obtain ⟨x, y, w, hn⟩ := h.internal k hk hlt
  have hmerge := h.merges k x y w hn
  refine ⟨x.toNat, y.toNat, w, by simpa using hn, fun hxy => ?_, hmerge.zero.1, hmerge.one.1, hmerge.weight⟩
  have hself := hmerge.ordered
  rw [hxy, keyLt_iff] at hself
  omega

/-- Settles O35: in every round the queue holds exactly the untaken nodes, and extraction takes their smallest keys. -/
theorem mergesTakeTheSmallestKeys : Obligations.MergesTakeTheSmallestKeys := by
  unfold Obligations.MergesTakeTheSmallestKeys
  intro f hW k x y w hn free
  have hmerge := (arenaInv_buildTree hW).merges k x y w hn
  exact ⟨hmerge.zero, hmerge.one, hmerge.ordered, hmerge.smallest⟩

/-! ### The empty table (R92) -/

theorem leafSyms_of_zero {f : Vector Word 256} (h : ∀ k : Fin 256, f[k] = 0) : leafSyms f = [EOF] := by
  have hbytes : ((List.range EOF).filter fun s => decide (freqAt f s ≠ 0)) = [] := by
    rw [List.filter_eq_nil_iff]
    intro s hs
    simpa using (freqAt_byte f ⟨s, List.mem_range.mp hs⟩).trans (h _)
  rw [leafSyms, NSYM, List.range_succ, List.filter_append, hbytes]
  simp [freqAt]

/-- Settles O36: the one leaf is EOF's, so the merging loop makes no node and the walk ends at once. -/
theorem emptyTableMakesOneLeaf : Obligations.EmptyTableMakesOneLeaf := by
  unfold Obligations.EmptyTableMakesOneLeaf
  intro f hzero
  have hleaves : leafNodes f = [.leaf 256 1] := by simp [leafNodes, leafSyms_of_zero hzero, freqAt]
  have hbuilt : buildTree f = ⟨1, [.leaf 256 1], 0, [(256, [])]⟩ := by
    simp only [buildTree, hleaves]
    rfl
  rw [hbuilt]
  exact ⟨rfl, rfl, rfl, rfl⟩

end Sys2Proof.Machine
end

section
/-! The codes of a build: the walk reads each code off the path from the root, and what the paths of a binary tree say
of its codes (42_tree_build.md R93, R94). -/

namespace Sys2Proof.Machine

/-! ### Codes of a binary tree (R93) -/

/-- A code with one more bit before it. -/
def consBit (x : Bool) (c : Sym × Code) : Sym × Code := (c.1, x :: c.2)

@[simp] theorem consBit_fst (x : Bool) (c : Sym × Code) : (consBit x c).1 = c.1 := rfl
@[simp] theorem consBit_snd (x : Bool) (c : Sym × Code) : (consBit x c).2 = x :: c.2 := rfl

/-- The codes that a binary tree gives its leaves: no bit for one leaf alone, a first bit 0 on the zero-branch of an
internal node and a first bit 1 on its one-branch. -/
inductive TreeCodes : List (Sym × Code) → Prop where
  | leaf (s : Sym) : TreeCodes [(s, [])]
  | internal {cs ds : List (Sym × Code)} (hcs : TreeCodes cs) (hds : TreeCodes ds) :
      TreeCodes (cs.map (consBit false) ++ ds.map (consBit true))

/-- The count of all symbols with a code. -/
def codesWeight (f : Vector Word 256) (cs : List (Sym × Code)) : Nat := (cs.map fun c => (freqAt f c.1.toNat).toNat).sum

/-- The bits it takes to encode every symbol as often as it is counted. -/
def codesCost (f : Vector Word 256) (cs : List (Sym × Code)) : Nat :=
  (cs.map fun c => (freqAt f c.1.toNat).toNat * c.2.length).sum

@[simp] theorem codesWeight_append (f : Vector Word 256) (cs ds : List (Sym × Code)) :
    codesWeight f (cs ++ ds) = codesWeight f cs + codesWeight f ds := by simp [codesWeight]

@[simp] theorem codesCost_append (f : Vector Word 256) (cs ds : List (Sym × Code)) :
    codesCost f (cs ++ ds) = codesCost f cs + codesCost f ds := by simp [codesCost]

@[simp] theorem codesWeight_map_consBit (f : Vector Word 256) (x : Bool) (cs : List (Sym × Code)) :
    codesWeight f (cs.map (consBit x)) = codesWeight f cs := by simp [codesWeight, Function.comp_def]

/-- One more bit before every code costs one bit for each count. -/
@[simp] theorem codesCost_map_consBit (f : Vector Word 256) (x : Bool) (cs : List (Sym × Code)) :
    codesCost f (cs.map (consBit x)) = codesCost f cs + codesWeight f cs := by
  simp [codesCost, codesWeight, Function.comp_def, Nat.mul_succ, List.sum_map_add]

namespace TreeCodes
variable {cs : List (Sym × Code)} {c d : Sym × Code}

theorem ne_nil (h : TreeCodes cs) : cs ≠ [] := by
  induction h with
  | leaf s => simp
  | internal _ _ ih _ => simp [ih]

/-- No code begins another's: two paths that differ branch at some node. -/
theorem eq_of_prefix (h : TreeCodes cs) (hc : c ∈ cs) (hd : d ∈ cs) (hp : c.2 <+: d.2) : c = d := by
  induction h generalizing c d with
  | leaf s => rw [List.mem_singleton.mp hc, List.mem_singleton.mp hd]
  | internal _ _ ihc ihd =>
    simp only [List.mem_append, List.mem_map] at hc hd
    rcases hc with ⟨c, hc, rfl⟩ | ⟨c, hc, rfl⟩ <;> rcases hd with ⟨d, hd, rfl⟩ | ⟨d, hd, rfl⟩ <;>
      simp only [consBit_snd, List.cons_prefix_cons] at hp
    · rw [ihc hc hd hp.2]
    · cases hp.1
    · cases hp.1
    · rw [ihd hc hd hp.2]

/-- A code is shorter than there are leaves: every internal node on its path has a leaf on its other branch. -/
theorem length_lt (h : TreeCodes cs) (hc : c ∈ cs) : c.2.length < cs.length := by
  induction h generalizing c with
  | leaf s => rw [List.mem_singleton.mp hc]; simp
  | internal hcs hds ihc ihd =>
    have := List.length_pos_of_ne_nil hcs.ne_nil
    have := List.length_pos_of_ne_nil hds.ne_nil
    simp only [List.length_append, List.length_map]
    rcases List.mem_append.mp hc with hc | hc <;> obtain ⟨c, hmem, rfl⟩ := List.mem_map.mp hc <;>
      rw [consBit_snd, List.length_cons]
    · have := ihc hmem; omega
    · have := ihd hmem; omega

theorem length_pos (h : TreeCodes cs) (hlen : 2 ≤ cs.length) (hc : c ∈ cs) : 1 ≤ c.2.length := by
  cases h with
  | leaf s => simp at hlen
  | internal =>
    rcases List.mem_append.mp hc with hc | hc <;> obtain ⟨c, _, rfl⟩ := List.mem_map.mp hc <;> simp

/-- Kraft's equality, for any bound on the lengths: each branch of a node fills one half. -/
theorem kraft (h : TreeCodes cs) {m : Nat} (hm : ∀ c ∈ cs, c.2.length ≤ m) :
    (cs.map fun c => 2 ^ (m - c.2.length)).sum = 2 ^ m := by
  induction h generalizing m with
  | leaf s => simp
  | internal hcs hds ihc ihd =>
    simp only [List.mem_append, List.mem_map] at hm
    obtain ⟨c₀, hc₀⟩ := List.exists_mem_of_ne_nil _ hcs.ne_nil
    obtain ⟨m, rfl⟩ : ∃ m', m = m' + 1 := Nat.exists_eq_succ_of_ne_zero (by
      have := hm _ (.inl ⟨c₀, hc₀, rfl⟩)
      simp only [consBit_snd, List.length_cons] at this
      omega)
    have hc := ihc fun c hc => Nat.le_of_succ_le_succ (hm _ (.inl ⟨c, hc, rfl⟩))
    have hd := ihd fun c hc => Nat.le_of_succ_le_succ (hm _ (.inr ⟨c, hc, rfl⟩))
    simp only [List.map_append, List.map_map, Function.comp_def, List.sum_append, consBit_snd, List.length_cons,
      Nat.add_sub_add_right, hc, hd]
    rw [Nat.pow_succ]; omega

end TreeCodes

/-! ### The walk (R93) -/

section
variable {ns ms : List Node} {fuel i : Nat} {p : Code}

/-- The codes accumulated on the way to a node stand before those below it. -/
theorem walk_prepend (ns : List Node) (fuel i : Nat) (p : Code) :
    walk ns fuel i p = (walk ns fuel i []).map fun c => (c.1, p ++ c.2) := by
  induction fuel generalizing i p with
  | zero => rfl
  | succ fuel ih =>
    simp only [walk]
    split
    · rfl
    · simp
    · rename_i zero one w _
      rw [ih zero.toNat (p ++ [false]), ih one.toNat (p ++ [true]), ih zero.toNat ([] ++ [false]),
        ih one.toNat ([] ++ [true])]
      simp [Function.comp_def]

/-- More fuel than the index of the node makes no difference (log 13). -/
theorem walk_fuel (h : MergesSmallest ns) {fuel' : Nat} (hi : i < fuel) (hi' : i < fuel') :
    walk ns fuel i p = walk ns fuel' i p := by
  induction fuel generalizing i p fuel' with
  | zero => cases hi
  | succ fuel ih =>
    obtain ⟨fuel', rfl⟩ : ∃ k, fuel' = k + 1 := ⟨fuel' - 1, by omega⟩
    simp only [walk]
    split
    · rfl
    · rfl
    · rename_i zero one w hn
      obtain ⟨hzero, hone⟩ := h.child_lt hn
      rw [ih (fuel' := fuel') (by omega) (by omega), ih (fuel' := fuel') (by omega) (by omega)]

theorem walk_append_left (h : MergesSmallest ns) (hi : i < ns.length) :
    walk (ns ++ ms) fuel i p = walk ns fuel i p := by
  induction fuel generalizing i p with
  | zero => rfl
  | succ fuel ih =>
    simp only [walk, List.getElem?_append_left hi]
    split
    · rfl
    · rfl
    · rename_i zero one w hn
      obtain ⟨hzero, hone⟩ := h.child_lt hn
      rw [ih (by omega), ih (by omega)]

end

/-- The codes of the leaves below a node, from that node on. -/
def codesAt (ns : List Node) (i : Nat) : List (Sym × Code) := walk ns (i + 1) i []

/-- The symbols of the leaves below a node. -/
def symsAt (ns : List Node) (i : Nat) : List Nat := (codesAt ns i).map fun c => c.1.toNat

section
variable {ns ms : List Node} {i : Nat}

theorem codesAt_of_leaf {s : Sym} {w : Word} (hn : ns[i]? = some (.leaf s w)) : codesAt ns i = [(s, [])] := by
  simp [codesAt, walk, hn]

theorem codesAt_of_internal (h : MergesSmallest ns) {x y : NodeIdx} {w : Word}
    (hn : ns[i]? = some (.internal x y w)) :
    codesAt ns i = (codesAt ns x.toNat).map (consBit false) ++ (codesAt ns y.toNat).map (consBit true) := by
  obtain ⟨hx, hy⟩ := h.child_lt hn
  have hbranch {j : Nat} (hj : j < i) (b : Bool) : walk ns i j [b] = (codesAt ns j).map (consBit b) := by
    rw [walk_prepend, walk_fuel h hj (Nat.lt_succ_self j)]
    rfl
  have hwalk : codesAt ns i = walk ns i x.toNat [false] ++ walk ns i y.toNat [true] := by simp [codesAt, walk, hn]
  rw [hwalk, hbranch hx, hbranch hy]

theorem codesAt_append_left (h : MergesSmallest ns) (hi : i < ns.length) : codesAt (ns ++ ms) i = codesAt ns i :=
  walk_append_left h hi

/-- The codes below every node of the arena are those of a binary tree. -/
theorem treeCodes_codesAt (h : MergesSmallest ns) (hi : i < ns.length) : TreeCodes (codesAt ns i) := by
  induction i using Nat.strong_induction_on with
  | _ i ih =>
    cases hn : ns[i] with
    | leaf s w =>
      rw [codesAt_of_leaf (List.getElem?_eq_some_iff.mpr ⟨hi, hn⟩)]
      exact .leaf s
    | internal x y w =>
      have hn' := List.getElem?_eq_some_iff.mpr ⟨hi, hn⟩
      obtain ⟨hx, hy⟩ := h.child_lt hn'
      rw [codesAt_of_internal h hn']
      exact .internal (ih _ hx (by omega)) (ih _ hy (by omega))

end

/-! ### The invariant of the codes -/

section
variable {f : Vector Word 256} {ns : List Node} {q q₁ q₂ : List Nat} {x y i : Nat}

/-- A leaf of the leaves' arena holds a present symbol and its count. -/
theorem leafNodes_getElem?_eq_some {n : Node} (h : (leafNodes f)[i]? = some n) :
    ∃ s, (leafSyms f)[i]? = some s ∧ n = .leaf (BitVec.ofNat 9 s) (freqAt f s) ∧ (BitVec.ofNat 9 s).toNat = s := by
  rw [leafNodes_getElem?, Option.map_eq_some_iff] at h
  obtain ⟨s, hs, rfl⟩ := h
  have hlt := (mem_leafSyms.mp (List.mem_of_getElem? hs)).1
  refine ⟨s, hs, rfl, ?_⟩
  rw [BitVec.toNat_ofNat]
  simp only [NSYM] at hlt
  omega

/-- A leaf of the arena is one of the first leaves. -/
theorem ArenaInv.leaf_lt (h : ArenaInv f ns q) {s : Sym} {w : Word} (hn : ns[i]? = some (.leaf s w)) :
    i < (leafNodes f).length := by
  by_contra hi
  rw [leafNodes_length, Nat.not_lt] at hi
  obtain ⟨x, y, w, hn'⟩ := h.internal i hi (List.getElem?_eq_some_iff.mp hn).1
  rw [hn] at hn'
  cases hn'

/-- A leaf of the arena weighs the count of its symbol. -/
theorem ArenaInv.leaf_weight (h : ArenaInv f ns q) {s : Sym} {w : Word} (hn : ns[i]? = some (.leaf s w)) :
    w = freqAt f s.toNat := by
  rw [getElem?_of_prefix h.leaves (h.leaf_lt hn)] at hn
  obtain ⟨s', _, heq, hs'⟩ := leafNodes_getElem?_eq_some hn
  cases heq
  rw [hs']

theorem weightAt_of_getElem? {n : Node} (hn : ns[i]? = some n) : weightAt ns i = n.weight.toNat := by
  simp [weightAt, hn]

/-- A node weighs the count of the symbols below it. -/
theorem ArenaInv.weightAt_eq (h : ArenaInv f ns q) (hi : i < ns.length) :
    weightAt ns i = codesWeight f (codesAt ns i) := by
  induction i using Nat.strong_induction_on with
  | _ i ih =>
    cases hn : ns[i] with
    | leaf s w =>
      have hn' := List.getElem?_eq_some_iff.mpr ⟨hi, hn⟩
      rw [codesAt_of_leaf hn', weightAt_of_getElem? hn', Node.weight, h.leaf_weight hn']
      simp [codesWeight]
    | internal a b w =>
      have hn' := List.getElem?_eq_some_iff.mpr ⟨hi, hn⟩
      obtain ⟨ha, hb⟩ := h.merges.child_lt hn'
      rw [codesAt_of_internal h.merges hn', weightAt_of_getElem? hn', Node.weight, (h.merges _ _ _ _ hn').weight,
        ih _ ha (by omega), ih _ hb (by omega)]
      simp

/-- What holds in every round, beside the invariant of the arena: every present symbol is below exactly one node of the
queue, and the codes below the queue cost what the internal nodes made so far weigh. -/
structure CodesInv (f : Vector Word 256) (ns : List Node) (q : List Nat) : Prop extends ArenaInv f ns q where
  symbols : (q.flatMap (symsAt ns)).Perm (leafSyms f)
  cost : (q.map fun i => codesCost f (codesAt ns i)).sum =
    ((ns.drop (leafSyms f).length).map fun n => n.weight.toNat).sum

/-- Below a leaf there is its symbol alone, with the empty code. -/
theorem codesAt_leafNodes (hi : i < (leafNodes f).length) :
    ∃ s, (leafSyms f)[i]? = some s ∧ codesAt (leafNodes f) i = [(BitVec.ofNat 9 s, [])] ∧
      (BitVec.ofNat 9 s).toNat = s := by
  have hget := List.getElem?_eq_getElem hi
  obtain ⟨s, hs, hn, hs'⟩ := leafNodes_getElem?_eq_some hget
  exact ⟨s, hs, codesAt_of_leaf (hget.trans (congrArg some hn)), hs'⟩

theorem flatMap_symsAt_leafNodes (f : Vector Word 256) :
    (List.range (leafNodes f).length).flatMap (symsAt (leafNodes f)) = leafSyms f := by
  have hsyms : ∀ i ∈ List.range (leafNodes f).length, symsAt (leafNodes f) i = [(leafSyms f)[i]?.getD 0] := by
    intro i hi
    obtain ⟨s, hs, hcodes, hs'⟩ := codesAt_leafNodes (List.mem_range.mp hi)
    simp only [symsAt, hcodes, List.map_singleton, hs', hs, Option.getD_some]
  rw [List.flatMap_congr hsyms, ← List.map_eq_flatMap, leafNodes_length]
  refine List.ext_getElem (by simp) fun i _ hi => ?_
  simp [List.getElem?_eq_getElem hi]

theorem CodesInv.of_leaves (f : Vector Word 256) : CodesInv f (leafNodes f) (List.range (leafNodes f).length) where
  toArenaInv := .of_leaves f
  symbols := .of_eq (flatMap_symsAt_leafNodes f)
  cost := by
    have hzero : ∀ i ∈ List.range (leafNodes f).length, codesCost f (codesAt (leafNodes f) i) = 0 := by
      intro i hi
      obtain ⟨s, _, hcodes, _⟩ := codesAt_leafNodes (List.mem_range.mp hi)
      simp [hcodes, codesCost]
    rw [List.map_congr_left hzero, ← leafNodes_length, List.drop_length]
    simp

/-- The codes below the node that a merge makes. -/
theorem ArenaInv.codesAt_merge (hW : freqTotal f ≤ WMAX) (h : ArenaInv f ns q) (h₁ : extract ns q = some (x, q₁))
    (h₂ : extract ns q₁ = some (y, q₂)) :
    codesAt (ns ++ [mergeNode ns x y]) ns.length =
      (codesAt ns x).map (consBit false) ++ (codesAt ns y).map (consBit true) := by
  have hmerge := h.smallestMerge hW h₁ h₂
  have hx := hmerge.zero.1
  have hy := hmerge.one.1
  have hn : (ns ++ [mergeNode ns x y])[ns.length]? = some (mergeNode ns x y) := List.getElem?_concat_length
  rw [codesAt_of_internal (h.merge hW h₁ h₂).merges hn, h.toNat_ofNat hx, h.toNat_ofNat hy,
    codesAt_append_left h.merges hx, codesAt_append_left h.merges hy]

/-- One merge keeps the invariant. -/
theorem CodesInv.merge (hW : freqTotal f ≤ WMAX) (h : CodesInv f ns q) (h₁ : extract ns q = some (x, q₁))
    (h₂ : extract ns q₁ = some (y, q₂)) : CodesInv f (ns ++ [mergeNode ns x y]) (q₂ ++ [ns.length]) := by
  have hp := extract_twice_perm h₁ h₂
  have hmerge := h.smallestMerge hW h₁ h₂
  have hnew := h.codesAt_merge hW h₁ h₂
  have hold : ∀ i ∈ q₂, codesAt (ns ++ [mergeNode ns x y]) i = codesAt ns i := fun i hi =>
    codesAt_append_left h.merges (h.bound i (hp.mem_iff.mpr (by simp [hi])))
  refine ⟨h.toArenaInv.merge hW h₁ h₂, ?symbols, ?cost⟩
  case symbols =>
    have hrest : q₂.flatMap (symsAt (ns ++ [mergeNode ns x y])) = q₂.flatMap (symsAt ns) :=
      List.flatMap_congr fun i hi => by rw [symsAt, hold i hi, symsAt]
    have htwo : symsAt (ns ++ [mergeNode ns x y]) ns.length = symsAt ns x ++ symsAt ns y := by
      simp [symsAt, hnew, Function.comp_def]
    have hq := (hp.flatMap_right (symsAt ns)).symm.trans h.symbols
    rw [List.flatMap_append, List.flatMap_singleton, hrest, htwo]
    rw [List.flatMap_cons, List.flatMap_cons, ← List.append_assoc] at hq
    exact List.perm_append_comm.trans hq
  case cost =>
    have hrest : q₂.map (fun i => codesCost f (codesAt (ns ++ [mergeNode ns x y]) i)) =
        q₂.map fun i => codesCost f (codesAt ns i) := List.map_congr_left fun i hi => by rw [hold i hi]
    have hq := (hp.map fun i => codesCost f (codesAt ns i)).sum_eq.symm.trans h.cost
    have hweight : (mergeNode ns x y).weight.toNat = codesWeight f (codesAt ns x) + codesWeight f (codesAt ns y) := by
      rw [← h.weightAt_eq hmerge.zero.1, ← h.weightAt_eq hmerge.one.1]
      exact hmerge.weight
    have hn : (leafSyms f).length ≤ ns.length := leafNodes_length f ▸ h.leaves.length_le
    rw [List.drop_append_of_le_length hn, List.map_append, hrest]
    simp only [List.map_append, List.map_cons, List.map_nil, List.sum_append, List.sum_cons, List.sum_nil, hnew,
      codesCost_append, codesCost_map_consBit, hweight] at hq ⊢
    omega

/-- The codes of a build, with the root alone in the queue. -/
theorem codesInv_buildTree (hW : freqTotal f ≤ WMAX) : CodesInv f (buildTree f).nodes [(buildTree f).root] :=
  buildTree_keeps (fun _ _ _ _ _ _ h => h.merge hW) (.of_leaves f)

/-- The walk of a build gives the codes below the root. -/
theorem buildTree_codes (hW : freqTotal f ≤ WMAX) :
    (buildTree f).codes = codesAt (buildTree f).nodes (buildTree f).root := by
  have h := arenaInv_buildTree hW
  exact walk_fuel h.merges (h.bound _ (List.mem_singleton_self _)) (Nat.lt_succ_self _)

theorem buildTree_symbols_perm (hW : freqTotal f ≤ WMAX) :
    ((buildTree f).codes.map fun c => c.1.toNat).Perm (leafSyms f) := by
  have h := (codesInv_buildTree hW).symbols
  rwa [List.flatMap_singleton, symsAt, ← buildTree_codes hW] at h

theorem treeCodes_buildTree (hW : freqTotal f ≤ WMAX) : TreeCodes (buildTree f).codes := by
  have h := arenaInv_buildTree hW
  rw [buildTree_codes hW]
  exact treeCodes_codesAt h.merges (h.bound _ (by simp))

theorem buildTree_codes_length (hW : freqTotal f ≤ WMAX) : (buildTree f).codes.length = (leafSyms f).length := by
  rw [← (buildTree_symbols_perm hW).length_eq, List.length_map]

/-- A code fits the readback of 256 bits. -/
theorem buildTree_code_length_le (hW : freqTotal f ≤ WMAX) {c : Sym × Code} (hc : c ∈ (buildTree f).codes) :
    c.2.length ≤ 256 := by
  have hlt := (treeCodes_buildTree hW).length_lt hc
  have hn := leafSyms_length_le f
  rw [buildTree_codes_length hW] at hlt
  simp only [NSYM] at hn
  omega

end

/-- Settles O37: the leaves below the root are the present symbols, and its codes are those of a binary tree. -/
theorem codesArePrefixFree : Obligations.CodesArePrefixFree := by
  unfold Obligations.CodesArePrefixFree
  intro f hW
  exact ⟨buildTree_symbols_perm hW, fun c hc d hd => (treeCodes_buildTree hW).eq_of_prefix hc hd⟩

/-- Settles O38: the lengths of a binary tree's codes, with as many codes as leaves. -/
theorem codeLengthBounds : Obligations.CodeLengthBounds := by
  unfold Obligations.CodeLengthBounds
  intro f hW c hc
  have htree := treeCodes_buildTree hW
  rw [buildTree_n, ← buildTree_codes_length hW]
  exact ⟨htree.length_lt hc, buildTree_code_length_le hW hc, fun hlen => htree.length_pos hlen hc⟩

/-- Settles O39: Kraft's equality for a binary tree, and the cost that every merge adds. -/
theorem codeLengthSums : Obligations.CodeLengthSums := by
  unfold Obligations.CodeLengthSums
  intro f hW
  refine ⟨(treeCodes_buildTree hW).kraft fun c => buildTree_code_length_le hW, ?cost⟩
  have hcost := (codesInv_buildTree hW).cost
  rwa [List.map_singleton, List.sum_singleton, ← buildTree_codes hW, ← buildTree_n] at hcost

end Sys2Proof.Machine
end

section
/-! BUILD, the builder's step and the tree it leaves in the block (42_tree_build.md R85 to R87, R95). -/

namespace Sys2Proof.Machine

/-! ### BUILD (R85) -/

/-- Settles O23: BUILD is permitted in the resting modes, rejected while an engine runs and ignored in ERROR. -/
theorem buildStartsBuilding : Obligations.BuildStartsBuilding := by
  unfold Obligations.BuildStartsBuilding
  refine fun s => ⟨fun hm => ?started, fun hm => ?rejected, fun hm => exec_of_error hm (by decide)⟩
  case started =>
    have hrest := mem_restingModes.mpr hm
    exact exec_of_permitted (i := .build) rfl (ne_error_of_mem_restingModes hrest) hrest
  case rejected =>
    obtain ⟨hne, hno⟩ := not_resting_of_engineRuns hm
    exact exec_of_not_permitted (i := .build) rfl hne hno

/-! ### The builder's step (R86, R87) -/

/-- The step of the builder's turn is its enabled step. -/
theorem step_builder {s : State} {ts : List Turn} {b : Block} (hts : s.env.turns = .builder :: ts)
    (hb : s.blk.builderStep = some b) : step s = .next ((s.withTurns ts).withBlk b) := by
  simp [step, hts, takeTurn, turn, agentTurn, hb]

theorem Block.builderStep_of_overflow {b : Block} (hm : b.mode = .building) (hW : WMAX < freqTotal b.freq) :
    b.builderStep = some (b.raise .weightOvf 0) := by
  rw [Block.builderStep, if_pos hm, if_pos hW]

theorem Block.builderStep_of_fits {b : Block} (hm : b.mode = .building) (hW : freqTotal b.freq ≤ WMAX) :
    b.builderStep = some { b with
      tree := (buildTree b.freq).toTree b.tree.node, mode := .ready, irqStatus := setIrq b.irqStatus .buildDone } := by
  rw [Block.builderStep, if_pos hm, if_neg (Nat.not_lt.mpr hW)]

theorem freqTotal_eq_sum_finRange (f : Vector Word 256) :
    freqTotal f = ((List.finRange 256).map fun k : Fin 256 => (f[k]).toNat).sum + 1 := by
  rw [freqTotal, ← List.map_coe_finRange_eq_range, List.map_map]
  simp only [Function.comp_def, freqAt_byte]

/-- Settles O31: the sum over the 256 counts, and EOF's 1, is the total that the builder checks. -/
theorem weightOverflowIsRaised : Obligations.WeightOverflowIsRaised := by
  unfold Obligations.WeightOverflowIsRaised
  intro s ts hts hm hsum
  rw [← freqTotal_eq_sum_finRange] at hsum
  exact step_builder hts (Block.builderStep_of_overflow hm hsum)

/-! ### The tree in the block -/

section
variable {f : Vector Word 256}

/-- The tree written into the block is that of the table: its indices fit their fields and its nodes the arena. -/
theorem toTree_isOf (hW : freqTotal f ≤ WMAX) (old : Vector Node NODE_MAX) : ((buildTree f).toTree old).IsOf f := by
  obtain ⟨hlen, hroot, _⟩ := buildTree_summary hW
  have hn := leafSyms_length_le f
  simp only [NSYM] at hn
  refine ⟨hW, ?nleaf, ?root, fun i hi => ?node, rfl⟩
  case nleaf =>
    rw [buildTree_n, Built.toTree, BitVec.toNat_ofNat, buildTree_n]
    omega
  case root =>
    rw [Built.toTree, BitVec.toNat_ofNat]
    omega
  case node =>
    rw [buildTree_n] at hi
    rw [Built.toTree, writeArena_get, if_pos (by simp only [NODE_MAX]; omega), Nat.sub_zero]

/-- The slots above the tree's keep what they held (log 17). -/
theorem toTree_node_above (hW : freqTotal f ≤ WMAX) (old : Vector Node NODE_MAX) {i : Nat}
    (hi : 2 * (leafSyms f).length - 1 ≤ i) : ((buildTree f).toTree old).node[i]? = old[i]? := by
  obtain ⟨hlen, _⟩ := buildTree_summary hW
  rw [Built.toTree, writeArena_get, if_neg (by omega)]

end

/-- Settles O30: the tree is the one the builder's step writes. -/
theorem builderMakesTheTree : Obligations.BuilderMakesTheTree := by
  unfold Obligations.BuilderMakesTheTree
  intro s ts hts hm hW
  exact ⟨(buildTree s.blk.freq).toTree s.blk.tree.node, rfl, toTree_isOf hW _, fun _ => toTree_node_above hW _,
    step_builder hts (Block.builderStep_of_fits hm hW)⟩

/-! ### Trees of one table (R95) -/

theorem Tree.inArena_iff {t : Tree} {i : Nat} : t.inArena i = true ↔ i + 2 ≤ 2 * t.nleaf.toNat := by
  simp [Tree.inArena]

namespace Tree.IsOf
variable {t u : Tree} {f : Vector Word 256} {i : Nat}

theorem nleaf_toNat (ht : t.IsOf f) : t.nleaf.toNat = (leafSyms f).length := ht.2.1.trans (buildTree_n f)

/-- Within the tree's indices the arena holds the nodes built. -/
theorem node_eq_nodes (ht : t.IsOf f) (hi : t.inArena i = true) : t.node[i]? = (buildTree f).nodes[i]? := by
  obtain ⟨_, hn, _, hnode, _⟩ := ht
  rw [Tree.inArena_iff, hn] at hi
  exact hnode i (by omega)

theorem root_inArena (ht : t.IsOf f) : t.inArena t.root.toNat = true := by
  obtain ⟨hW, hn, hroot, _⟩ := ht
  obtain ⟨_, hlast, _⟩ := buildTree_summary hW
  rw [Tree.inArena_iff, hn, hroot, buildTree_n, hlast]

theorem leaf_inArena (ht : t.IsOf f) (hi : i < t.nleaf.toNat) : t.inArena i = true := by
  have hpos := leafSyms_length_pos f
  rw [Tree.inArena_iff]
  rw [ht.nleaf_toNat] at *
  omega

/-- The children of a node of the tree are nodes of the tree. -/
theorem child_inArena (ht : t.IsOf f) (hi : t.inArena i = true) {zero one : NodeIdx} {w : Word}
    (hn : t.node[i]? = some (.internal zero one w)) :
    t.inArena zero.toNat = true ∧ t.inArena one.toNat = true := by
  rw [ht.node_eq_nodes hi] at hn
  obtain ⟨hzero, hone⟩ := (arenaInv_buildTree ht.1).merges.child_lt hn
  simp only [Tree.inArena_iff] at hi ⊢
  omega

theorem nleaf_eq (ht : t.IsOf f) (hu : u.IsOf f) : t.nleaf = u.nleaf :=
  BitVec.eq_of_toNat_eq (ht.nleaf_toNat.trans hu.nleaf_toNat.symm)

theorem root_eq (ht : t.IsOf f) (hu : u.IsOf f) : t.root = u.root := by
  obtain ⟨_, _, hroot, _⟩ := ht
  obtain ⟨_, _, hroot', _⟩ := hu
  exact BitVec.eq_of_toNat_eq (hroot.trans hroot'.symm)

theorem code_eq (ht : t.IsOf f) (hu : u.IsOf f) : t.code = u.code := by
  obtain ⟨_, _, _, _, hcode⟩ := ht
  obtain ⟨_, _, _, _, hcode'⟩ := hu
  rw [hcode, hcode']

theorem inArena_eq (ht : t.IsOf f) (hu : u.IsOf f) (i : Nat) : t.inArena i = u.inArena i := by
  rw [Tree.inArena, Tree.inArena, ht.nleaf_eq hu]

theorem node_eq (ht : t.IsOf f) (hu : u.IsOf f) (hi : t.inArena i = true) : t.node[i]? = u.node[i]? := by
  rw [ht.node_eq_nodes hi, hu.node_eq_nodes (ht.inArena_eq hu i ▸ hi)]

theorem inTree_eq (ht : t.IsOf f) (hu : u.IsOf f) (hv : t.valid = u.valid) (s : Sym) : t.inTree s = u.inTree s := by
  have hleaves : ∀ i ∈ List.range t.nleaf.toNat, (t.node[i]? >>= Node.symOf) = (u.node[i]? >>= Node.symOf) :=
    fun i hi => by rw [ht.node_eq hu (ht.leaf_inArena (List.mem_range.mp hi))]
  rw [Tree.inTree, Tree.inTree, hv, ← ht.nleaf_eq hu, Bool.eq_iff_iff]
  simp only [Bool.and_eq_true, List.any_eq_true, decide_eq_true_eq]
  exact and_congr_right fun _ => exists_congr fun i => and_congr_right fun hi => by rw [hleaves i hi]

theorem codeOf_eq (ht : t.IsOf f) (hu : u.IsOf f) (s : Sym) : t.codeOf s = u.codeOf s := by
  rw [Tree.codeOf, Tree.codeOf, ht.code_eq hu]

end Tree.IsOf

/-- Blocks with trees of one table show the same of every slot. -/
theorem Block.slotWord_eq {a b : Block} {f : Vector Word 256} (ha : a.tree.IsOf f) (hb : b.tree.IsOf f)
    (hv : a.tree.valid = b.tree.valid) (i : Fin NODE_MAX) (view : Node → Word) :
    a.slotWord i view = b.slotWord i view := by
  rw [Block.slotWord, Block.slotWord, hv, ← ha.inArena_eq hb]
  split
  next hi =>
    have hnode := ha.node_eq hb (Bool.and_eq_true_iff.mp hi).2
    have hslot : a.tree.node[i] = b.tree.node[i] := by simpa using hnode
    rw [hslot]
  next => rfl

/-- Settles O40: trees of one table differ at most in the slots above them, which no register shows. -/
theorem equalTablesReadBackEqualTrees : Obligations.EqualTablesReadBackEqualTrees := by
  unfold Obligations.EqualTablesReadBackEqualTrees
  intro a b ha hb hva hvb hf
  have hta := ha hva
  have htb : b.tree.IsOf a.freq := hf ▸ hb hvb
  have hv : a.tree.valid = b.tree.valid := hva.trans hvb.symm
  refine ⟨?nleaf, ?root, ?total, fun i => Block.slotWord_eq hta htb hv i _, fun i => Block.slotWord_eq hta htb hv i _,
    fun hsel => ⟨?codeLen, fun j => ?codeBits⟩⟩
  case nleaf => simp only [Block.readReg, Block.nleafWord, hv, hta.nleaf_eq htb]
  case root => simp only [Block.readReg, Block.rootWord, hv, hta.root_eq htb]
  case total =>
    have hnode := hta.node_eq htb hta.root_inArena
    rw [hta.root_eq htb] at hnode
    simp only [Block.readReg, Block.totalWord, Tree.nodeAt, hv, hnode, hta.root_eq htb]
  case codeLen =>
    simp only [Block.readReg, Block.codeLenWord, hsel, hta.inTree_eq htb hv, hta.codeOf_eq htb]
  case codeBits =>
    simp only [Block.readReg, Block.codeBitsWord, hsel, hta.inTree_eq htb hv, hta.codeOf_eq htb]

end Sys2Proof.Machine
end

section
/-! What every step keeps of the tree, the decoder's place in it and the end of the symbols (42_tree_build.md R95,
44_decoder.md R104 to R109, 43_encoder.md R98 to R101). -/

namespace Sys2Proof.Machine

section
variable {T : Turn → Prop} {b b' : Block}

/-! ### The tree of the table (R95) -/

theorem Block.TreeCurrent.congr (h : b.TreeCurrent) (ht : b'.tree = b.tree) (hf : b'.freq = b.freq) :
    b'.TreeCurrent := by
  simpa only [Block.TreeCurrent, ht, hf] using h

theorem Block.treeCurrent_of_not_valid (hv : b.tree.valid = false) : b.TreeCurrent := by
  simp [Block.TreeCurrent, hv]

theorem BlockChange.treeCurrent (h : BlockChange T b b') (hinv : b.TreeCurrent) : b'.TreeCurrent := by
  cases h with
  | abort | clearFreq | freqStored | startBuild | reset => exact Block.treeCurrent_of_not_valid rfl
  | built _ hW => exact fun _ => toTree_isOf hW _
  | _ => exact hinv.congr rfl rfl

/-! ### The decoder's place in the tree (44_decoder.md R104, R107 to R109) -/

/-- In a mode with a tree, it is the tree of the table. -/
theorem Block.Inv.isOf (h : b.Inv) (hm : b.mode.hasTree = true) : b.tree.IsOf b.freq :=
  h.treeCurrent (h.modeTree.2 hm)

theorem Block.DecoderInTree.congr (h : b.DecoderInTree) (hm : b'.mode = b.mode) (ht : b'.tree = b.tree)
    (hn : b'.dec.node = b.dec.node) : b'.DecoderInTree := by
  simpa only [Block.DecoderInTree, hm, ht, hn] using h

theorem Block.decoderInTree_of_mode (hm : b.mode ≠ .decoding) (hm' : b.mode ≠ .decDone) : b.DecoderInTree := by
  simp [Block.DecoderInTree, hm, hm']

theorem Block.decoderInTree_of_decoding (hm : b.mode = .decoding) (hn : b.tree.inArena b.dec.node.toNat = true) :
    b.DecoderInTree :=
  ⟨fun _ => hn, fun hd => by simp [hm] at hd⟩

theorem BlockChange.decoderInTree (h : BlockChange T b b') (hinv : b.Inv) : b'.DecoderInTree := by
  have htree (hm : b.mode = .ready ∨ b.mode = .decoding) : b.tree.IsOf b.freq :=
    hinv.isOf (by rcases hm with hm | hm <;> rw [hm] <;> rfl)
  have hplace (hm : b.mode = .decoding) : b.tree.inArena b.dec.node.toNat = true := hinv.decoderInTree.1 (.inl hm)
  cases h with
  | abort | illegal | rejected | clearFreq | startBuild | startEncode | freqRejected | freqStored | weightOvf | built
  | badSymbol | encFinish | decTruncate | reset => exact Block.decoderInTree_of_mode nofun nofun
  | startDecode _ hm => exact Block.decoderInTree_of_decoding rfl (htree (.inl hm)).root_inArena
  | decDescend zero one w x rest hm hn =>
    obtain ⟨hzero, hone⟩ := (htree (.inr hm)).child_inArena (hplace hm) hn
    refine Block.decoderInTree_of_decoding hm ?_
    cases x
    · exact hzero
    · exact hone
  | decEmit s w hm => exact Block.decoderInTree_of_decoding hm (htree (.inr hm)).root_inArena
  | decFinish s w hm hn hs => exact ⟨fun _ => hplace hm, fun _ => ⟨s, w, hn, hs⟩⟩
  | _ => exact hinv.decoderInTree.congr rfl rfl rfl

/-! ### EOF is the last symbol (43_encoder.md R98, R99, R101) -/

theorem Block.EofLast.congr (h : b.EofLast) (hm : b'.mode = b.mode) (he : b'.enc = b.enc)
    (hq : b'.q.symIn = b.q.symIn) : b'.EofLast := by
  simpa only [Block.EofLast, hm, he, hq] using h

theorem Block.eofLast_of_mode (hm : b.mode ≠ .encoding) (hm' : b.mode ≠ .encDone) : b.EofLast := by
  simp [Block.EofLast, hm, hm']

theorem Block.eofLast_of_encoding (hm : b.mode = .encoding)
    (heof : b.enc.eofIn = true ↔ b.enc.final = true ∨ (256 : Sym) ∈ b.q.symIn)
    (hlast : (256 : Sym) ∉ b.q.symIn.dropLast) (hfinal : b.enc.final = true → b.q.symIn = []) : b.EofLast :=
  ⟨fun _ => ⟨heof, hlast, hfinal⟩, fun hd => by simp [hm] at hd⟩

theorem toNat_eq_eof_iff {s : Sym} : s.toNat = EOF ↔ s = 256 :=
  ⟨fun h => BitVec.eq_of_toNat_eq h, fun h => by rw [h]; rfl⟩

theorem BlockChange.eofLast (h : BlockChange T b b') (hinv : b.EofLast) : b'.EofLast := by
  have hrun := hinv.1
  cases h with
  | abort | illegal | rejected | clearFreq | startBuild | startDecode | freqRejected | freqStored | weightOvf | built
  | badSymbol | decFinish | decTruncate | reset => exact Block.eofLast_of_mode nofun nofun
  | startEncode => exact Block.eofLast_of_encoding rfl (by simp) (by simp) (by simp)
  | loadEof s rest hm _ hf hq _ hs =>
    obtain ⟨heof, hlast, _⟩ := hrun hm
    obtain rfl := toNat_eq_eof_iff.mp hs
    have hrest : rest = [] := by
      by_contra hne
      simp [hq, List.dropLast_cons_of_ne_nil hne] at hlast
    subst hrest
    exact Block.eofLast_of_encoding hm (by simp [heof, hq]) (by simp) (fun _ => rfl)
  | loadSym s rest hm _ hf hq _ hs =>
    obtain ⟨heof, hlast, _⟩ := hrun hm
    have hne : (256 : Sym) ≠ s := fun h => hs (toNat_eq_eof_iff.mpr h.symm)
    refine Block.eofLast_of_encoding hm ?eof ?last (by simp [hf])
    case eof => rwa [hq, List.mem_cons, or_iff_right hne] at heof
    case last =>
      intro hmem
      have hcons : rest ≠ [] := by rintro rfl; cases hmem
      rw [hq, List.dropLast_cons_of_ne_nil hcons] at hlast
      exact hlast (List.mem_cons_of_mem _ hmem)
  | encEmit _ _ hm =>
    obtain ⟨heof, hlast, hfinal⟩ := hrun hm
    exact Block.eofLast_of_encoding hm heof hlast hfinal
  | encFinish hm hsr hf =>
    obtain ⟨heof, _, hfinal⟩ := hrun hm
    have henc : b.enc = ⟨[], true, true⟩ := calc
      b.enc = ⟨b.enc.sr, b.enc.final, b.enc.eofIn⟩ := rfl
      _ = ⟨[], true, true⟩ := by rw [hsr, hf, heof.mpr (.inl hf)]
    exact ⟨nofun, fun _ => ⟨henc, hfinal hf⟩⟩
  | takeSymIn d hm he =>
    obtain ⟨heof, _, _⟩ := hrun hm
    obtain ⟨hfinal, hmem⟩ : b.enc.final ≠ true ∧ (256 : Sym) ∉ b.q.symIn :=
      not_or.mp fun hor => by simp [heof.mpr hor] at he
    refine Block.eofLast_of_encoding hm ?eof (by rwa [List.dropLast_concat]) (fun hf => absurd hf hfinal)
    case eof =>
      show decide (d.toNat = EOF) = true ↔ b.enc.final = true ∨ (256 : Sym) ∈ b.q.symIn ++ [d]
      rw [decide_eq_true_iff, toNat_eq_eof_iff, or_iff_right hfinal, List.mem_append, or_iff_right hmem,
        List.mem_singleton, eq_comm]
  | _ => exact hinv.congr rfl rfl rfl

end

/-- Settles O57: each elementary change keeps each part of the invariant, the decoder's place by means of the tree. -/
theorem stepKeepsTheInvariants : Obligations.StepKeepsTheInvariants := by
  unfold Obligations.StepKeepsTheInvariants
  intro s s' hinv h
  have hc := step_blockChange h
  exact ⟨hc.modeTree hinv.modeTree, hc.errRecord hinv.errRecord, hc.queueBounds hinv.queueBounds,
    hc.treeCurrent hinv.treeCurrent, hc.decoderInTree hinv, hc.eofLast hinv.eofLast⟩

end Sys2Proof.Machine
end

section
/-! ENC_START, the encoder's steps, and the ports `s_sym`, `m_bit` and `m_sym` (43_encoder.md R97 to R102,
44_decoder.md R111). -/

namespace Sys2Proof.Machine

/-! ### ENC_START (R97) -/

/-- Settles O24: ENC_START is permitted in READY alone and ignored in ERROR. -/
theorem encStartBeginsASession : Obligations.EncStartBeginsASession := by
  unfold Obligations.EncStartBeginsASession
  refine fun s => ⟨fun hm => ?started, fun hready herr => ?rejected, fun hm => exec_of_error hm (by decide)⟩
  case started => exact exec_of_permitted (i := .encStart) rfl (by simp [hm]) (by simp [hm, startModes])
  case rejected => exact exec_of_not_permitted (i := .encStart) rfl herr (by simpa [startModes] using hready)

/-! ### The step of a given turn -/

section
variable {s : State} {ts : List Turn}

theorem step_of_turn {t : Turn} (hts : s.env.turns = t :: ts) : step s = takeTurn t (s.withTurns ts) := by
  simp [step, hts]

/-- The step of the encoder's turn is its enabled step. -/
theorem step_encoder {b : Block} (hts : s.env.turns = .encoder :: ts) (hb : s.blk.encoderStep = some b) :
    step s = .next ((s.withTurns ts).withBlk b) := by
  simp [step_of_turn hts, takeTurn, turn, agentTurn, hb]

theorem step_encoder_of_none (hts : s.env.turns = .encoder :: ts) (hb : s.blk.encoderStep = none) :
    step s = .next (s.withTurns ts) := by
  simp [step_of_turn hts, takeTurn, turn, agentTurn, hb]

end

/-! ### The symbol port (R98) -/

theorem Block.symReady_iff {b : Block} :
    b.symReady = true ↔ b.mode = .encoding ∧ b.enc.eofIn = false ∧ b.q.symIn.length < b.depths.symIn.cap := by
  simp [Block.symReady, and_assoc]

theorem Block.takeSymIn_of_ready {b : Block} (d : Sym) (h : b.symReady = true) :
    b.takeSymIn d = some { b with
      q := { b.q with symIn := b.q.symIn ++ [d] }, enc := { b.enc with eofIn := decide (d = 256) } } := by
  obtain ⟨_, heof, _⟩ := Block.symReady_iff.mp h
  simp [Block.takeSymIn, h, heof, qPush, toNat_eq_eof_iff]

theorem Block.takeSymIn_of_not_ready {b : Block} (d : Sym) (h : ¬ b.symReady = true) : b.takeSymIn d = none := if_neg h

/-- Settles O41: the port takes a value exactly when it is ready. -/
theorem symbolPortTakesOrRefuses : Obligations.SymbolPortTakesOrRefuses := by
  unfold Obligations.SymbolPortTakesOrRefuses
  refine fun s ts d hts => ⟨fun h => ?taken, fun h => ?refused⟩
  case taken =>
    have hb := s.blk.takeSymIn_of_ready d (Block.symReady_iff.mpr h)
    simp [step_of_turn hts, takeTurn, turn, agentTurn, symSrcTurn, hb, State.withTurns]
  case refused =>
    have hb := s.blk.takeSymIn_of_not_ready d (mt Block.symReady_iff.mp h)
    simp [step_of_turn hts, takeTurn, turn, agentTurn, symSrcTurn, hb]

/-! ### The load step (R99) -/

section
variable {b : Block} {d : Sym} {rest : List Sym}

/-- The load step is enabled and d is at the head of the queue. -/
structure Block.LoadsNext (b : Block) (d : Sym) (rest : List Sym) : Prop where
  mode : b.mode = .encoding
  sr : b.enc.sr = []
  final : b.enc.final = false
  symIn : b.q.symIn = d :: rest

theorem Block.encLoad_of_not_inTree (h : b.LoadsNext d rest) (ht : b.tree.inTree d = false) :
    b.encLoad = some ({ b with q := { b.q with symIn := rest } }.raise .badSymbol (symInfo d)) := by
  simp [Block.encLoad, h.mode, h.sr, h.final, h.symIn, ht]

theorem Block.encLoad_of_eof (h : b.LoadsNext d rest) (ht : b.tree.inTree d = true) (hd : d = 256) :
    b.encLoad = some { b with
      q := { b.q with symIn := rest }, enc := { b.enc with sr := b.tree.codeOf d, final := true } } := by
  simp [Block.encLoad, h.mode, h.sr, h.final, h.symIn, ht, toNat_eq_eof_iff.mpr hd]

theorem Block.encLoad_of_inTree (h : b.LoadsNext d rest) (ht : b.tree.inTree d = true) (hd : d ≠ 256) :
    b.encLoad = some { b with
      q := { b.q with symIn := rest }, enc := { b.enc with sr := b.tree.codeOf d }
      cnt := { b.cnt with encSym := b.cnt.encSym + 1 } } := by
  simp [Block.encLoad, h.mode, h.sr, h.final, h.symIn, ht, mt toNat_eq_eof_iff.mp hd]

theorem Block.encLoad_isSome_iff :
    b.encLoad.isSome = true ↔ b.mode = .encoding ∧ b.enc.sr = [] ∧ b.enc.final = false ∧ b.q.symIn ≠ [] := by
  rw [Option.isSome_iff_exists]
  constructor
  · rintro ⟨b', h⟩
    obtain ⟨hm, hsr, hf, d, rest, hq, _⟩ := Block.encLoad_cases h
    exact ⟨hm, hsr, hf, by simp [hq]⟩
  · rintro ⟨hm, hsr, hf, hq⟩
    obtain ⟨d, rest, hq⟩ := List.exists_cons_of_ne_nil hq
    have h : b.LoadsNext d rest := ⟨hm, hsr, hf, hq⟩
    cases ht : b.tree.inTree d with
    | false => exact ⟨_, Block.encLoad_of_not_inTree h ht⟩
    | true =>
      by_cases hd : d = 256
      · exact ⟨_, Block.encLoad_of_eof h ht hd⟩
      · exact ⟨_, Block.encLoad_of_inTree h ht hd⟩

theorem Block.encoderStep_of_encLoad {b' : Block} (h : b.encLoad = some b') : b.encoderStep = some b' := by
  simp [Block.encoderStep, h]

end

/-- Settles O42: the three cases of the load step, each the step of the encoder's turn. -/
theorem encoderLoadsASymbol : Obligations.EncoderLoadsASymbol := by
  unfold Obligations.EncoderLoadsASymbol
  intro s ts d rest hts hm hsr hf hq
  have h : s.blk.LoadsNext d rest := ⟨hm, hsr, hf, hq⟩
  exact ⟨fun ht => step_encoder hts (Block.encoderStep_of_encLoad (Block.encLoad_of_not_inTree h ht)),
    fun ht hd => step_encoder hts (Block.encoderStep_of_encLoad (Block.encLoad_of_eof h ht hd)),
    fun ht hd => step_encoder hts (Block.encoderStep_of_encLoad (Block.encLoad_of_inTree h ht hd))⟩

/-! ### The emit step and the finish step (R100, R101) -/

/-- The block with these bits pushed and counted, and others left in ENC_SR. -/
def Block.pushBits (b : Block) (bits rest : Code) : Block :=
  { b with
    q := { b.q with bitOut := b.q.bitOut ++ bits }
    enc := { b.enc with sr := rest }
    cnt := { b.cnt with encBit := b.cnt.encBit + BitVec.ofNat 32 bits.length } }

theorem Block.pushBits_nil (b : Block) : b.pushBits [] b.enc.sr = b := by simp [Block.pushBits]

theorem Block.pushBits_pushBits (b : Block) (p p' rest rest' : Code) :
    (b.pushBits p rest).pushBits p' rest' = b.pushBits (p ++ p') rest' := by
  simp [Block.pushBits, BitVec.ofNat_add, BitVec.add_assoc]

section
variable {b : Block} {x : Bool} {rest : Code}

theorem Block.encEmit_of_room (hm : b.mode = .encoding) (hsr : b.enc.sr = x :: rest)
    (hroom : b.q.bitOut.length < b.depths.bitOut.cap) : b.encEmit = some (b.pushBits [x] rest) := by
  simp [Block.encEmit, hm, hsr, hroom, Block.pushBits, qPush]

theorem Block.encEmit_isSome_iff :
    b.encEmit.isSome = true ↔ b.mode = .encoding ∧ b.enc.sr ≠ [] ∧ b.q.bitOut.length < b.depths.bitOut.cap := by
  cases hsr : b.enc.sr <;> simp [Block.encEmit, hsr]

theorem Block.encFinish_of_final (hm : b.mode = .encoding) (hsr : b.enc.sr = []) (hf : b.enc.final = true) :
    b.encFinish = some { b with mode := .encDone, irqStatus := setIrq b.irqStatus .encDone } :=
  if_pos ⟨hm, hsr, hf⟩

theorem Block.encFinish_isSome_iff :
    b.encFinish.isSome = true ↔ b.mode = .encoding ∧ b.enc.sr = [] ∧ b.enc.final = true := by
  simp [Block.encFinish]

theorem Block.encLoad_eq_none_of_sr (hsr : b.enc.sr ≠ []) : b.encLoad = none := by
  simp [Block.encLoad, hsr]

theorem Block.encoderStep_of_encEmit {b' : Block} (h : b.encEmit = some b') : b.encoderStep = some b' := by
  obtain ⟨_, _, x, rest, hsr, _⟩ := Block.encEmit_cases h
  simp [Block.encoderStep, Block.encLoad_eq_none_of_sr, hsr, h]

theorem Block.encoderStep_of_encFinish {b' : Block} (h : b.encFinish = some b') : b.encoderStep = some b' := by
  obtain ⟨_, hsr, hf, _⟩ := Block.encFinish_cases h
  simp [Block.encoderStep, Block.encLoad, Block.encEmit, hsr, hf, h]

/-! ### When the encoder is held -/

/-- In ENCODING the encoder is held when it waits for a symbol, or for room for a bit. -/
theorem Block.encoderStep_eq_none_iff : b.encoderStep = none ↔
    b.mode ≠ .encoding ∨ (b.enc.sr = [] ∧ b.enc.final = false ∧ b.q.symIn = []) ∨
      (b.enc.sr ≠ [] ∧ b.depths.bitOut.cap ≤ b.q.bitOut.length) := by
  have hsome : b.encoderStep.isSome = (b.encLoad.isSome || (b.encEmit.isSome || b.encFinish.isSome)) := by
    simp [Block.encoderStep]
  rw [← Option.not_isSome_iff_eq_none, hsome, Bool.or_eq_true, Bool.or_eq_true, Block.encLoad_isSome_iff,
    Block.encEmit_isSome_iff, Block.encFinish_isSome_iff]
  by_cases hm : b.mode = .encoding
  · by_cases hsr : b.enc.sr = []
    · cases hf : b.enc.final <;> simp [hm, hsr]
    · simp [hm, hsr]
  · simp [hm]

end

/-- Settles O43: with a bit in ENC_SR the enabled step is the emit step, or none without room; with EOF's code all out
it is the finish step. -/
theorem encoderEmitsAndFinishes : Obligations.EncoderEmitsAndFinishes := by
  unfold Obligations.EncoderEmitsAndFinishes
  refine fun s ts hts hm => ⟨fun x rest hsr => ⟨fun hroom => ?emits, fun hfull => ?held⟩, fun hsr hf => ?finishes⟩
  case emits => exact step_encoder hts (Block.encoderStep_of_encEmit (Block.encEmit_of_room hm hsr hroom))
  case held =>
    have hne : s.blk.enc.sr ≠ [] := by simp [hsr]
    exact step_encoder_of_none hts (Block.encoderStep_eq_none_iff.mpr (.inr (.inr ⟨hne, hfull⟩)))
  case finishes => exact step_encoder hts (Block.encoderStep_of_encFinish (Block.encFinish_of_final hm hsr hf))

/-- Settles O45: the load step needs an empty ENC_SR without ENC_FINAL, the emit step a bit in it, the finish step both
an empty ENC_SR and ENC_FINAL. -/
theorem encoderIsHeldOnlyByItsQueues : Obligations.EncoderIsHeldOnlyByItsQueues := by
  unfold Obligations.EncoderIsHeldOnlyByItsQueues
  intro b
  rw [Block.encLoad_isSome_iff, Block.encEmit_isSome_iff, Block.encFinish_isSome_iff]
  refine ⟨Block.encoderStep_eq_none_iff, ?loadEmit, ?loadFinish, ?emitFinish⟩
  case loadEmit => rintro ⟨⟨_, hsr, _⟩, _, hne, _⟩; exact hne hsr
  case loadFinish => rintro ⟨⟨_, _, hf, _⟩, _, _, hf'⟩; simp [hf] at hf'
  case emitFinish => rintro ⟨⟨_, hne, _⟩, _, hsr, _⟩; exact hne hsr

/-! ### The encoder without turns (log 2) -/

/-- With no turn given the encoder goes on by itself in ENCODING. -/
theorem step_encoder_of_no_turn {s : State} {b : Block} (hts : s.env.turns = []) (hm : s.blk.mode = .encoding)
    (hb : s.blk.encoderStep = some b) : step s = .next (s.withBlk b) := by
  have hbuilder : s.blk.builderStep = none := if_neg (by simp [hm])
  simp [step, hts, engineTurn, hbuilder, hb]

theorem run_succ_of_step {s s' : State} (h : step s = .next s') (k : Nat) :
    Host.Core.run Sys2Proof.core (k + 1) s = Host.Core.run Sys2Proof.core k s' := by
  have hcore : Sys2Proof.core.step s = .next s' := h
  simp only [Host.Core.run, hcore]

/-- Emitting goes on bit by bit, as long as there is room. -/
theorem run_pushes_bits (bits : Code) : ∀ s : State, s.env.turns = [] → s.blk.mode = .encoding → s.blk.enc.sr = bits →
    s.blk.q.bitOut.length + bits.length ≤ s.blk.depths.bitOut.cap →
    Host.Core.run Sys2Proof.core bits.length s = .next (s.withBlk (s.blk.pushBits bits [])) := by
  induction bits with
  | nil =>
    intro s _ _ hsr _
    have hnil := s.blk.pushBits_nil
    rw [hsr] at hnil
    rw [hnil]
    rfl
  | cons x rest ih =>
    intro s hts hm hsr hroom
    rw [List.length_cons] at hroom
    have hemit := Block.encoderStep_of_encEmit (Block.encEmit_of_room hm hsr (by omega))
    have hrest := ih (s.withBlk (s.blk.pushBits [x] rest)) hts hm rfl (by simp [Block.pushBits]; omega)
    rw [State.withBlk_blk, Block.pushBits_pushBits] at hrest
    exact (run_succ_of_step (step_encoder_of_no_turn hts hm hemit) _).trans hrest

/-- Settles O46, by induction on the bits of ENC_SR. -/
theorem encoderEmitsAWholeCode : Obligations.EncoderEmitsAWholeCode := by
  unfold Obligations.EncoderEmitsAWholeCode
  exact fun s hts hm hroom => run_pushes_bits s.blk.enc.sr s hts hm rfl hroom

/-! ### What has been pushed (R102, 44_decoder.md R111) -/

section
variable {u v : State}

theorem bitStream_congr (hq : v.blk.q.bitOut = u.blk.q.bitOut) (ho : v.env.bitsOut = u.env.bitsOut) :
    v.bitStream = u.bitStream := by
  rw [State.bitStream, hq, ho, State.bitStream]

theorem symStream_congr (hq : v.blk.q.symOut = u.blk.q.symOut) (ho : v.env.symsOut = u.env.symsOut) :
    v.symStream = u.symStream := by
  rw [State.symStream, hq, ho, State.symStream]

theorem bitStream_of_push {x : Bool} (hq : v.blk.q.bitOut = u.blk.q.bitOut ++ [x])
    (ho : v.env.bitsOut = u.env.bitsOut) : v.bitStream = u.bitStream ++ [x] := by
  rw [State.bitStream, hq, ho, State.bitStream, List.append_assoc]

theorem symStream_of_push {x : Byte} (hq : v.blk.q.symOut = u.blk.q.symOut ++ [x])
    (ho : v.env.symsOut = u.env.symsOut) : v.symStream = u.symStream ++ [x] := by
  rw [State.symStream, hq, ho, State.symStream, List.append_assoc]

/-- A delivered bit stays in the stream. -/
theorem bitStream_of_giveBitOut {x : Bool} (hb : u.blk.giveBitOut = some (x, v.blk))
    (ho : v.env.bitsOut = u.env.bitsOut ++ [x]) : v.bitStream = u.bitStream := by
  obtain ⟨rest, hq, hv⟩ := Block.giveBitOut_cases hb
  simp [State.bitStream, ho, hv, hq]

/-- A delivered symbol stays in the stream. -/
theorem symStream_of_giveSymOut {x : Byte} (hb : u.blk.giveSymOut = some (x, v.blk))
    (ho : v.env.symsOut = u.env.symsOut ++ [x]) : v.symStream = u.symStream := by
  obtain ⟨rest, hq, hv⟩ := Block.giveSymOut_cases hb
  simp [State.symStream, ho, hv, hq]

end

/-- What the block has in its output queues stays there, with what is pushed behind it. -/
def Block.KeepsOutput (b b' : Block) : Prop := b.q.bitOut <+: b'.q.bitOut ∧ b.q.symOut <+: b'.q.symOut

theorem Block.KeepsOutput.of_eq {b b' : Block} (hb : b'.q.bitOut = b.q.bitOut) (hs : b'.q.symOut = b.q.symOut) :
    b.KeepsOutput b' := by
  simp [Block.KeepsOutput, hb, hs]

/-- Of the host writes only ABORT's touches the output queues. -/
theorem WriteEffect.keepsOutput {r : Reg} {w : Word} {b b' : Block} (h : WriteEffect r w b b') :
    b.KeepsOutput b' ∨ (r = .cmd ∧ w = encode .abort) := by
  cases h with
  | cmd hr i hd =>
    rcases cmdEffect_cases i b with ⟨rfl, _⟩ | ⟨_, _, e⟩ | ⟨_, _, _, _, e⟩ | ⟨_, _, e⟩ | ⟨_, _, e⟩ | ⟨_, _, e⟩ |
      ⟨_, _, e⟩
    · exact .inr ⟨hr, eq_encode_of_decode hd⟩
    all_goals rw [e]; exact .inl (.of_eq rfl rfl)
  | illegal =>
    rcases b.illegalCmd_cases w with ⟨_, e⟩ | ⟨_, e⟩ <;> rw [e] <;> exact .inl (.of_eq rfl rfl)
  | freq k =>
    rcases b.writeFreq_cases k w with ⟨_, e⟩ | ⟨_, e⟩ | ⟨_, e⟩ <;> rw [e] <;> exact .inl (.of_eq rfl rfl)
  | irqStatus | irqEnable | codeSel | ignored => exact .inl (.of_eq rfl rfl)

section
variable {b b' : Block}

theorem Block.keepsOutput_of_builderStep (h : b.builderStep = some b') : b.KeepsOutput b' := by
  obtain ⟨_, ⟨_, rfl⟩ | ⟨_, rfl⟩⟩ := Block.builderStep_cases h <;> exact .of_eq rfl rfl

/-- A load pushes nothing. -/
theorem Block.output_of_encLoad (h : b.encLoad = some b') : b'.q.bitOut = b.q.bitOut ∧ b'.q.symOut = b.q.symOut := by
  obtain ⟨_, _, _, d, rest, _, ⟨_, rfl⟩ | ⟨_, _, rfl⟩ | ⟨_, _, rfl⟩⟩ := Block.encLoad_cases h <;> exact ⟨rfl, rfl⟩

theorem Block.keepsOutput_of_encoderStep (h : b.encoderStep = some b') : b.KeepsOutput b' := by
  rcases Block.encoderStep_cases h with h | h | h
  · obtain ⟨hbit, hsym⟩ := Block.output_of_encLoad h
    exact .of_eq hbit hsym
  · obtain ⟨_, _, x, _, _, rfl⟩ := Block.encEmit_cases h
    exact ⟨List.prefix_append _ [x], List.prefix_rfl⟩
  · obtain ⟨_, _, _, rfl⟩ := Block.encFinish_cases h
    exact .of_eq rfl rfl

theorem Block.keepsOutput_of_decoderStep (h : b.decoderStep = some b') : b.KeepsOutput b' := by
  rcases Block.decoderStep_cases h with h | h | h | h
  · obtain ⟨_, _, _, _, _, _, _, rfl⟩ := Block.decDescend_cases h
    exact .of_eq rfl rfl
  · obtain ⟨d, _, _, _, _, rfl⟩ := Block.decEmit_cases h
    exact ⟨List.prefix_rfl, List.prefix_append _ [symByte d]⟩
  · obtain ⟨_, _, _, _, rfl⟩ := Block.decFinish_cases h
    exact .of_eq rfl rfl
  · obtain ⟨_, _, _, _, _, _, rfl⟩ := Block.decTruncate_cases h
    exact .of_eq rfl rfl

end

section
variable {u v : State}

/-- What has been pushed at u is the beginning of what has been pushed at v. -/
def KeepsStreams (u v : State) : Prop := u.bitStream <+: v.bitStream ∧ u.symStream <+: v.symStream

theorem KeepsStreams.of_eq (hb : v.bitStream = u.bitStream) (hs : v.symStream = u.symStream) : KeepsStreams u v := by
  simp [KeepsStreams, hb, hs]

theorem keepsStreams_of_keepsOutput (h : u.blk.KeepsOutput v.blk) (hb : v.env.bitsOut = u.env.bitsOut)
    (hs : v.env.symsOut = u.env.symsOut) : KeepsStreams u v := by
  obtain ⟨hbit, hsym⟩ := h
  constructor
  · rw [State.bitStream, State.bitStream, hb]; exact (List.prefix_append_right_inj _).mpr hbit
  · rw [State.symStream, State.symStream, hs]; exact (List.prefix_append_right_inj _).mpr hsym

/-- Every step but ABORT and the reset step keeps what has been pushed. -/
theorem step_keepsStreams (h : step u = .next v) :
    KeepsStreams u v ∨ u.Takes .reset ∨ u.Takes (.host (writeReq 0x008 5)) := by
  cases step_moved h with
  | stay hb hp => exact .inl (keepsStreams_of_keepsOutput (.of_eq (by rw [hb]) (by rw [hb])) hp.bitsOut hp.symsOut)
  | write r ht hr hb hp =>
    rcases hb.keepsOutput with hk | ⟨hcmd, hw⟩
    · exact .inl (keepsStreams_of_keepsOutput hk hp.bitsOut hp.symsOut)
    · have htakes := takes_writeReq_offset ht hr (by simp [hcmd])
      rw [hcmd, hw] at htakes
      exact .inr (.inr htakes)
  | builder hb hp =>
    exact .inl (keepsStreams_of_keepsOutput (Block.keepsOutput_of_builderStep hb) hp.bitsOut hp.symsOut)
  | encoder hb hp =>
    exact .inl (keepsStreams_of_keepsOutput (Block.keepsOutput_of_encoderStep hb) hp.bitsOut hp.symsOut)
  | decoder hb hp =>
    exact .inl (keepsStreams_of_keepsOutput (Block.keepsOutput_of_decoderStep hb) hp.bitsOut hp.symsOut)
  | latch hb hp =>
    obtain ⟨_, _, _, hv⟩ := Block.latchEnd_cases hb
    exact .inl (keepsStreams_of_keepsOutput (.of_eq (by rw [hv]) (by rw [hv])) hp.bitsOut hp.symsOut)
  | symSrc d hb _ ho _ hs =>
    obtain ⟨_, _, _, hv⟩ := Block.takeSymIn_cases hb
    exact .inl (keepsStreams_of_keepsOutput (.of_eq (by rw [hv]) (by rw [hv])) ho hs)
  | bitSrc x hb _ ho _ hs =>
    obtain ⟨_, _, _, hv⟩ := Block.takeBitIn_cases hb
    exact .inl (keepsStreams_of_keepsOutput (.of_eq (by rw [hv]) (by rw [hv])) ho hs)
  | bitSnk x hb _ ho _ hs =>
    obtain ⟨_, _, hv⟩ := Block.giveBitOut_cases hb
    exact .inl (.of_eq (bitStream_of_giveBitOut hb ho) (symStream_congr (by rw [hv]) hs))
  | symSnk x hb _ ho _ hs =>
    obtain ⟨_, _, hv⟩ := Block.giveSymOut_cases hb
    exact .inl (.of_eq (bitStream_congr (by rw [hv]) ho) (symStream_of_giveSymOut hb hs))
  | reset ht => exact .inr (.inl ht)

end

/-! ### The output ports (R102, 44_decoder.md R111) -/

section
variable {s : State} {ts : List Turn}

theorem step_bitSnk {x : Bool} {rest : List Bool} (hts : s.env.turns = .bitSnk :: ts)
    (hq : s.blk.q.bitOut = x :: rest) :
    step s = .next
      { blk := { s.blk with q := { s.blk.q with bitOut := rest } }
        env := { s.env with turns := ts, bitsOut := s.env.bitsOut ++ [x] } } := by
  simp [step_of_turn hts, takeTurn, turn, agentTurn, bitSnkTurn, Block.giveBitOut, hq, State.withTurns]

theorem step_bitSnk_of_empty (hts : s.env.turns = .bitSnk :: ts) (hq : s.blk.q.bitOut = []) :
    step s = .next (s.withTurns ts) := by
  simp [step_of_turn hts, takeTurn, turn, agentTurn, bitSnkTurn, Block.giveBitOut, hq]

theorem step_symSnk {y : Byte} {rest : List Byte} (hts : s.env.turns = .symSnk :: ts)
    (hq : s.blk.q.symOut = y :: rest) :
    step s = .next
      { blk := { s.blk with q := { s.blk.q with symOut := rest } }
        env := { s.env with turns := ts, symsOut := s.env.symsOut ++ [y] } } := by
  simp [step_of_turn hts, takeTurn, turn, agentTurn, symSnkTurn, Block.giveSymOut, hq, State.withTurns]

theorem step_symSnk_of_empty (hts : s.env.turns = .symSnk :: ts) (hq : s.blk.q.symOut = []) :
    step s = .next (s.withTurns ts) := by
  simp [step_of_turn hts, takeTurn, turn, agentTurn, symSnkTurn, Block.giveSymOut, hq]

end

/-- Settles O44: an output port gives the head of its queue, and a step's effect on the queues and on what is delivered
keeps what has been pushed. -/
theorem outputPortsDeliverInOrder : Obligations.OutputPortsDeliverInOrder := by
  unfold Obligations.OutputPortsDeliverInOrder
  refine ⟨fun s ts => ⟨fun hts => ?bit, fun hts => ?sym⟩, fun s s' h => step_keepsStreams h⟩
  case bit => exact ⟨fun _ _ => step_bitSnk hts, step_bitSnk_of_empty hts⟩
  case sym => exact ⟨fun _ _ => step_symSnk hts, step_symSnk_of_empty hts⟩

end Sys2Proof.Machine
end

section
/-! Encode sessions: what a step in ENCODING can do, and what a session has pushed (43_encoder.md R98 to R103). -/

namespace Sys2Proof.Machine

/-! ### A run of steps in one mode -/

/-- What holds of a run's first state and is kept by every step inside the mode holds of the last state in the mode,
from which the run's last step is taken. -/
theorem StaysIn.last_step {m : Mode} {P : State → Prop} {t : State}
    (hstep : ∀ u v, P u → u.blk.mode = m → step u = .next v → v.blk.mode = m → P v) :
    ∀ {k : Nat} {s : State}, (s.blk.mode = m → P s) → StaysIn m k s t →
      t = s ∨ ∃ u, P u ∧ u.blk.mode = m ∧ step u = .next t
  | 0, _, _, h => .inl h.symm
  | _ + 1, s, hs, ⟨hm, u, hu, h⟩ => by
    rcases StaysIn.last_step hstep (fun hmu => hstep s u (hs hm) hm hu hmu) h with rfl | hlast
    · exact .inr ⟨s, hs hm, hm, hu⟩
    · exact .inr hlast

/-! ### A host write while an engine runs (40_command.md R75) -/

/-- The mode and everything an engine works on are the same. -/
structure SameSession (b b' : Block) : Prop where
  mode : b'.mode = b.mode
  tree : b'.tree = b.tree
  enc : b'.enc = b.enc
  dec : b'.dec = b.dec
  cnt : b'.cnt = b.cnt
  q : b'.q = b.q

/-- While an engine runs a host write leaves its session alone, or is ABORT's, or raises one of the host's errors. -/
theorem WriteEffect.of_engineRuns {r : Reg} {w : Word} {b b' : Block} (h : WriteEffect r w b b')
    (hm : b.mode = .building ∨ b.mode = .encoding ∨ b.mode = .decoding) :
    SameSession b b' ∨ b' = b.abort ∨ ∃ c i, (c = .illegalCmd ∨ c = .badState) ∧ b' = b.raise c i := by
  obtain ⟨hne, hno⟩ := not_resting_of_engineRuns hm
  have hready : b.mode ≠ .ready := fun hr => hno (mem_restingModes.mpr (.inr (.inl hr)))
  cases h with
  | cmd _ i =>
    rcases cmdEffect_cases i b with ⟨_, heq⟩ | ⟨_, he, _⟩ | ⟨_, _, _, _, heq⟩ | ⟨_, hr, _⟩ | ⟨_, hr, _⟩ | ⟨_, hr, _⟩ |
      ⟨_, hr, _⟩
    · exact .inr (.inl heq)
    · exact absurd he hne
    · exact .inr (.inr ⟨_, _, .inr rfl, heq⟩)
    · exact absurd hr hno
    · exact absurd hr hno
    · exact absurd hr hready
    · exact absurd hr hready
  | illegal => exact .inr (.inr ⟨_, _, .inl rfl, Block.illegalCmd_of_ne_error hne w⟩)
  | freq j => exact .inr (.inr ⟨_, _, .inr rfl, Block.writeFreq_of_engineRuns j w hm⟩)
  | irqStatus | irqEnable | codeSel | ignored => exact .inl ⟨rfl, rfl, rfl, rfl, rfl, rfl⟩

/-! ### What a step in ENCODING can do -/

/-- What an encode session works on, and what has passed its ports, are the same. -/
structure SameEncoding (u v : State) : Prop where
  tree : v.blk.tree = u.blk.tree
  enc : v.blk.enc = u.blk.enc
  cnt : v.blk.cnt = u.blk.cnt
  symIn : v.blk.q.symIn = u.blk.q.symIn
  symTaken : v.env.symTaken = u.env.symTaken
  bitStream : v.bitStream = u.bitStream

/-- What one step from ENCODING can do to the session: `s_sym` takes a value, the encoder steps, the host or reset ends
the session, or the session goes on as it is. -/
inductive EncodeMove (u v : State) : Prop where
  | kept (hm : v.blk.mode = u.blk.mode) (hv : SameEncoding u v)
  | taken (d : Sym) (hb : u.blk.takeSymIn d = some v.blk) (ht : v.env.symTaken = u.env.symTaken ++ [d])
      (ho : v.env.bitsOut = u.env.bitsOut)
  | encoder (hb : u.blk.encoderStep = some v.blk) (hp : SamePorts u v)
  | ended (hm : v.blk.mode = .idle ∨ v.blk.mode = .error ∧ v.blk.err.code ≠ .badSymbol)

theorem encodeMove_of_writeEffect {r : Reg} {w : Word} {u v : State} (hm : u.blk.mode = .encoding)
    (hw : WriteEffect r w u.blk v.blk) (hp : SamePorts u v) : EncodeMove u v := by
  rcases hw.of_engineRuns (.inr (.inl hm)) with hs | hv | ⟨c, i, hc, hv⟩
  · exact .kept hs.mode ⟨hs.tree, hs.enc, hs.cnt, by rw [hs.q], hp.symTaken, bitStream_congr (by rw [hs.q]) hp.bitsOut⟩
  · exact .ended (.inl (by rw [hv]; rfl))
  · exact .ended (.inr ⟨by rw [hv]; rfl, by rcases hc with rfl | rfl <;> simp [hv]⟩)

theorem step_encodeMove {u v : State} (hm : u.blk.mode = .encoding) (h : step u = .next v) : EncodeMove u v := by
  cases step_moved h with
  | stay hb hp =>
    exact .kept (by rw [hb]) ⟨by rw [hb], by rw [hb], by rw [hb], by rw [hb], hp.symTaken,
      bitStream_congr (by rw [hb]) hp.bitsOut⟩
  | write r _ _ hb hp => exact encodeMove_of_writeEffect hm hb hp
  | builder hb => simp [(Block.builderStep_cases hb).1] at hm
  | encoder hb hp => exact .encoder hb hp
  | decoder hb => simp [Block.mode_of_decoderStep hb] at hm
  | latch hb =>
    obtain ⟨_, hd, _⟩ := Block.latchEnd_cases hb
    simp [hd] at hm
  | symSrc d hb ht ho => exact .taken d hb ht ho
  | bitSnk x hb ht ho =>
    have hs := bitStream_of_giveBitOut hb ho
    obtain ⟨rest, _, hv⟩ := Block.giveBitOut_cases hb
    exact .kept (by rw [hv]) ⟨by rw [hv], by rw [hv], by rw [hv], by rw [hv], ht, hs⟩
  | bitSrc x hb =>
    obtain ⟨hd, _⟩ := Block.takeBitIn_cases hb
    simp [hd] at hm
  | symSnk y hb ht ho =>
    obtain ⟨rest, _, hv⟩ := Block.giveSymOut_cases hb
    exact .kept (by rw [hv]) ⟨by rw [hv], by rw [hv], by rw [hv], by rw [hv], ht, bitStream_congr (by rw [hv]) ho⟩
  | reset _ hb => exact .ended (.inl (by rw [hb]; rfl))

/-! ### What a session has loaded and pushed -/

/-- The symbols a session has loaded: some before EOF, and EOF once ENC_FINAL is set. -/
def loadedSyms (syms : List Sym) (final : Bool) : List Sym := if final then syms ++ [256] else syms

@[simp] theorem loadedSyms_true (syms : List Sym) : loadedSyms syms true = syms ++ [256] := rfl
@[simp] theorem loadedSyms_false (syms : List Sym) : loadedSyms syms false = syms := rfl

theorem payload_eq_flatMap (t : Tree) (syms : List Sym) : t.payload syms = (syms ++ [256]).flatMap t.codeOf := by
  simp [Tree.payload]

/-- Since s, the start of its session, u has loaded the symbols syms before EOF and pushed these bits: what `s_sym` took
is loaded or queued, and the codes of what is loaded are pushed or in ENC_SR. -/
structure Encoded (s u : State) (syms : List Sym) (pushed : List Bool) : Prop where
  tree : u.blk.tree = s.blk.tree
  inTree : ∀ d ∈ syms, d ≠ 256 ∧ s.blk.tree.inTree d = true
  taken : u.env.symTaken = s.env.symTaken ++ loadedSyms syms u.blk.enc.final ++ u.blk.q.symIn
  stream : u.bitStream = s.bitStream ++ pushed
  codes : pushed ++ u.blk.enc.sr = (loadedSyms syms u.blk.enc.final).flatMap s.blk.tree.codeOf
  encSym : u.blk.cnt.encSym = BitVec.ofNat 32 syms.length
  encBit : u.blk.cnt.encBit = BitVec.ofNat 32 pushed.length

namespace Encoded
variable {s u v : State} {syms : List Sym} {pushed : List Bool}

theorem congr (h : Encoded s u syms pushed) (hv : SameEncoding u v) : Encoded s v syms pushed where
  tree := hv.tree.trans h.tree
  inTree := h.inTree
  taken := by rw [hv.symTaken, hv.enc, hv.symIn, h.taken]
  stream := hv.bitStream.trans h.stream
  codes := by rw [hv.enc, h.codes]
  encSym := by rw [hv.cnt, h.encSym]
  encBit := by rw [hv.cnt, h.encBit]

theorem take (h : Encoded s u syms pushed) {d : Sym} (hb : u.blk.takeSymIn d = some v.blk)
    (ht : v.env.symTaken = u.env.symTaken ++ [d]) (ho : v.env.bitsOut = u.env.bitsOut) : Encoded s v syms pushed := by
  obtain ⟨_, _, _, hv⟩ := Block.takeSymIn_cases hb
  have hstream : v.bitStream = u.bitStream := bitStream_congr (by rw [hv]) ho
  obtain ⟨b, env⟩ := v
  obtain rfl : b = _ := hv
  exact
    { h with
      taken := ht.trans (by simp [h.taken])
      stream := hstream.trans h.stream }

/-- A load that raises no error takes one more symbol, whose code ENC_SR then holds. -/
theorem load (h : Encoded s u syms pushed) (hb : u.blk.encLoad = some v.blk) (hp : SamePorts u v)
    (hm : v.blk.mode ≠ .error) : ∃ syms', Encoded s v syms' pushed := by
  have hstream := (bitStream_congr (Block.output_of_encLoad hb).1 hp.bitsOut).trans h.stream
  obtain ⟨_, hsr, hf, d, rest, hq, hv⟩ := Block.encLoad_cases hb
  have htaken := h.taken
  have hcodes := h.codes
  simp only [hq, hf, loadedSyms_false] at htaken
  simp only [hsr, hf, loadedSyms_false, List.append_nil] at hcodes
  obtain ⟨b, env⟩ := v
  rcases hv with ⟨_, hv⟩ | ⟨_, hd, hv⟩ | ⟨hin, hd, hv⟩ <;> obtain rfl : b = _ := hv
  · simp at hm
  · obtain rfl := toNat_eq_eof_iff.mp hd
    exact ⟨syms,
      { h with
        taken := hp.symTaken.trans (by simp [htaken])
        stream := hstream
        codes := by simp [hcodes, h.tree] }⟩
  · have hne : d ≠ 256 := fun he => hd (toNat_eq_eof_iff.mpr he)
    rw [h.tree] at hin
    exact ⟨syms ++ [d],
      { h with
        inTree := List.forall_mem_append.mpr ⟨h.inTree, List.forall_mem_singleton.mpr ⟨hne, hin⟩⟩
        taken := hp.symTaken.trans (by simp [hf, htaken])
        stream := hstream
        codes := by simp [hf, hcodes, h.tree]
        encSym := by simp [h.encSym, BitVec.ofNat_add] }⟩

/-- An emit pushes the first bit of ENC_SR. -/
theorem emit (h : Encoded s u syms pushed) (hb : u.blk.encEmit = some v.blk) (hp : SamePorts u v) :
    ∃ x, Encoded s v syms (pushed ++ [x]) := by
  obtain ⟨_, _, x, rest, hsr, hv⟩ := Block.encEmit_cases hb
  have hstream : v.bitStream = u.bitStream ++ [x] := bitStream_of_push (by rw [hv]) hp.bitsOut
  have hcodes := h.codes
  rw [hsr] at hcodes
  obtain ⟨b, env⟩ := v
  obtain rfl : b = _ := hv
  exact ⟨x,
    { h with
      taken := hp.symTaken.trans h.taken
      stream := hstream.trans (by rw [h.stream, List.append_assoc])
      codes := by simp [hcodes]
      encBit := by simp [h.encBit, BitVec.ofNat_add] }⟩

theorem finish (h : Encoded s u syms pushed) (hb : u.blk.encFinish = some v.blk) (hp : SamePorts u v) :
    Encoded s v syms pushed := by
  obtain ⟨_, _, _, hv⟩ := Block.encFinish_cases hb
  exact h.congr ⟨by rw [hv], by rw [hv], by rw [hv], by rw [hv], hp.symTaken, bitStream_congr (by rw [hv]) hp.bitsOut⟩

/-- Every step that stays in the session, or finishes it, keeps the account. -/
theorem step (h : Encoded s u syms pushed) (hmove : EncodeMove u v)
    (hm : v.blk.mode = .encoding ∨ v.blk.mode = .encDone) : ∃ syms' pushed', Encoded s v syms' pushed' := by
  have hne : v.blk.mode ≠ .error := by rcases hm with hm | hm <;> simp [hm]
  cases hmove with
  | kept _ hv => exact ⟨_, _, h.congr hv⟩
  | taken d hb ht ho => exact ⟨_, _, h.take hb ht ho⟩
  | encoder hb hp =>
    rcases Block.encoderStep_cases hb with hb | hb | hb
    · obtain ⟨syms', h'⟩ := h.load hb hp hne
      exact ⟨_, _, h'⟩
    · obtain ⟨x, h'⟩ := h.emit hb hp
      exact ⟨_, _, h'⟩
    · exact ⟨_, _, h.finish hb hp⟩
  | ended he => rcases he with he | ⟨he, _⟩ <;> simp [he] at hm hne

end Encoded

/-- Only a bad symbol at the head of SYMQ_IN raises BAD_SYMBOL, with all that is loaded pushed. -/
theorem EncodeMove.badSymbol {u v : State} (h : EncodeMove u v) (hu : u.blk.mode = .encoding)
    (hm : v.blk.mode = .error) (hc : v.blk.err.code = .badSymbol) :
    u.blk.enc.sr = [] ∧ u.blk.enc.final = false ∧ ∃ d rest, u.blk.q.symIn = d :: rest ∧ u.blk.tree.inTree d = false ∧
      v.blk.err.info = symInfo d ∧ v.env.symTaken = u.env.symTaken ∧ v.bitStream = u.bitStream := by
  cases h with
  | kept hk => simp [hm, hu] at hk
  | taken d hb =>
    obtain ⟨_, _, _, hv⟩ := Block.takeSymIn_cases hb
    simp [hv, hu] at hm
  | encoder hb hp =>
    rcases Block.encoderStep_cases hb with hb | hb | hb
    · have hstream := bitStream_congr (Block.output_of_encLoad hb).1 hp.bitsOut
      obtain ⟨_, hsr, hf, d, rest, hq, ⟨ht, hv⟩ | ⟨_, _, hv⟩ | ⟨_, _, hv⟩⟩ := Block.encLoad_cases hb
      · exact ⟨hsr, hf, d, rest, hq, ht, by rw [hv]; rfl, hp.symTaken, hstream⟩
      · simp [hv, hu] at hm
      · simp [hv, hu] at hm
    · obtain ⟨_, _, x, rest, _, hv⟩ := Block.encEmit_cases hb
      simp [hv, hu] at hm
    · obtain ⟨_, _, _, hv⟩ := Block.encFinish_cases hb
      simp [hv] at hm
  | ended he =>
    rcases he with he | ⟨_, he⟩
    · simp [hm] at he
    · exact absurd hc he

/-! ### The whole session (R103) -/

/-- What holds of every state u of the session that starts in s. -/
def EncodeInv (s u : State) : Prop := u.blk.EofLast ∧ ∃ syms pushed, Encoded s u syms pushed

theorem encodeInv_startEncode (r : State) :
    EncodeInv (r.withBlk r.blk.startEncode) (r.withBlk r.blk.startEncode) :=
  ⟨Block.eofLast_of_encoding rfl (by simp) (by simp) (by simp), [], [],
    { tree := rfl
      inTree := nofun
      taken := by simp
      stream := by simp
      codes := by simp
      encSym := rfl
      encBit := rfl }⟩

theorem EncodeInv.step {s u v : State} (h : EncodeInv s u) (hu : u.blk.mode = .encoding) (hstep : step u = .next v)
    (hv : v.blk.mode = .encoding ∨ v.blk.mode = .encDone) : EncodeInv s v := by
  obtain ⟨hlast, syms, pushed, he⟩ := h
  exact ⟨(step_blockChange hstep).eofLast hlast, he.step (step_encodeMove hu hstep) hv⟩

/-- Settles O47: every step of the session keeps the account of what is loaded and pushed, and at either end ENC_SR is
empty, at ENC_DONE the queue too. -/
theorem encodeSessionPushesThePayload : Obligations.EncodeSessionPushesThePayload := by
  unfold Obligations.EncodeSessionPushesThePayload
  intro r s t k hr hs hrun
  rw [exec_of_permitted (i := .encStart) rfl (by simp [hr]) (by simp [hr, startModes])] at hs
  cases hs
  rcases StaysIn.last_step (fun u v hinv hu hstep hv => EncodeInv.step hinv hu hstep (.inl hv))
    (fun _ => encodeInv_startEncode r) hrun with rfl | ⟨u, hinv, hu, hstep⟩
  · exact ⟨nofun, nofun⟩
  refine ⟨fun hdone => ?done, fun herr hcode => ?bad⟩
  case done =>
    obtain ⟨hlast, syms, pushed, he⟩ := hinv.step hu hstep (.inr hdone)
    obtain ⟨henc, hq⟩ := hlast.2 hdone
    have hcodes := he.codes
    have htaken := he.taken
    simp only [henc, loadedSyms_true, List.append_nil, ← payload_eq_flatMap] at hcodes
    simp only [henc, hq, loadedSyms_true, List.append_nil, ← List.append_assoc] at htaken
    subst hcodes
    exact ⟨syms, he.inTree, htaken, he.stream, he.encSym, he.encBit⟩
  case bad =>
    obtain ⟨_, syms, pushed, he⟩ := hinv
    obtain ⟨hsr, hf, d, rest, hq, ht, hinfo, hsym, hstream⟩ := (step_encodeMove hu hstep).badSymbol hu herr hcode
    have hcodes := he.codes
    have htaken := he.taken
    simp only [hsr, hf, loadedSyms_false, List.append_nil] at hcodes
    simp only [hf, hq, loadedSyms_false] at htaken
    subst hcodes
    rw [he.tree] at ht
    exact ⟨syms, d, rest, he.inTree, ht, hinfo, hsym.trans htaken, hstream.trans he.stream⟩

end Sys2Proof.Machine
end

section
/-! DEC_START, the bit port and the end signal, and the decoder's steps (44_decoder.md R104 to R110). -/

namespace Sys2Proof.Machine

/-! ### DEC_START (R104) -/

/-- Settles O25: DEC_START is permitted in READY alone and ignored in ERROR. -/
theorem decStartBeginsASession : Obligations.DecStartBeginsASession := by
  unfold Obligations.DecStartBeginsASession
  refine fun s => ⟨fun hm => ?started, fun hready herr => ?rejected, fun hm => exec_of_error hm (by decide)⟩
  case started => exact exec_of_permitted (i := .decStart) rfl (by simp [hm]) (by simp [hm, startModes])
  case rejected => exact exec_of_not_permitted (i := .decStart) rfl herr (by simpa [startModes] using hready)

/-! ### The bit port and the end signal (R105, R106) -/

theorem Block.bitReady_iff {b : Block} :
    b.bitReady = true ↔ b.mode = .decoding ∧ b.dec.inEnd = false ∧ b.q.bitIn.length < b.depths.bitIn.cap := by
  simp [Block.bitReady, and_assoc]

theorem Block.takeBitIn_of_ready {b : Block} (x : Bool) (h : b.bitReady = true) :
    b.takeBitIn x = some { b with q := { b.q with bitIn := b.q.bitIn ++ [x] } } := if_pos h

theorem Block.takeBitIn_of_not_ready {b : Block} (x : Bool) (h : ¬ b.bitReady = true) : b.takeBitIn x = none := if_neg h

section
variable {s : State} {ts : List Turn}

theorem step_latchEnd {b : Block} (hts : s.env.turns = .latchEnd :: ts) (hb : s.blk.latchEnd s.env.bitEnd = some b) :
    step s = .next ((s.withTurns ts).withBlk b) := by
  simp [step_of_turn hts, takeTurn, turn, agentTurn, latchTurn, hb]

theorem step_latchEnd_of_none (hts : s.env.turns = .latchEnd :: ts) (hb : s.blk.latchEnd s.env.bitEnd = none) :
    step s = .next (s.withTurns ts) := by
  simp [step_of_turn hts, takeTurn, turn, agentTurn, latchTurn, hb]

end

/-- Settles O48: the port takes a bit exactly when it is ready, and the latch has exactly the guard of R106. -/
theorem bitPortAndEndSignal : Obligations.BitPortAndEndSignal := by
  unfold Obligations.BitPortAndEndSignal
  refine fun s ts => ⟨fun x hts => ⟨fun h => ?taken, fun h => ?refused⟩, fun level hts => ?driven,
    fun hts => ⟨fun h => step_latchEnd hts (if_pos h), fun h => step_latchEnd_of_none hts (if_neg h)⟩⟩
  case taken =>
    have hb := s.blk.takeBitIn_of_ready x (Block.bitReady_iff.mpr h)
    simp [step_of_turn hts, takeTurn, turn, agentTurn, bitSrcTurn, hb, State.withTurns]
  case refused =>
    have hb := s.blk.takeBitIn_of_not_ready x (mt Block.bitReady_iff.mp h)
    simp [step_of_turn hts, takeTurn, turn, agentTurn, bitSrcTurn, hb]
  case driven => exact step_of_turn hts

/-! ### The four steps of the decoder (R107 to R110) -/

theorem symByte_eq_setWidth (d : Sym) : symByte d = d.setWidth 8 := BitVec.setWidth_eq_extractLsb' (by decide) |>.symm

section
variable {b : Block} {zero one : NodeIdx} {w : Word} {d : Sym}

/-- At an internal node the decoder descends or is truncated, and neither emits nor finishes. -/
theorem Block.leaf_steps_of_internal (hn : b.decAt = some (.internal zero one w)) :
    b.decEmit = none ∧ b.decFinish = none := by
  simp [Block.decEmit, Block.decFinish, hn]

/-- At a leaf the decoder emits or finishes, and neither descends nor is truncated. -/
theorem Block.internal_steps_of_leaf (hn : b.decAt = some (.leaf d w)) :
    b.decDescend = none ∧ b.decTruncate = none := by
  simp [Block.decDescend, Block.decTruncate, hn]

theorem Block.no_step_of_decAt_eq_none (hn : b.decAt = none) :
    b.decDescend = none ∧ b.decEmit = none ∧ b.decFinish = none ∧ b.decTruncate = none := by
  simp [Block.decDescend, Block.decEmit, Block.decFinish, Block.decTruncate, hn]

theorem Block.decoderStep_of_bit (hn : b.decAt = some (.internal zero one w)) {x : Bool} {rest : List Bool}
    (hq : b.q.bitIn = x :: rest) :
    b.decoderStep = some { b with
      q := { b.q with bitIn := rest }, dec := { b.dec with node := if x then one else zero }
      cnt := { b.cnt with decBit := b.cnt.decBit + 1 } } := by
  simp [Block.decoderStep, Block.decDescend, hn, hq]

theorem Block.decoderStep_of_no_bit (hn : b.decAt = some (.internal zero one w)) (hq : b.q.bitIn = []) :
    b.decoderStep = if b.dec.inEnd = true then some (b.raise .truncated (nodeInfo16 b.dec.node)) else none := by
  simp [Block.decoderStep, Block.leaf_steps_of_internal hn, Block.decDescend, Block.decTruncate, hn, hq]

theorem Block.decoderStep_of_byte (hn : b.decAt = some (.leaf d w)) (hd : d ≠ 256) :
    b.decoderStep =
      if b.q.symOut.length < b.depths.symOut.cap then
        some { b with
          q := { b.q with symOut := b.q.symOut ++ [d.setWidth 8] }, dec := { b.dec with node := b.tree.root }
          cnt := { b.cnt with decSym := b.cnt.decSym + 1 } }
      else none := by
  have hne : d.toNat ≠ EOF := mt toNat_eq_eof_iff.mp hd
  simp [Block.decoderStep, Block.internal_steps_of_leaf hn, Block.decEmit, Block.decFinish, hn, hne, qPush,
    symByte_eq_setWidth]

theorem Block.decoderStep_of_eof (hn : b.decAt = some (.leaf 256 w)) :
    b.decoderStep = some { b with mode := .decDone, irqStatus := setIrq b.irqStatus .decDone } := by
  simp [Block.decoderStep, Block.internal_steps_of_leaf hn, Block.decEmit, Block.decFinish, hn]

end

section
variable {s : State} {ts : List Turn}

/-- The step of the decoder's turn is its enabled step. -/
theorem step_decoder {b : Block} (hts : s.env.turns = .decoder :: ts) (hb : s.blk.decoderStep = some b) :
    step s = .next ((s.withTurns ts).withBlk b) := by
  simp [step_of_turn hts, takeTurn, turn, agentTurn, hb]

theorem step_decoder_of_none (hts : s.env.turns = .decoder :: ts) (hb : s.blk.decoderStep = none) :
    step s = .next (s.withTurns ts) := by
  simp [step_of_turn hts, takeTurn, turn, agentTurn, hb]

end

/-- Settles O49: at an internal node a bit in the queue enables the descend step; at a byte's leaf the emit step is
enabled exactly with room. -/
theorem decoderDescendsAndEmits : Obligations.DecoderDescendsAndEmits := by
  unfold Obligations.DecoderDescendsAndEmits
  refine fun s ts hts hm => ⟨fun zero one w x rest hn hq => ?descends, fun d w hn hd => ⟨fun hroom => ?emits,
    fun hfull => ?held⟩⟩ <;> have hn := Block.decAt_eq_some.mpr ⟨hm, hn⟩
  case descends => exact step_decoder hts (Block.decoderStep_of_bit hn hq)
  case emits => exact step_decoder hts ((Block.decoderStep_of_byte hn hd).trans (if_pos hroom))
  case held => exact step_decoder_of_none hts ((Block.decoderStep_of_byte hn hd).trans (if_neg (Nat.not_lt.mpr hfull)))

/-- Settles O50: at the EOF leaf the finish step is enabled; at an internal node without a bit the truncation step is
enabled exactly once the end is latched. -/
theorem decoderFinishesOrIsTruncated : Obligations.DecoderFinishesOrIsTruncated := by
  unfold Obligations.DecoderFinishesOrIsTruncated
  refine fun s ts hts hm => ⟨fun w hn => ?finishes, fun zero one w hn hq => ⟨fun hend => ?truncated,
    fun hend => ?waits⟩⟩ <;> have hn := Block.decAt_eq_some.mpr ⟨hm, hn⟩
  case finishes => exact step_decoder hts (Block.decoderStep_of_eof hn)
  case truncated => exact step_decoder hts ((Block.decoderStep_of_no_bit hn hq).trans (if_pos hend))
  case waits => exact step_decoder_of_none hts ((Block.decoderStep_of_no_bit hn hq).trans (if_neg (by simp [hend])))

/-! ### When the decoder is held -/

/-- Every index of the tree has its slot. -/
theorem Tree.IsOf.exists_node {t : Tree} {f : Vector Word 256} {i : Nat} (ht : t.IsOf f) (hi : t.inArena i = true) :
    ∃ n, t.node[i]? = some n := by
  have hn := leafSyms_length_le f
  rw [Tree.inArena_iff, ht.nleaf_toNat] at hi
  have hlt : i < NODE_MAX := by simp only [NSYM, NODE_MAX] at *; omega
  exact ⟨_, Vector.getElem?_eq_getElem hlt⟩

/-- While it runs the decoder stands at some node. -/
theorem Block.Inv.decAt_eq_none_iff {b : Block} (h : b.Inv) : b.decAt = none ↔ b.mode ≠ .decoding := by
  constructor
  · intro hnone hm
    obtain ⟨n, hn⟩ := (h.isOf (by rw [hm]; rfl)).exists_node (h.decoderInTree.1 (.inl hm))
    rw [Block.decAt_eq_some.mpr ⟨hm, hn⟩] at hnone
    cases hnone
  · exact fun hm => if_neg hm

/-- The decoder is held when it stands nowhere, when it waits for a bit, and when it waits for room for a byte. -/
theorem Block.decoderStep_eq_none_iff {b : Block} : b.decoderStep = none ↔
    b.decAt = none ∨
      ((∃ zero one w, b.decAt = some (.internal zero one w)) ∧ b.q.bitIn = [] ∧ b.dec.inEnd = false) ∨
      ((∃ d w, b.decAt = some (.leaf d w) ∧ d ≠ 256) ∧ b.depths.symOut.cap ≤ b.q.symOut.length) := by
  cases hn : b.decAt with
  | none => simp [Block.decoderStep, Block.no_step_of_decAt_eq_none hn]
  | some n =>
    cases n with
    | leaf d w =>
      by_cases hd : d = 256
      · subst hd
        simp [Block.decoderStep_of_eof hn]
      · simpa [Block.decoderStep_of_byte hn hd] using fun _ => hd
    | internal zero one w =>
      cases hq : b.q.bitIn with
      | nil => simp [Block.decoderStep_of_no_bit hn hq]
      | cons x rest => simp [Block.decoderStep_of_bit hn hq]

/-- No two steps are enabled: the node's kind leaves two, of which BITQ_IN or the leaf's symbol rules one out. -/
theorem Block.decoder_steps_exclusive (b : Block) :
    ¬ (b.decDescend.isSome = true ∧ b.decEmit.isSome = true) ∧
      ¬ (b.decDescend.isSome = true ∧ b.decFinish.isSome = true) ∧
      ¬ (b.decDescend.isSome = true ∧ b.decTruncate.isSome = true) ∧
      ¬ (b.decEmit.isSome = true ∧ b.decFinish.isSome = true) ∧
      ¬ (b.decEmit.isSome = true ∧ b.decTruncate.isSome = true) ∧
      ¬ (b.decFinish.isSome = true ∧ b.decTruncate.isSome = true) := by
  cases hn : b.decAt with
  | none => simp [Block.no_step_of_decAt_eq_none hn]
  | some n =>
    cases n with
    | leaf d w =>
      by_cases hd : d.toNat = EOF <;> simp [Block.internal_steps_of_leaf hn, Block.decEmit, Block.decFinish, hn, hd]
    | internal zero one w =>
      cases hq : b.q.bitIn <;>
        simp [Block.leaf_steps_of_internal hn, Block.decDescend, Block.decTruncate, hn, hq]

/-- Settles O51: in a state that meets the invariants the decoder stands nowhere only outside DECODING. -/
theorem decoderIsHeldOnlyByItsQueues : Obligations.DecoderIsHeldOnlyByItsQueues := by
  unfold Obligations.DecoderIsHeldOnlyByItsQueues
  refine ⟨fun b hinv => ?held, Block.decoder_steps_exclusive⟩
  rw [Block.decoderStep_eq_none_iff, hinv.decAt_eq_none_iff]
  by_cases hm : b.mode = .decoding
  · simp [Block.decAt, hm]
  · simp [hm]

end Sys2Proof.Machine
end

section
/-! Paths in the tree of a block: they are the codes of the leaves they lead to, and no code begins another's
(42_tree_build.md R93, R94, 44_decoder.md R107). -/

namespace Sys2Proof.Machine

/-! ### Paths (44_decoder.md R107) -/

section
variable {t : Tree}

theorem Tree.follow_append (i : NodeIdx) (p p' : List Bool) :
    t.follow i (p ++ p') = (t.follow i p).bind fun j => t.follow j p' := by
  induction p generalizing i with
  | nil => rfl
  | cons x p ih =>
    simp only [List.cons_append, Tree.follow]
    split
    · exact ih _
    · rfl

/-- A path to an internal node goes on with one more bit. -/
theorem Tree.follow_concat {i j zero one : NodeIdx} {p : List Bool} {w : Word} (hp : t.follow i p = some j)
    (hn : t.nodeAt j = some (.internal zero one w)) (x : Bool) :
    t.follow i (p ++ [x]) = some (if x then one else zero) := by
  simp [Tree.follow_append, hp, Tree.follow, hn]

end

namespace Tree.IsOf
variable {t : Tree} {f : Vector Word 256} {s d : Sym} {p : Code}

/-! ### The symbols and the codes of the block's tree (10_state.md R37, R38, 42_tree_build.md R93) -/

/-- The symbols of a valid tree are the present ones. -/
theorem inTree_iff (ht : t.IsOf f) (hv : t.valid = true) : t.inTree s = true ↔ s.toNat ∈ leafSyms f := by
  have hleaf : ∀ i, i < t.nleaf.toNat → t.node[i]? = (leafNodes f)[i]? := fun i hi => by
    rw [ht.node_eq_nodes (ht.leaf_inArena hi)]
    exact getElem?_of_prefix (leafNodes_prefix_nodes f) (by rwa [leafNodes_length, ← ht.nleaf_toNat])
  simp only [Tree.inTree, hv, Bool.true_and, List.any_eq_true, List.mem_range, decide_eq_true_eq,
    Option.bind_eq_bind, Option.bind_eq_some_iff]
  constructor
  · rintro ⟨i, hi, n, hn, hsym⟩
    rw [hleaf i hi] at hn
    obtain ⟨k, hk, rfl, hk'⟩ := leafNodes_getElem?_eq_some hn
    cases hsym
    rw [hk']
    exact List.mem_of_getElem? hk
  · intro hs
    obtain ⟨i, hi⟩ := List.mem_iff_getElem?.mp hs
    have hlt : i < t.nleaf.toNat := ht.nleaf_toNat ▸ (List.getElem?_eq_some_iff.mp hi).1
    refine ⟨i, hlt, .leaf s (freqAt f s.toNat), ?_, rfl⟩
    rw [hleaf i hlt, leafNodes_getElem?, hi, Option.map_some, BitVec.ofNat_toNat, BitVec.setWidth_eq]

/-- A symbol of the tree other than EOF is a byte. -/
theorem lt_of_inTree (ht : t.IsOf f) (hv : t.valid = true) (hs : t.inTree s = true) (hne : s.toNat ≠ EOF) :
    s.toNat < 256 := by
  obtain ⟨hlt, _⟩ := mem_leafSyms.mp ((ht.inTree_iff hv).mp hs)
  simp only [NSYM, EOF] at hlt hne
  omega

theorem inTree_eof (ht : t.IsOf f) (hv : t.valid = true) : t.inTree 256 = true :=
  (ht.inTree_iff hv).mpr (eof_mem_leafSyms f)

/-- The code table holds every code the walk gives. -/
theorem codeOf_of_mem (ht : t.IsOf f) (h : (s, p) ∈ (buildTree f).codes) : t.codeOf s = p := by
  obtain ⟨hW, _, _, _, hcode⟩ := ht
  have hperm := buildTree_symbols_perm hW
  have hnodup := hperm.nodup_iff.mpr (leafSyms_pairwise_lt f).nodup
  obtain ⟨hlt, _⟩ := mem_leafSyms.mp (hperm.mem_iff.mp (List.mem_map_of_mem h))
  simp [Tree.codeOf, hcode, writeCodes_mem _ hnodup _ s p h hlt]

/-- The codes of a build are those the block holds for the symbols of its tree. -/
theorem mem_codes_iff (ht : t.IsOf f) (hv : t.valid = true) :
    (s, p) ∈ (buildTree f).codes ↔ t.inTree s = true ∧ t.codeOf s = p := by
  have hperm := buildTree_symbols_perm ht.1
  rw [ht.inTree_iff hv, ← hperm.mem_iff]
  refine ⟨fun h => ⟨List.mem_map_of_mem h, ht.codeOf_of_mem h⟩, ?_⟩
  rintro ⟨hs, rfl⟩
  obtain ⟨⟨s', p⟩, hc, hs'⟩ := List.mem_map.mp hs
  obtain rfl : s' = s := BitVec.eq_of_toNat_eq hs'
  rwa [ht.codeOf_of_mem hc]

/-! ### Where a path leads -/

/-- A path stays in the tree, and the codes below its end, with the path before them, are codes below its start. -/
theorem follow_codes (ht : t.IsOf f) {i j : NodeIdx} (hi : t.inArena i.toNat = true) (hp : t.follow i p = some j) :
    t.inArena j.toNat = true ∧
      ∀ c ∈ codesAt (buildTree f).nodes j.toNat, (c.1, p ++ c.2) ∈ codesAt (buildTree f).nodes i.toNat := by
  induction p generalizing i with
  | nil =>
    cases hp
    exact ⟨hi, fun c hc => hc⟩
  | cons x p ih =>
    simp only [Tree.follow] at hp
    split at hp
    next zero one w hn =>
      obtain ⟨hzero, hone⟩ := ht.child_inArena hi hn
      have hchild := ih (by cases x; exacts [hzero, hone]) hp
      refine ⟨hchild.1, fun c hc => ?_⟩
      have hmem := hchild.2 c hc
      have hn' := (ht.node_eq_nodes hi).symm.trans hn
      rw [codesAt_of_internal (arenaInv_buildTree ht.1).merges hn', List.mem_append]
      cases x
      · exact .inl (List.mem_map_of_mem hmem)
      · exact .inr (List.mem_map_of_mem hmem)
    next => cases hp

/-- With the path from the root before it, a code below a node is the code of a symbol of the tree. -/
theorem codeOf_of_follow (ht : t.IsOf f) (hv : t.valid = true) {j : NodeIdx} (hp : t.follow t.root p = some j)
    {c : Sym × Code} (hc : c ∈ codesAt (buildTree f).nodes j.toNat) :
    t.inTree c.1 = true ∧ t.codeOf c.1 = p ++ c.2 := by
  have hmem := (ht.follow_codes ht.root_inArena hp).2 c hc
  obtain ⟨hW, _, hroot, _⟩ := id ht
  rw [hroot, ← buildTree_codes hW] at hmem
  exact (ht.mem_codes_iff hv).mp hmem

/-- The path from the root to a leaf is the code of its symbol. -/
theorem codeOf_of_leaf (ht : t.IsOf f) (hv : t.valid = true) {j : NodeIdx} {w : Word}
    (hp : t.follow t.root p = some j) (hn : t.nodeAt j = some (.leaf s w)) : t.inTree s = true ∧ t.codeOf s = p := by
  have hn' := (ht.node_eq_nodes (ht.follow_codes ht.root_inArena hp).1).symm.trans hn
  simpa using ht.codeOf_of_follow hv hp (c := (s, [])) (by rw [codesAt_of_leaf hn']; exact List.mem_singleton_self _)

/-- The path from the root to an internal node is the proper beginning of some code: of a leaf on its zero-branch. -/
theorem exists_code_of_internal (ht : t.IsOf f) (hv : t.valid = true) {j zero one : NodeIdx} {w : Word}
    (hp : t.follow t.root p = some j) (hn : t.nodeAt j = some (.internal zero one w)) :
    ∃ s, t.inTree s = true ∧ p <+: t.codeOf s ∧ p ≠ t.codeOf s := by
  have hn' := (ht.node_eq_nodes (ht.follow_codes ht.root_inArena hp).1).symm.trans hn
  have harena := arenaInv_buildTree ht.1
  have hlt : zero.toNat < (buildTree f).nodes.length :=
    (harena.merges.child_lt hn').1.trans (List.getElem?_eq_some_iff.mp hn').1
  obtain ⟨c, hc⟩ := List.exists_mem_of_ne_nil _ (treeCodes_codesAt harena.merges hlt).ne_nil
  have hmem : consBit false c ∈ codesAt (buildTree f).nodes j.toNat := by
    rw [codesAt_of_internal harena.merges hn']
    exact List.mem_append_left _ (List.mem_map_of_mem hc)
  obtain ⟨hin, hcode⟩ := ht.codeOf_of_follow hv hp hmem
  rw [consBit_fst] at hin hcode
  exact ⟨c.1, hin, by simp [hcode], by simp [hcode]⟩

/-! ### Sequences of codes (42_tree_build.md R94) -/

/-- No code begins another's. -/
theorem eq_of_codeOf_prefix (ht : t.IsOf f) (hv : t.valid = true) (hs : t.inTree s = true) (hd : t.inTree d = true)
    (hp : t.codeOf s <+: t.codeOf d) : s = d :=
  congrArg Prod.fst ((treeCodes_buildTree ht.1).eq_of_prefix ((ht.mem_codes_iff hv).mpr ⟨hs, rfl⟩)
    ((ht.mem_codes_iff hv).mpr ⟨hd, rfl⟩) hp)

/-- Bits that begin with the codes of two sequences of symbols are read one way: one sequence begins the other. -/
theorem prefix_or_prefix_of_codes (ht : t.IsOf f) (hv : t.valid = true) {xs ys : List Sym} {bits : List Bool}
    (hxs : ∀ s ∈ xs, t.inTree s = true) (hys : ∀ s ∈ ys, t.inTree s = true)
    (hx : xs.flatMap t.codeOf <+: bits) (hy : ys.flatMap t.codeOf <+: bits) : xs <+: ys ∨ ys <+: xs := by
  induction xs generalizing ys bits with
  | nil => exact .inl List.nil_prefix
  | cons x xs ih =>
    cases ys with
    | nil => exact .inr List.nil_prefix
    | cons y ys =>
      rw [List.forall_mem_cons] at hxs hys
      rw [List.flatMap_cons] at hx hy
      obtain rfl : x = y := by
        rcases List.prefix_or_prefix_of_prefix ((List.prefix_append _ _).trans hx)
          ((List.prefix_append _ _).trans hy) with h | h
        · exact ht.eq_of_codeOf_prefix hv hxs.1 hys.1 h
        · exact (ht.eq_of_codeOf_prefix hv hys.1 hxs.1 h).symm
      obtain ⟨rest, rfl⟩ := hx
      rw [List.append_assoc, List.prefix_append_right_inj] at hy
      simpa using ih hxs.2 hys.2 (List.prefix_append _ rest) hy

end Tree.IsOf

end Sys2Proof.Machine
end

section
/-! Decode sessions: what a step in DECODING can do, and what a session has consumed and pushed (44_decoder.md R105 to
R112). -/

namespace Sys2Proof.Machine

/-! ### What a step in DECODING can do -/

/-- What a decode session works on, and what has passed its ports, are the same. -/
structure SameDecoding (u v : State) : Prop where
  tree : v.blk.tree = u.blk.tree
  node : v.blk.dec.node = u.blk.dec.node
  cnt : v.blk.cnt = u.blk.cnt
  bitIn : v.blk.q.bitIn = u.blk.q.bitIn
  bitsTaken : v.env.bitsTaken = u.env.bitsTaken
  symStream : v.symStream = u.symStream

/-- What one step from DECODING can do to the session: `s_bit` takes a bit, the decoder steps, the host or reset ends
the session, or the session goes on as it is. -/
inductive DecodeMove (u v : State) : Prop where
  | kept (hm : v.blk.mode = u.blk.mode) (hv : SameDecoding u v)
  | taken (x : Bool) (hb : u.blk.takeBitIn x = some v.blk) (ht : v.env.bitsTaken = u.env.bitsTaken ++ [x])
      (ho : v.env.symsOut = u.env.symsOut)
  | decoder (hb : u.blk.decoderStep = some v.blk) (hp : SamePorts u v)
  | ended (hm : v.blk.mode = .idle ∨ v.blk.mode = .error ∧ v.blk.err.code ≠ .truncated)

theorem decodeMove_of_writeEffect {r : Reg} {w : Word} {u v : State} (hm : u.blk.mode = .decoding)
    (hw : WriteEffect r w u.blk v.blk) (hp : SamePorts u v) : DecodeMove u v := by
  rcases hw.of_engineRuns (.inr (.inr hm)) with hs | hv | ⟨c, i, hc, hv⟩
  · exact .kept hs.mode ⟨hs.tree, by rw [hs.dec], hs.cnt, by rw [hs.q], hp.bitsTaken,
      symStream_congr (by rw [hs.q]) hp.symsOut⟩
  · exact .ended (.inl (by rw [hv]; rfl))
  · exact .ended (.inr ⟨by rw [hv]; rfl, by rcases hc with rfl | rfl <;> simp [hv]⟩)

theorem step_decodeMove {u v : State} (hm : u.blk.mode = .decoding) (h : step u = .next v) : DecodeMove u v := by
  cases step_moved h with
  | stay hb hp =>
    exact .kept (by rw [hb]) ⟨by rw [hb], by rw [hb], by rw [hb], by rw [hb], hp.bitsTaken,
      symStream_congr (by rw [hb]) hp.symsOut⟩
  | write r _ _ hb hp => exact decodeMove_of_writeEffect hm hb hp
  | builder hb => simp [(Block.builderStep_cases hb).1] at hm
  | encoder hb => simp [Block.mode_of_encoderStep hb] at hm
  | decoder hb hp => exact .decoder hb hp
  | latch hb hp =>
    obtain ⟨_, _, _, hv⟩ := Block.latchEnd_cases hb
    exact .kept (by rw [hv]) ⟨by rw [hv], by rw [hv], by rw [hv], by rw [hv], hp.bitsTaken,
      symStream_congr (by rw [hv]) hp.symsOut⟩
  | symSrc d hb =>
    obtain ⟨he, _⟩ := Block.takeSymIn_cases hb
    simp [he] at hm
  | bitSnk x hb _ _ ht ho =>
    obtain ⟨rest, _, hv⟩ := Block.giveBitOut_cases hb
    exact .kept (by rw [hv]) ⟨by rw [hv], by rw [hv], by rw [hv], by rw [hv], ht, symStream_congr (by rw [hv]) ho⟩
  | bitSrc x hb _ _ ht ho => exact .taken x hb ht ho
  | symSnk y hb _ _ ht ho =>
    have hs := symStream_of_giveSymOut hb ho
    obtain ⟨rest, _, hv⟩ := Block.giveSymOut_cases hb
    exact .kept (by rw [hv]) ⟨by rw [hv], by rw [hv], by rw [hv], by rw [hv], ht, hs⟩
  | reset _ hb => exact .ended (.inl (by rw [hb]; rfl))

/-! ### What a session has consumed and pushed -/

/-- Since s, the start of its session, u has pushed the bytes of the symbols syms and then gone down a path from the
root: what `s_bit` took is the codes of these symbols, the path, and what is queued. -/
structure Decoded (s u : State) (syms : List Sym) (path : List Bool) : Prop where
  tree : u.blk.tree = s.blk.tree
  inTree : ∀ d ∈ syms, d.toNat < 256 ∧ s.blk.tree.inTree d = true
  taken : u.env.bitsTaken = s.env.bitsTaken ++ syms.flatMap s.blk.tree.codeOf ++ path ++ u.blk.q.bitIn
  place : s.blk.tree.follow s.blk.tree.root path = some u.blk.dec.node
  stream : u.symStream = s.symStream ++ syms.map symByte
  decSym : u.blk.cnt.decSym = BitVec.ofNat 32 syms.length
  decBit : u.blk.cnt.decBit = BitVec.ofNat 32 (syms.flatMap s.blk.tree.codeOf ++ path).length

namespace Decoded
variable {s u v : State} {f : Vector Word 256} {syms : List Sym} {path : List Bool}

theorem congr (h : Decoded s u syms path) (hv : SameDecoding u v) : Decoded s v syms path where
  tree := hv.tree.trans h.tree
  inTree := h.inTree
  taken := by rw [hv.bitsTaken, hv.bitIn, h.taken]
  place := by rw [hv.node, h.place]
  stream := hv.symStream.trans h.stream
  decSym := by rw [hv.cnt, h.decSym]
  decBit := by rw [hv.cnt, h.decBit]

theorem take (h : Decoded s u syms path) {x : Bool} (hb : u.blk.takeBitIn x = some v.blk)
    (ht : v.env.bitsTaken = u.env.bitsTaken ++ [x]) (ho : v.env.symsOut = u.env.symsOut) : Decoded s v syms path := by
  obtain ⟨_, _, _, hv⟩ := Block.takeBitIn_cases hb
  have hstream : v.symStream = u.symStream := symStream_congr (by rw [hv]) ho
  obtain ⟨b, env⟩ := v
  obtain rfl : b = _ := hv
  exact
    { h with
      taken := ht.trans (by simp [h.taken])
      stream := hstream.trans h.stream }

/-- A descend step makes the path one bit longer. -/
theorem descend (h : Decoded s u syms path) (hb : u.blk.decDescend = some v.blk) (hp : SamePorts u v) :
    ∃ x, Decoded s v syms (path ++ [x]) := by
  obtain ⟨zero, one, w, x, rest, hn, hq, hv⟩ := Block.decDescend_cases hb
  obtain ⟨_, hn⟩ := Block.decAt_eq_some.mp hn
  rw [h.tree] at hn
  have hstream : v.symStream = u.symStream := symStream_congr (by rw [hv]) hp.symsOut
  have htaken := h.taken
  rw [hq] at htaken
  obtain ⟨b, env⟩ := v
  obtain rfl : b = _ := hv
  exact ⟨x,
    { h with
      taken := hp.bitsTaken.trans (by simp [htaken])
      place := Tree.follow_concat h.place hn x
      stream := hstream.trans h.stream
      decBit := by rw [← List.append_assoc, List.length_append, BitVec.ofNat_add, ← h.decBit]; rfl }⟩

/-- At an emit step the path is the code of the symbol whose byte is pushed, and the next path begins. -/
theorem emit (ht : s.blk.tree.IsOf f) (htv : s.blk.tree.valid = true) (h : Decoded s u syms path)
    (hb : u.blk.decEmit = some v.blk) (hp : SamePorts u v) : ∃ d, Decoded s v (syms ++ [d]) [] := by
  obtain ⟨d, w, hn, hd, _, hv⟩ := Block.decEmit_cases hb
  obtain ⟨_, hn⟩ := Block.decAt_eq_some.mp hn
  rw [h.tree] at hn
  obtain ⟨hin, hcode⟩ := ht.codeOf_of_leaf htv h.place hn
  have hlt := ht.lt_of_inTree htv hin hd
  have hstream : v.symStream = u.symStream ++ [symByte d] := symStream_of_push (by rw [hv]) hp.symsOut
  obtain ⟨b, env⟩ := v
  obtain rfl : b = _ := hv
  exact ⟨d,
    { h with
      inTree := List.forall_mem_append.mpr ⟨h.inTree, List.forall_mem_singleton.mpr ⟨hlt, hin⟩⟩
      taken := hp.bitsTaken.trans (by simp [h.taken, hcode])
      place := by rw [← h.tree]; rfl
      stream := hstream.trans (by simp [h.stream])
      decSym := by simp [h.decSym, BitVec.ofNat_add]
      decBit := by simp [h.decBit, hcode] }⟩

theorem finish (h : Decoded s u syms path) (hb : u.blk.decFinish = some v.blk) (hp : SamePorts u v) :
    Decoded s v syms path := by
  obtain ⟨_, _, _, _, hv⟩ := Block.decFinish_cases hb
  exact h.congr ⟨by rw [hv], by rw [hv], by rw [hv], by rw [hv], hp.bitsTaken, symStream_congr (by rw [hv]) hp.symsOut⟩

theorem truncate (h : Decoded s u syms path) (hb : u.blk.decTruncate = some v.blk) (hp : SamePorts u v) :
    Decoded s v syms path := by
  obtain ⟨_, _, _, _, _, _, hv⟩ := Block.decTruncate_cases hb
  exact h.congr ⟨by rw [hv]; rfl, by rw [hv]; rfl, by rw [hv]; rfl, by rw [hv]; rfl, hp.bitsTaken,
    symStream_congr (by rw [hv]; rfl) hp.symsOut⟩

/-- Every step that the host and reset do not end the session with keeps the account. -/
theorem step (ht : s.blk.tree.IsOf f) (htv : s.blk.tree.valid = true) (h : Decoded s u syms path)
    (hmove : DecodeMove u v) (hm : ¬ (v.blk.mode = .idle ∨ v.blk.mode = .error ∧ v.blk.err.code ≠ .truncated)) :
    ∃ syms' path', Decoded s v syms' path' := by
  cases hmove with
  | kept _ hv => exact ⟨_, _, h.congr hv⟩
  | taken x hb hx ho => exact ⟨_, _, h.take hb hx ho⟩
  | decoder hb hp =>
    rcases Block.decoderStep_cases hb with hb | hb | hb | hb
    · obtain ⟨x, h'⟩ := h.descend hb hp
      exact ⟨_, _, h'⟩
    · obtain ⟨d, h'⟩ := h.emit ht htv hb hp
      exact ⟨_, _, h'⟩
    · exact ⟨_, _, h.finish hb hp⟩
    · exact ⟨_, _, h.truncate hb hp⟩
  | ended he => exact absurd he hm

theorem of_startDecode (r : State) :
    Decoded (r.withBlk r.blk.startDecode) (r.withBlk r.blk.startDecode) [] [] where
  tree := rfl
  inTree := nofun
  taken := by simp
  place := rfl
  stream := by simp
  decSym := rfl
  decBit := rfl

end Decoded

/-! ### The whole session (R109, R110, R112) -/

/-- A step from DECODING goes on with the session, finishes it, finds it truncated, or is no end of its own. -/
theorem DecodeMove.goes_on_or_ends {u v : State} (h : DecodeMove u v) (hu : u.blk.mode = .decoding) :
    v.blk.mode = .decoding ∨ (u.blk.decFinish = some v.blk ∧ SamePorts u v) ∨
      (u.blk.decTruncate = some v.blk ∧ SamePorts u v) ∨
      (v.blk.mode = .idle ∨ v.blk.mode = .error ∧ v.blk.err.code ≠ .truncated) := by
  cases h with
  | kept hm => exact .inl (hm.trans hu)
  | taken x hb =>
    obtain ⟨_, _, _, hv⟩ := Block.takeBitIn_cases hb
    exact .inl (by rw [hv]; exact hu)
  | decoder hb hp =>
    rcases Block.decoderStep_cases hb with hb | hb | hb | hb
    · obtain ⟨_, _, _, _, _, _, _, hv⟩ := Block.decDescend_cases hb
      exact .inl (by rw [hv]; exact hu)
    · obtain ⟨_, _, _, _, _, hv⟩ := Block.decEmit_cases hb
      exact .inl (by rw [hv]; exact hu)
    · exact .inr (.inl ⟨hb, hp⟩)
    · exact .inr (.inr (.inl ⟨hb, hp⟩))
  | ended he => exact .inr (.inr (.inr he))

/-- Settles O52: every step of the session keeps the account of what is consumed and pushed; at DEC_DONE the path is
EOF's code, at TRUNCATED it ends at an internal node with no bit queued. -/
theorem decodeSessionParsesTheBits : Obligations.DecodeSessionParsesTheBits := by
  unfold Obligations.DecodeSessionParsesTheBits
  intro r s t k hinv hr hs hrun
  have htree : r.blk.tree.IsOf r.blk.freq := hinv.isOf (by rw [hr]; rfl)
  have hvalid : r.blk.tree.valid = true := hinv.modeTree.2 (by rw [hr]; rfl)
  rw [exec_of_permitted (i := .decStart) rfl (by simp [hr]) (by simp [hr, startModes])] at hs
  cases hs
  have hbytes (syms : List Sym) : syms.map symByte = syms.map fun d => d.setWidth 8 :=
    List.map_congr_left fun d _ => symByte_eq_setWidth d
  rcases StaysIn.last_step (P := fun u => ∃ syms path, Decoded (r.withBlk r.blk.startDecode) u syms path)
    (fun u v ⟨_, _, h⟩ hu hstep hv => h.step htree hvalid (step_decodeMove hu hstep) (by simp [hv]))
    (fun _ => ⟨_, _, .of_startDecode r⟩) hrun with rfl | ⟨u, ⟨syms, path, h⟩, hu, hstep⟩
  · exact ⟨nofun, nofun⟩
  rcases (step_decodeMove hu hstep).goes_on_or_ends hu with hm | ⟨hb, hp⟩ | ⟨hb, hp⟩ | he
  · simp [hm]
  · have ht := h.finish hb hp
    obtain ⟨d, w, hn, hd, hv⟩ := Block.decFinish_cases hb
    obtain rfl := toNat_eq_eof_iff.mp hd
    obtain ⟨_, hn⟩ := Block.decAt_eq_some.mp hn
    rw [h.tree] at hn
    obtain ⟨_, rfl⟩ := htree.codeOf_of_leaf hvalid h.place hn
    refine ⟨fun _ => ⟨syms, h.inTree, ?taken, ?stream, ht.decSym, ht.decBit, ?ready⟩, fun herr => by simp [hv] at herr⟩
    case taken => rw [ht.taken, Tree.payload, List.append_assoc _ (syms.flatMap _)]; rfl
    case stream => rw [ht.stream, hbytes]
    case ready => rw [hv]; rfl
  · have ht := h.truncate hb hp
    obtain ⟨zero, one, w, hn, hq, _, hv⟩ := Block.decTruncate_cases hb
    obtain ⟨_, hn⟩ := Block.decAt_eq_some.mp hn
    rw [h.tree] at hn
    obtain ⟨d, hin, hprefix, hne⟩ := htree.exists_code_of_internal hvalid h.place hn
    have hempty : t.blk.q.bitIn = [] := by rw [hv]; exact hq
    refine ⟨fun hdone => by simp [hv] at hdone, fun _ _ => ⟨syms, path, d, h.inTree, hin, hprefix, hne, ?taken, ?stream,
      ht.place, ?info⟩⟩
    case taken => rw [ht.taken, hempty, List.append_nil]; rfl
    case stream => rw [ht.stream, hbytes]
    case info => rw [hv]; rfl
  · rcases he with he | ⟨he, hcode⟩
    · simp [he]
    · simp [he, hcode]

end Sys2Proof.Machine
end

section
/-! The round trip: what a decode session makes of the payload of an encode session (44_decoder.md R113). -/

namespace Sys2Proof.Machine

/-- Of two sequences of symbols before EOF, each ended by EOF, the one that begins the other is the other. -/
theorem eq_of_concat_eof_prefix {xs ys : List Sym} (hys : ∀ d ∈ ys, d ≠ 256) (h : xs ++ [256] <+: ys ++ [256]) :
    xs = ys := by
  rcases List.prefix_concat_iff.mp h with h | h
  · exact List.append_cancel_right h
  · exact absurd rfl (hys 256 (h.subset (by simp)))

namespace Tree.IsOf
variable {t : Tree} {f : Vector Word 256} {xs ys : List Sym} {bits rest : List Bool}

theorem payload_eq {u : Tree} (ht : t.IsOf f) (hu : u.IsOf f) (syms : List Sym) : t.payload syms = u.payload syms := by
  rw [Tree.payload, Tree.payload, funext (ht.codeOf_eq hu)]

theorem inTree_concat_eof (ht : t.IsOf f) (hv : t.valid = true) (hxs : ∀ d ∈ xs, d ≠ 256 ∧ t.inTree d = true) :
    ∀ d ∈ xs ++ [256], t.inTree d = true :=
  List.forall_mem_append.mpr ⟨fun d hd => (hxs d hd).2, List.forall_mem_singleton.mpr (ht.inTree_eof hv)⟩

/-- Bits that begin with a payload begin with no other. -/
theorem eq_of_payload_prefix (ht : t.IsOf f) (hv : t.valid = true) (hxs : ∀ d ∈ xs, d ≠ 256 ∧ t.inTree d = true)
    (hys : ∀ d ∈ ys, d ≠ 256 ∧ t.inTree d = true) (hx : t.payload xs <+: bits) (hy : t.payload ys <+: bits) :
    xs = ys := by
  rw [payload_eq_flatMap] at hx hy
  rcases ht.prefix_or_prefix_of_codes hv (ht.inTree_concat_eof hv hxs) (ht.inTree_concat_eof hv hys) hx hy with h | h
  · exact eq_of_concat_eof_prefix (fun d hd => (hys d hd).1) h
  · exact (eq_of_concat_eof_prefix (fun d hd => (hxs d hd).1) h).symm

/-- Codes of symbols before EOF and the proper beginning of one more do not begin with a payload: the payload would
reach to the end of that code. -/
theorem not_payload_prefix_of_truncated (ht : t.IsOf f) (hv : t.valid = true)
    (hxs : ∀ d ∈ xs, d ≠ 256 ∧ t.inTree d = true) (hys : ∀ d ∈ ys, d ≠ 256 ∧ t.inTree d = true) {d : Sym}
    (hd : t.inTree d = true) (hrest : rest <+: t.codeOf d) (hne : rest ≠ t.codeOf d) :
    ¬ t.payload xs <+: ys.flatMap t.codeOf ++ rest := by
  intro h
  rw [payload_eq_flatMap] at h
  have hwhole : (ys ++ [d]).flatMap t.codeOf = ys.flatMap t.codeOf ++ t.codeOf d := by simp
  have hshort : ys.flatMap t.codeOf ++ rest <+: (ys ++ [d]).flatMap t.codeOf :=
    hwhole ▸ (List.prefix_append_right_inj _).mpr hrest
  have hback : ys ++ [d] <+: xs ++ [256] := by
    rcases ht.prefix_or_prefix_of_codes hv (ht.inTree_concat_eof hv hxs)
      (List.forall_mem_append.mpr ⟨fun e he => (hys e he).2, List.forall_mem_singleton.mpr hd⟩)
      (h.trans hshort) List.prefix_rfl with hle | hle
    · rcases List.prefix_concat_iff.mp hle with heq | hle
      · exact heq ▸ List.prefix_rfl
      · exact absurd rfl (hys 256 (hle.subset (by simp))).1
    · exact hle
  obtain ⟨more, hmore⟩ := hback
  rw [← hmore, List.flatMap_append] at h
  have heq := hshort.eq_of_length_le ((List.prefix_append _ _).trans h).length_le
  rw [hwhole] at heq
  exact hne (List.append_cancel_left heq)

end Tree.IsOf

/-- Settles O53: the bits taken begin with the payload of what the encode session loaded, or it with them, and the ends
of the decode session say of what codes they are made; no code begins another's. -/
theorem decodingInvertsEncoding : Obligations.DecodingInvertsEncoding := by
  unfold Obligations.DecodingInvertsEncoding
  intro a a₁ a₂ d d₁ d₂ j k syms payload taken hinva hinvd hra hrd hfreq henc hruna hdonea hdec hrund hsyms hpay htaken
  have hta : a.blk.tree.IsOf a.blk.freq := hinva.isOf (by rw [hra]; rfl)
  have htd : d.blk.tree.IsOf a.blk.freq := hfreq ▸ hinvd.isOf (by rw [hrd]; rfl)
  have hva : a.blk.tree.valid = true := hinva.modeTree.2 (by rw [hra]; rfl)
  have hvd : d.blk.tree.valid = true := hinvd.modeTree.2 (by rw [hrd]; rfl)
  obtain ⟨syms', hin, hsyms', hpay', _⟩ :=
    (encodeSessionPushesThePayload a a₁ a₂ j hra henc hruna).1 hdonea
  rw [hsyms, List.append_assoc, List.append_assoc, List.append_cancel_left_eq] at hsyms'
  obtain rfl := List.append_cancel_right hsyms'
  rw [hpay, List.append_cancel_left_eq, hta.payload_eq htd] at hpay'
  subst hpay'
  have hloaded : ∀ e ∈ syms, e ≠ 256 ∧ d.blk.tree.inTree e = true := fun e he =>
    ⟨(hin e he).1, htd.inTree_eq hta (hvd.trans hva.symm) e ▸ (hin e he).2⟩
  have hbytes {ys : List Sym} (h : ∀ e ∈ ys, e.toNat < 256 ∧ d.blk.tree.inTree e = true) :
      ∀ e ∈ ys, e ≠ 256 ∧ d.blk.tree.inTree e = true := fun e he =>
    ⟨by rintro rfl; exact absurd (h _ he).1 (by decide), (h e he).2⟩
  obtain ⟨hdone, htrunc⟩ := decodeSessionParsesTheBits d d₁ d₂ k hinvd hrd hdec hrund
  refine ⟨fun hwhole => ⟨fun hm => ?inverted, fun ⟨hm, hc⟩ => ?notTruncated⟩, fun hpart hne hm => ?notDone⟩
  case inverted =>
    obtain ⟨ys, hys, hbits, hstream, _⟩ := hdone hm
    rw [htaken, List.append_assoc, List.append_cancel_left_eq] at hbits
    subst hbits
    rw [htd.eq_of_payload_prefix hvd hloaded (hbytes hys) hwhole (List.prefix_append _ _)]
    exact hstream
  case notTruncated =>
    obtain ⟨ys, rest, e, hys, he, hrest, hproper, hbits, _⟩ := htrunc hm hc
    rw [htaken, List.append_assoc, List.append_cancel_left_eq] at hbits
    subst hbits
    exact htd.not_payload_prefix_of_truncated hvd hloaded (hbytes hys) he hrest hproper hwhole
  case notDone =>
    obtain ⟨ys, hys, hbits, _⟩ := hdone hm
    rw [htaken, List.append_assoc, List.append_cancel_left_eq] at hbits
    subst hbits
    have hys' := (List.prefix_append _ _).trans hpart
    obtain rfl := htd.eq_of_payload_prefix hvd hloaded (hbytes hys) List.prefix_rfl hys'
    exact hne (hpart.eq_of_length_le (List.prefix_append _ _).length_le)

end Sys2Proof.Machine
end

section
/-! ERROR: what a step from it can do, and the error record (60_exceptions.md R115 to R118). -/

namespace Sys2Proof.Machine

/-- What ERROR holds (60_exceptions.md R116): MODE and ERR, the tables, the engines, the counters and the input queues.
The output queues still drain, and the control registers are still written. -/
structure HeldInError (b b' : Block) : Prop where
  mode : b'.mode = .error
  err : b'.err = b.err
  freq : b'.freq = b.freq
  tree : b'.tree = b.tree
  enc : b'.enc = b.enc
  dec : b'.dec = b.dec
  cnt : b'.cnt = b.cnt
  symIn : b'.q.symIn = b.q.symIn
  bitIn : b'.q.bitIn = b.q.bitIn

/-- In ERROR a change holds the block, or is ABORT's or the reset step's: every other has a guard that ERROR does not
meet. -/
theorem BlockChange.of_error {T : Turn → Prop} {b b' : Block} (h : BlockChange T b b') (hm : b.mode = .error) :
    HeldInError b b' ∨ (T (.host (writeReq 0x008 (encode .abort))) ∧ b' = b.abort) ∨
      (T .reset ∧ b' = Block.reset b.depths) := by
  cases h with
  | abort ht => exact .inr (.inl ⟨ht, rfl⟩)
  | reset ht => exact .inr (.inr ⟨ht, rfl⟩)
  | same | writeIrqStatus | writeIrqEnable | writeCodeSel | giveBitOut | giveSymOut =>
    exact .inl ⟨hm, rfl, rfl, rfl, rfl, rfl, rfl, rfl, rfl⟩
  | illegal _ _ hne | rejected _ _ hne => exact absurd hm hne
  | clearFreq _ hrest | startBuild _ hrest | freqStored _ _ _ hrest =>
    exact absurd hm (ne_error_of_mem_restingModes hrest)
  | freqRejected _ _ _ hrun => rw [hm] at hrun; exact absurd hrun (by decide)
  | startEncode _ hg | startDecode _ hg | weightOvf hg | built hg | badSymbol _ _ hg | loadEof _ _ hg
  | loadSym _ _ hg | encEmit _ _ hg | encFinish hg | decDescend _ _ _ _ _ hg | decEmit _ _ hg | decFinish _ _ hg
  | decTruncate _ _ _ hg | takeSymIn _ hg | takeBitIn _ hg | latchEnd hg => rw [hm] at hg; cases hg

/-- Settles O28: in ERROR no change raises, so ERR is held or cleared. -/
theorem raiseWritesTheErrorRecord : Obligations.RaiseWritesTheErrorRecord := by
  unfold Obligations.RaiseWritesTheErrorRecord
  refine ⟨fun b c i => rfl, fun s s' h hm => ?_⟩
  rcases (step_blockChange h).of_error hm with hheld | ⟨_, hb⟩ | ⟨_, hb⟩
  · exact .inl hheld.err
  · exact .inr (by rw [hb]; rfl)
  · exact .inr (by rw [hb]; rfl)

/-- Settles O29: each of the three things a step from ERROR can do is one of those named. -/
theorem errorIsLeftByAbortOrReset : Obligations.ErrorIsLeftByAbortOrReset := by
  unfold Obligations.ErrorIsLeftByAbortOrReset
  intro s s' h hm
  rcases (step_blockChange h).of_error hm with hheld | ⟨ht, hb⟩ | ⟨ht, hb⟩
  · exact .inl ⟨hheld.mode, hheld.err, hheld.freq, hheld.tree, hheld.enc, hheld.dec, hheld.cnt, hheld.symIn,
      hheld.bitIn⟩
  · rw [hb]
    exact .inr ⟨rfl, rfl, rfl, rfl, .inr ⟨rfl, _, ht, writeReq_wf _ (by decide), rfl, rfl, rfl⟩⟩
  · rw [hb]
    exact .inr ⟨rfl, rfl, rfl, rfl, .inl ⟨ht, rfl⟩⟩

end Sys2Proof.Machine
end

section
/-! The session counters over every step (60_exceptions.md R122). -/

namespace Sys2Proof.Machine

/-- What one change of the block can do to the counters; T says which turns the step may have taken. -/
inductive CounterChange (T : Turn → Prop) (b b' : Block) : Prop where
  | kept (hc : b'.cnt = b.cnt)
  | loaded (hm : b.mode = .encoding) (hsr : b.enc.sr = []) (hc : b'.cnt = { b.cnt with encSym := b.cnt.encSym + 1 })
  | bitPushed (hq : b'.q.bitOut.length = b.q.bitOut.length + 1)
      (hc : b'.cnt = { b.cnt with encBit := b.cnt.encBit + 1 })
  | symPushed (hq : b'.q.symOut.length = b.q.symOut.length + 1)
      (hc : b'.cnt = { b.cnt with decSym := b.cnt.decSym + 1 })
  | bitConsumed (hm : b.mode = .decoding) (hq : b.q.bitIn.length = b'.q.bitIn.length + 1)
      (hc : b'.cnt = { b.cnt with decBit := b.cnt.decBit + 1 })
  | encodeStarted (hm : b.mode = .ready) (hm' : b'.mode = .encoding)
      (hc : b'.cnt = { b.cnt with encSym := 0, encBit := 0 })
  | decodeStarted (hm : b.mode = .ready) (hm' : b'.mode = .decoding)
      (hc : b'.cnt = { b.cnt with decSym := 0, decBit := 0 })
  | reset (ht : T .reset) (hc : b'.cnt = ⟨0, 0, 0, 0⟩)

theorem BlockChange.counters {T : Turn → Prop} {b b' : Block} (h : BlockChange T b b') : CounterChange T b b' := by
  cases h with
  | loadSym _ _ hm hsr => exact .loaded hm hsr rfl
  | encEmit => exact .bitPushed List.length_append rfl
  | decEmit => exact .symPushed List.length_append rfl
  | decDescend _ _ _ _ _ hm _ hq => exact .bitConsumed hm (by rw [hq]; rfl) rfl
  | startEncode _ hm => exact .encodeStarted hm rfl rfl
  | startDecode _ hm => exact .decodeStarted hm rfl rfl
  | reset ht => exact .reset ht rfl
  | _ => exact .kept rfl

/-- Settles O59: each change of the counters is one of those named, and leaves the other counters alone. -/
theorem countersChangeOnlyAsNamed : Obligations.CountersChangeOnlyAsNamed := by
  unfold Obligations.CountersChangeOnlyAsNamed
  intro s s' h
  cases (step_blockChange h).counters with
  | kept hc => rw [hc]; exact ⟨.inl rfl, .inl rfl, .inl rfl, .inl rfl⟩
  | loaded hm hsr hc => rw [hc]; exact ⟨.inr (.inl ⟨hm, hsr, rfl⟩), .inl rfl, .inl rfl, .inl rfl⟩
  | bitPushed hq hc => rw [hc]; exact ⟨.inl rfl, .inr (.inl ⟨hq, rfl⟩), .inl rfl, .inl rfl⟩
  | symPushed hq hc => rw [hc]; exact ⟨.inl rfl, .inl rfl, .inr (.inl ⟨hq, rfl⟩), .inl rfl⟩
  | bitConsumed hm hq hc => rw [hc]; exact ⟨.inl rfl, .inl rfl, .inl rfl, .inr (.inl ⟨hm, hq, rfl⟩)⟩
  | encodeStarted hm hm' hc =>
    rw [hc]
    exact ⟨.inr (.inr ⟨rfl, .inr ⟨hm, hm'⟩⟩), .inr (.inr ⟨rfl, .inr ⟨hm, hm'⟩⟩), .inl rfl, .inl rfl⟩
  | decodeStarted hm hm' hc =>
    rw [hc]
    exact ⟨.inl rfl, .inl rfl, .inr (.inr ⟨rfl, .inr ⟨hm, hm'⟩⟩), .inr (.inr ⟨rfl, .inr ⟨hm, hm'⟩⟩)⟩
  | reset ht hc =>
    rw [hc]
    exact ⟨.inr (.inr ⟨rfl, .inl ht⟩), .inr (.inr ⟨rfl, .inl ht⟩), .inr (.inr ⟨rfl, .inl ht⟩),
      .inr (.inr ⟨rfl, .inl ht⟩)⟩

end Sys2Proof.Machine
end

section
/-! Nothing stops the machine: from a register write up to the step, each answers a next state (20_memory.md R50,
60_exceptions.md R115, log 10). -/

namespace Sys2Proof.Machine

theorem regWrite_answers_next (r : Reg) (w : Word) (s : State) : ∃ s', regWrite r w s = .next s' := by
  cases r with
  | cmd =>
    cases hd : decode w with
    | ok i => exact ⟨_, by simp only [regWrite, cmdWrite, hd]; exact exec_eq_cmdEffect i s⟩
    | error e => exact ⟨s.withBlk (s.blk.illegalCmd w), by simp only [regWrite, cmdWrite, hd]⟩
  | _ => exact ⟨_, rfl⟩

theorem hostStep_answers_next (r : BusReq) (s : State) : ∃ s', hostStep r s = .next s' := by
  unfold hostStep
  split
  · exact regWrite_answers_next _ _ _
  · exact ⟨_, rfl⟩

theorem agentTurn_answers_next {t : Turn} {s : State} {o : Result} (h : agentTurn t s = some o) :
    ∃ s', o = .next s' := by
  cases t with
  | host r => cases h; exact hostStep_answers_next r s
  | bitEnd | reset => cases h; exact ⟨_, rfl⟩
  | prog => cases h
  | builder | encoder | decoder | symSrc | bitSnk | bitSrc | latchEnd | symSnk =>
    obtain ⟨s', _, rfl⟩ := Option.map_eq_some_iff.mp h
    exact ⟨s', rfl⟩

theorem progTurn_answers_next {s : State} {o : Result} (h : progTurn s = some o) : ∃ s', o = .next s' := by
  unfold progTurn at h
  split at h
  · cases h
  · exact agentTurn_answers_next h

theorem turn_answers_next {t : Turn} {s : State} {o : Result} (h : turn t s = some o) : ∃ s', o = .next s' := by
  unfold turn at h
  split at h
  · exact progTurn_answers_next h
  · exact agentTurn_answers_next h

/-- A turn is taken, or passes and leaves the state (00_scope.md R5). -/
theorem takeTurn_answers_next (t : Turn) (s : State) : ∃ s', takeTurn t s = .next s' := by
  unfold takeTurn
  cases h : turn t s with
  | none => exact ⟨s, rfl⟩
  | some o => exact turn_answers_next h

/-- Settles O60: a turn given, an engine's step and the program's turn all answer a next state. -/
theorem everyStepAnswersANextState : Obligations.EveryStepAnswersANextState := by
  unfold Obligations.EveryStepAnswersANextState
  intro s
  unfold step
  split
  · exact takeTurn_answers_next _ _
  · split
    · exact ⟨_, rfl⟩
    · exact takeTurn_answers_next _ _

end Sys2Proof.Machine
end

section
/-! The reset step (70_reset_and_hazards.md R127, 10_state.md R46). -/

namespace Sys2Proof.Machine

/-! ### The step of the reset turn -/

/-- The reset turn is enabled in every mode and changes nothing but the block. -/
theorem step_reset {s : State} {ts : List Turn} (hts : s.env.turns = .reset :: ts) :
    step s = .next ((s.withTurns ts).withBlk (Block.reset s.blk.depths)) := by
  simp [step_of_turn hts, takeTurn, turn, agentTurn, State.resetBlk]

/-! ### What the block after reset shows (R46) -/

/-- FREQ[256] has no storage, so it reads 1 on every block (R33). -/
@[simp] theorem Block.readReg_freqEof (b : Block) : b.readReg .freqEof = 1 := freqAt_eof b.freq

/-- Every symbol's weight has its value after reset. -/
theorem Block.reset_freq (d : Depths) (k : Fin 256) : (Block.reset d).freq[k] = 0 := by
  simp [Block.reset]

/-- With no flag set and none enabled, the interrupt output is low. -/
theorem Block.reset_irq (d : Depths) : (Block.reset d).irq = false := by
  simp [Block.irq, Block.reset]

/-- In IDLE the block accepts no symbol and no bit, whatever room its queues have. -/
theorem Block.reset_not_ready (d : Depths) :
    (Block.reset d).symReady = false ∧ (Block.reset d).bitReady = false := ⟨rfl, rfl⟩

/-- With its queues empty the block offers no bit and no symbol. -/
theorem Block.reset_not_valid (d : Depths) :
    (Block.reset d).bitValid = false ∧ (Block.reset d).symValid = false := ⟨rfl, rfl⟩

/-- Settles O54: the reset turn puts the block after reset in place, of the same depths. Its stored state is read off that
block; FREQ, `irq` and the ports' outputs are the lemmas above. -/
theorem resetGivesTheResetState : Obligations.ResetGivesTheResetState := by
  unfold Obligations.ResetGivesTheResetState
  intro s ts hts
  obtain ⟨hsymReady, hbitReady⟩ := Block.reset_not_ready s.blk.depths
  obtain ⟨hbitValid, hsymValid⟩ := Block.reset_not_valid s.blk.depths
  exact ⟨Block.reset s.blk.depths, step_reset hts, Block.reset_depths _, rfl, rfl, Block.reset_freq _,
    Block.readReg_freqEof _, rfl, rfl, rfl, rfl, rfl, rfl, rfl, rfl, Block.reset_irq _, hsymReady, hbitValid, hbitReady,
    hsymValid⟩

end Sys2Proof.Machine
end
